-- ==== Sys2Proof/Word.lean ====
section
/-! DEFINITION. The word, byte and register-index types every file uses (00_scope.md R7, section 4). -/

namespace Sys2Proof

/-- `u32`: an unsigned 32-bit word (R7, `XLEN` = 32). -/
abbrev Word := BitVec 32

/-- `u8`: a byte. -/
abbrev Byte := BitVec 8

/-- A general register's number, 0 to 31 (R30, `NREG` = 32). -/
abbrev RegIdx := Fin 32

/-- Source text: a line, a label, an operand. -/
abbrev Text := List Char

/-- `unsigned(v)` (00_scope.md section 4). -/
abbrev unsigned (v : Word) : Nat := v.toNat

/-- `signed(v)`: the two's complement reading (00_scope.md section 4; general knowledge G1, log entry 21). -/
abbrev signed (v : Word) : Int := v.toInt

end Sys2Proof
end

