-- ==== Sys2Proof/Config.lean ====
section
/-! DEFINITION. The OPEN parameters of 00_scope.md R7 that no rule gives a value.
`RUN_DEADLINE` is no constant here: no rule reads it (R350), and the number of steps a RUN makes is an
argument of the RUN action. `EFFECT_SIGNEDNESS` and `ACCEPT_HEX_IMM` are arguments too: an instance is created with
them and holds them (`Params`, Machine/State.lean). -/

namespace Sys2Proof

/-- `ENTRY_MAX`, the bound the entry address is clamped below (R7, R341): OPEN, so nothing is known of its
value (log entry 4). -/
opaque Config.entryMax : Word

end Sys2Proof
end

