-- ==== Sys2Proof/Syntax.lean ====
section
/-! DEFINITION. The record form of the instruction store (30_encoding.md R100, R101): one constructor of `Instr`
per row of opcode_table.json, the slot that may also be padding (R124), and the Program (10_state.md R43). -/

namespace Sys2Proof

/-- An instruction record (R101). Register numbers are 0..31, `imm` of the I, load, S and JALR shapes is the
12-bit two's complement value (-2048..2047), `shamt` is 0..31, `imm` of LUI and AUIPC is 0..1048575, and
`target` is the absolute u32 address a label resolved to. Field order is R101's. -/
inductive Instr where
  | add (rd rs1 rs2 : RegIdx)
  | sub (rd rs1 rs2 : RegIdx)
  | and (rd rs1 rs2 : RegIdx)
  | or (rd rs1 rs2 : RegIdx)
  | xor (rd rs1 rs2 : RegIdx)
  | sll (rd rs1 rs2 : RegIdx)
  | srl (rd rs1 rs2 : RegIdx)
  | sra (rd rs1 rs2 : RegIdx)
  | slt (rd rs1 rs2 : RegIdx)
  | sltu (rd rs1 rs2 : RegIdx)
  | addi (rd rs1 : RegIdx) (imm : BitVec 12)
  | andi (rd rs1 : RegIdx) (imm : BitVec 12)
  | ori (rd rs1 : RegIdx) (imm : BitVec 12)
  | xori (rd rs1 : RegIdx) (imm : BitVec 12)
  | slti (rd rs1 : RegIdx) (imm : BitVec 12)
  | sltiu (rd rs1 : RegIdx) (imm : BitVec 12)
  | slli (rd rs1 : RegIdx) (shamt : BitVec 5)
  | srli (rd rs1 : RegIdx) (shamt : BitVec 5)
  | srai (rd rs1 : RegIdx) (shamt : BitVec 5)
  | lui (rd : RegIdx) (imm : BitVec 20)
  | auipc (rd : RegIdx) (imm : BitVec 20)
  | lb (rd rs1 : RegIdx) (imm : BitVec 12)
  | lh (rd rs1 : RegIdx) (imm : BitVec 12)
  | lw (rd rs1 : RegIdx) (imm : BitVec 12)
  | lbu (rd rs1 : RegIdx) (imm : BitVec 12)
  | lhu (rd rs1 : RegIdx) (imm : BitVec 12)
  | sb (rs2 rs1 : RegIdx) (imm : BitVec 12)
  | sh (rs2 rs1 : RegIdx) (imm : BitVec 12)
  | sw (rs2 rs1 : RegIdx) (imm : BitVec 12)
  | jal (rd : RegIdx) (target : Word)
  | jalr (rd rs1 : RegIdx) (imm : BitVec 12)
  | beq (rs1 rs2 : RegIdx) (target : Word)
  | bne (rs1 rs2 : RegIdx) (target : Word)
  | blt (rs1 rs2 : RegIdx) (target : Word)
  | bge (rs1 rs2 : RegIdx) (target : Word)
  | bltu (rs1 rs2 : RegIdx) (target : Word)
  | bgeu (rs1 rs2 : RegIdx) (target : Word)
  deriving DecidableEq, Repr

/-- The 37 mnemonics (R2), the keys of the opcode table, of the text form and of the Effect's markers. -/
inductive Mnemonic where
  | add | sub | and | or | xor | sll | srl | sra | slt | sltu
  | addi | andi | ori | xori | slti | sltiu
  | slli | srli | srai
  | lui | auipc
  | lb | lh | lw | lbu | lhu
  | sb | sh | sw
  | jal | jalr
  | beq | bne | blt | bge | bltu | bgeu
  deriving DecidableEq, Repr

/-- The mnemonic of a record. -/
def Instr.mnemonic : Instr → Mnemonic
  | .add _ _ _ => .add
  | .sub _ _ _ => .sub
  | .and _ _ _ => .and
  | .or _ _ _ => .or
  | .xor _ _ _ => .xor
  | .sll _ _ _ => .sll
  | .srl _ _ _ => .srl
  | .sra _ _ _ => .sra
  | .slt _ _ _ => .slt
  | .sltu _ _ _ => .sltu
  | .addi _ _ _ => .addi
  | .andi _ _ _ => .andi
  | .ori _ _ _ => .ori
  | .xori _ _ _ => .xori
  | .slti _ _ _ => .slti
  | .sltiu _ _ _ => .sltiu
  | .slli _ _ _ => .slli
  | .srli _ _ _ => .srli
  | .srai _ _ _ => .srai
  | .lui _ _ => .lui
  | .auipc _ _ => .auipc
  | .lb _ _ _ => .lb
  | .lh _ _ _ => .lh
  | .lw _ _ _ => .lw
  | .lbu _ _ _ => .lbu
  | .lhu _ _ _ => .lhu
  | .sb _ _ _ => .sb
  | .sh _ _ _ => .sh
  | .sw _ _ _ => .sw
  | .jal _ _ => .jal
  | .jalr _ _ _ => .jalr
  | .beq _ _ _ => .beq
  | .bne _ _ _ => .bne
  | .blt _ _ _ => .blt
  | .bge _ _ _ => .bge
  | .bltu _ _ _ => .bltu
  | .bgeu _ _ _ => .bgeu

/-- The absolute target a `jal` or branch record holds (R101), if the record has one. -/
def Instr.target : Instr → Option Word
  | .jal _ t => some t
  | .beq _ _ t => some t
  | .bne _ _ t => some t
  | .blt _ _ t => some t
  | .bge _ _ t => some t
  | .bltu _ _ t => some t
  | .bgeu _ _ t => some t
  | _ => none

/-- One slot of the instruction store: an instruction record, or the padding slot a label dangling at the end
of input consumes (R124). -/
inductive Slot where
  | instr (i : Instr)
  | pad
  deriving DecidableEq, Repr

/-- The Program (R43): the slots `instrs[0]` to `instrs[count-1]`, the entry address and the label table.
`endAddress` is a computed view (Program.endAddress, Machine/Ops.lean). -/
structure Program where
  instrs : List Slot
  entry  : Word
  labels : List (Text × Word)
  deriving DecidableEq, Repr

end Sys2Proof
end

