-- ==== Sys2Proof/WellFormed.lean ====
section
/-! DEFINITION. Well-formedness of a record (30_encoding.md R101, R102), of its reference word (R106) and of a
loaded Program (10_state.md R43, R44; 70_reset_and_hazards.md R341). The field ranges of R101 hold by type. -/

namespace Sys2Proof

/-- A record is well formed when its `target`, if it has one, is 4-aligned (R102). -/
def Instr.wf (i : Instr) : Bool :=
  match i.target with
  | some t => t.toNat % 4 == 0
  | none => true

/-- The signed distance `t - p` a branch or `jal` word at address `p` carries (R105; the difference is taken
modulo 2^32, log entry 10). -/
def branchOffset (p t : Word) : Int := (t - p).toInt

/-- R106: the offsets a branch word can carry. -/
def fitsBranch (p t : Word) : Bool :=
  decide (-4096 ≤ branchOffset p t ∧ branchOffset p t ≤ 4094) && (t - p).toNat % 2 == 0

/-- R106: the offsets a `jal` word can carry. -/
def fitsJal (p t : Word) : Bool :=
  decide (-1048576 ≤ branchOffset p t ∧ branchOffset p t ≤ 1048574) && (t - p).toNat % 2 == 0

/-- R106: whether the record, at address `p`, has a reference word. -/
def Instr.hasWord (p : Word) (i : Instr) : Bool :=
  match i with
  | .jal _ t => fitsJal p t
  | .beq _ _ t => fitsBranch p t
  | .bne _ _ t => fitsBranch p t
  | .blt _ _ t => fitsBranch p t
  | .bge _ _ t => fitsBranch p t
  | .bltu _ _ t => fitsBranch p t
  | .bgeu _ _ t => fitsBranch p t
  | _ => true

/-- `count`, the number of slots (R43). -/
abbrev Program.count (p : Program) : Nat := p.instrs.length

/-- The address of slot `i` (R43). -/
abbrev Program.slotAddress (p : Program) (i : Nat) : Word := p.entry + BitVec.ofNat 32 (4 * i)

/-- R44: an address is a slot's address. -/
abbrev Program.isSlotAddress (p : Program) (a : Word) : Prop := ∃ i, i < p.count ∧ a = p.slotAddress i

/-- R102: a slot's `target` is an address of the label table. -/
def Program.slotWf (p : Program) : Slot → Bool
  | .instr i =>
    match i.target with
    | some t => (p.labels.map Prod.snd).contains t
    | none => true
  | .pad => true

/-- R124, R123: padding stands in the last slot or nowhere. -/
def padLast : List Slot → Bool
  | [] => true
  | [_] => true
  | .pad :: _ :: _ => false
  | .instr _ :: rest => padLast rest

/-- A loaded Program is well formed: the entry is 4-aligned and `end` does not pass 0xFFFFFFFC (R341), labels are
distinct and name slots (R44), every target is in the label table (R102), padding stands last (R124). -/
abbrev Program.wf (p : Program) : Prop :=
  p.entry.toNat % 4 = 0 ∧
  p.entry.toNat + 4 * p.count ≤ 0x100000000 ∧
  (p.labels.map Prod.fst).Nodup ∧
  (∀ l ∈ p.labels, p.isSlotAddress l.2) ∧
  (∀ s ∈ p.instrs, p.slotWf s = true) ∧
  padLast p.instrs = true

end Sys2Proof
end

