-- ==== Sys2Proof/Decode.lean ====
section
/-! DEFINITION. The reference 32-bit word form (30_encoding.md R103 to R108; general knowledge G2 to G5, log
entry 8): the opcode table, the decoder, total on words and on bytes, and the encoder. The record form stays
normative (R100). -/

namespace Sys2Proof

/-- Why bytes give no record: no row of the table matches (R107, `IllegalWord`), or fewer than four bytes stand
there. -/
inductive DecodeError where
  | illegalWord
  | truncated
  deriving DecidableEq, Repr

/-- A row of opcode_table.json: a word `w` matches when `w & mask = pattern` (R107; the table's `match`). -/
structure OpcodeRow where
  mnemonic : Mnemonic
  pattern  : Word
  mask     : Word
  deriving DecidableEq, Repr

/-! ### The opcode table (opcode_table.json; R108) -/

/-- Register-register rows (R153 to R162). -/
def regRows : List OpcodeRow :=
  [⟨.add, 0x00000033, 0xFE00707F⟩,
   ⟨.sub, 0x40000033, 0xFE00707F⟩,
   ⟨.and, 0x00007033, 0xFE00707F⟩,
   ⟨.or, 0x00006033, 0xFE00707F⟩,
   ⟨.xor, 0x00004033, 0xFE00707F⟩,
   ⟨.sll, 0x00001033, 0xFE00707F⟩,
   ⟨.srl, 0x00005033, 0xFE00707F⟩,
   ⟨.sra, 0x40005033, 0xFE00707F⟩,
   ⟨.slt, 0x00002033, 0xFE00707F⟩,
   ⟨.sltu, 0x00003033, 0xFE00707F⟩]

/-- Register-immediate rows (R163 to R168). -/
def immRows : List OpcodeRow :=
  [⟨.addi, 0x00000013, 0x0000707F⟩,
   ⟨.andi, 0x00007013, 0x0000707F⟩,
   ⟨.ori, 0x00006013, 0x0000707F⟩,
   ⟨.xori, 0x00004013, 0x0000707F⟩,
   ⟨.slti, 0x00002013, 0x0000707F⟩,
   ⟨.sltiu, 0x00003013, 0x0000707F⟩]

/-- Shift-immediate rows (R169 to R171). -/
def shiftRows : List OpcodeRow :=
  [⟨.slli, 0x00001013, 0xFE00707F⟩,
   ⟨.srli, 0x00005013, 0xFE00707F⟩,
   ⟨.srai, 0x40005013, 0xFE00707F⟩]

/-- Upper-immediate rows (R172, R173). -/
def upperRows : List OpcodeRow :=
  [⟨.lui, 0x00000037, 0x0000007F⟩,
   ⟨.auipc, 0x00000017, 0x0000007F⟩]

/-- Load rows (R233 to R237). -/
def loadRows : List OpcodeRow :=
  [⟨.lb, 0x00000003, 0x0000707F⟩,
   ⟨.lh, 0x00001003, 0x0000707F⟩,
   ⟨.lw, 0x00002003, 0x0000707F⟩,
   ⟨.lbu, 0x00004003, 0x0000707F⟩,
   ⟨.lhu, 0x00005003, 0x0000707F⟩]

/-- Store rows (R239 to R241). -/
def storeRows : List OpcodeRow :=
  [⟨.sb, 0x00000023, 0x0000707F⟩,
   ⟨.sh, 0x00001023, 0x0000707F⟩,
   ⟨.sw, 0x00002023, 0x0000707F⟩]

/-- Jump rows (R204, R205). -/
def jumpRows : List OpcodeRow :=
  [⟨.jal, 0x0000006F, 0x0000007F⟩,
   ⟨.jalr, 0x00000067, 0x0000707F⟩]

/-- Branch rows (R206 to R211). -/
def branchRows : List OpcodeRow :=
  [⟨.beq, 0x00000063, 0x0000707F⟩,
   ⟨.bne, 0x00001063, 0x0000707F⟩,
   ⟨.blt, 0x00004063, 0x0000707F⟩,
   ⟨.bge, 0x00005063, 0x0000707F⟩,
   ⟨.bltu, 0x00006063, 0x0000707F⟩,
   ⟨.bgeu, 0x00007063, 0x0000707F⟩]

/-- The opcode table, all 37 rows. -/
def opcodeTable : List OpcodeRow :=
  regRows ++ immRows ++ shiftRows ++ upperRows ++ loadRows ++ storeRows ++ jumpRows ++ branchRows

/-- `w & mask = match` (R107). -/
def OpcodeRow.admits (r : OpcodeRow) (w : Word) : Bool := w &&& r.mask == r.pattern

/-- The row a word matches, if any (R107). -/
def rowOf (w : Word) : Option OpcodeRow := opcodeTable.find? (·.admits w)

/-! ### Fields and immediates of a word (R103, R104) -/

/-- The value `v` standing at bit `lo` of an `n`-bit value. Concatenation (`++` of R103, R104) is the disjunction of
the parts, each at its place. -/
def placed (n : Nat) {k : Nat} (v : BitVec k) (lo : Nat) : BitVec n := v.setWidth n <<< lo

/-- `rd`, w[11:7]. -/
def fieldRd (w : Word) : RegIdx := (w.extractLsb' 7 5).toFin

/-- `rs1`, w[19:15]. -/
def fieldRs1 (w : Word) : RegIdx := (w.extractLsb' 15 5).toFin

/-- `rs2`, w[24:20]. -/
def fieldRs2 (w : Word) : RegIdx := (w.extractLsb' 20 5).toFin

/-- `shamt = w[24:20]` (R104). -/
def fieldShamt (w : Word) : BitVec 5 := w.extractLsb' 20 5

/-- The 12 bits of `immI`, w[31:20] (R104). -/
def fieldImmI (w : Word) : BitVec 12 := w.extractLsb' 20 12

/-- The 12 bits of `immS`, w[31:25] ++ w[11:7] (R104). -/
def fieldImmS (w : Word) : BitVec 12 :=
  placed 12 (w.extractLsb' 25 7) 5 ||| placed 12 (w.extractLsb' 7 5) 0

/-- The 20 bits of `immU`, w[31:12] (R104). -/
def fieldImmU (w : Word) : BitVec 20 := w.extractLsb' 12 20

/-- `immB = sext_32(w[31] ++ w[7] ++ w[30:25] ++ w[11:8] ++ 0b0)` (R104). -/
def immB (w : Word) : Word :=
  (placed 13 (w.extractLsb' 31 1) 12 ||| placed 13 (w.extractLsb' 7 1) 11 ||| placed 13 (w.extractLsb' 25 6) 5 |||
    placed 13 (w.extractLsb' 8 4) 1).signExtend 32

/-- `immJ = sext_32(w[31] ++ w[19:12] ++ w[20] ++ w[30:21] ++ 0b0)` (R104). -/
def immJ (w : Word) : Word :=
  (placed 21 (w.extractLsb' 31 1) 20 ||| placed 21 (w.extractLsb' 12 8) 12 ||| placed 21 (w.extractLsb' 20 1) 11 |||
    placed 21 (w.extractLsb' 21 10) 1).signExtend 32

/-- The record a word at address `p` stands for, given its row's mnemonic: the fields of R103, and
`target = p + immB` or `p + immJ` modulo 2^32 (R105). -/
def recordOf (m : Mnemonic) (p w : Word) : Instr :=
  match m with
  | .add => .add (fieldRd w) (fieldRs1 w) (fieldRs2 w)
  | .sub => .sub (fieldRd w) (fieldRs1 w) (fieldRs2 w)
  | .and => .and (fieldRd w) (fieldRs1 w) (fieldRs2 w)
  | .or => .or (fieldRd w) (fieldRs1 w) (fieldRs2 w)
  | .xor => .xor (fieldRd w) (fieldRs1 w) (fieldRs2 w)
  | .sll => .sll (fieldRd w) (fieldRs1 w) (fieldRs2 w)
  | .srl => .srl (fieldRd w) (fieldRs1 w) (fieldRs2 w)
  | .sra => .sra (fieldRd w) (fieldRs1 w) (fieldRs2 w)
  | .slt => .slt (fieldRd w) (fieldRs1 w) (fieldRs2 w)
  | .sltu => .sltu (fieldRd w) (fieldRs1 w) (fieldRs2 w)
  | .addi => .addi (fieldRd w) (fieldRs1 w) (fieldImmI w)
  | .andi => .andi (fieldRd w) (fieldRs1 w) (fieldImmI w)
  | .ori => .ori (fieldRd w) (fieldRs1 w) (fieldImmI w)
  | .xori => .xori (fieldRd w) (fieldRs1 w) (fieldImmI w)
  | .slti => .slti (fieldRd w) (fieldRs1 w) (fieldImmI w)
  | .sltiu => .sltiu (fieldRd w) (fieldRs1 w) (fieldImmI w)
  | .slli => .slli (fieldRd w) (fieldRs1 w) (fieldShamt w)
  | .srli => .srli (fieldRd w) (fieldRs1 w) (fieldShamt w)
  | .srai => .srai (fieldRd w) (fieldRs1 w) (fieldShamt w)
  | .lui => .lui (fieldRd w) (fieldImmU w)
  | .auipc => .auipc (fieldRd w) (fieldImmU w)
  | .lb => .lb (fieldRd w) (fieldRs1 w) (fieldImmI w)
  | .lh => .lh (fieldRd w) (fieldRs1 w) (fieldImmI w)
  | .lw => .lw (fieldRd w) (fieldRs1 w) (fieldImmI w)
  | .lbu => .lbu (fieldRd w) (fieldRs1 w) (fieldImmI w)
  | .lhu => .lhu (fieldRd w) (fieldRs1 w) (fieldImmI w)
  | .sb => .sb (fieldRs2 w) (fieldRs1 w) (fieldImmS w)
  | .sh => .sh (fieldRs2 w) (fieldRs1 w) (fieldImmS w)
  | .sw => .sw (fieldRs2 w) (fieldRs1 w) (fieldImmS w)
  | .jal => .jal (fieldRd w) (p + immJ w)
  | .jalr => .jalr (fieldRd w) (fieldRs1 w) (fieldImmI w)
  | .beq => .beq (fieldRs1 w) (fieldRs2 w) (p + immB w)
  | .bne => .bne (fieldRs1 w) (fieldRs2 w) (p + immB w)
  | .blt => .blt (fieldRs1 w) (fieldRs2 w) (p + immB w)
  | .bge => .bge (fieldRs1 w) (fieldRs2 w) (p + immB w)
  | .bltu => .bltu (fieldRs1 w) (fieldRs2 w) (p + immB w)
  | .bgeu => .bgeu (fieldRs1 w) (fieldRs2 w) (p + immB w)

/-- The reference decoder: total on 32-bit words, for a word standing at address `p` (R105, R107). -/
def decode (p w : Word) : Except DecodeError Instr :=
  match rowOf w with
  | some r => .ok (recordOf r.mnemonic p w)
  | none => .error .illegalWord

/-- Four bytes read as a little-endian word (R77). -/
def wordOfBytes (b0 b1 b2 b3 : Byte) : Word :=
  placed 32 b3 24 ||| placed 32 b2 16 ||| placed 32 b1 8 ||| placed 32 b0 0

/-- The four bytes of a word, the lowest address first (R77). -/
def bytesOfWord (w : Word) : List Byte :=
  [w.extractLsb' 0 8, w.extractLsb' 8 8, w.extractLsb' 16 8, w.extractLsb' 24 8]

/-- The decoder on bytes: the record at address `p` and the bytes after it. -/
def decodeBytes (p : Word) : List Byte → Except DecodeError (Instr × List Byte)
  | b0 :: b1 :: b2 :: b3 :: rest =>
    match decode p (wordOfBytes b0 b1 b2 b3) with
    | .ok i => .ok (i, rest)
    | .error e => .error e
  | _ => .error .truncated

/-- The instruction the decoder reads from the table's bits `w`, `nbits` of them, all bits above them 0. The
word is taken at address 0, where State.reset's program counter stands (log entry 9). -/
def decodeTableWord (nbits w : Nat) : Option Instr :=
  match decodeBytes 0 (bytesOfWord (BitVec.ofNat 32 (w % 2 ^ nbits))) with
  | .ok (i, _) => some i
  | .error _ => none

/-! ### The encoder (R103, R105) -/

/-- A register number's five bits. -/
def regBits (r : RegIdx) : BitVec 5 := BitVec.ofFin r

/-- R format: funct7, rs2, rs1, funct3, rd, opcode. -/
def wordR (funct7 : BitVec 7) (funct3 : BitVec 3) (opcode : BitVec 7) (rd rs1 rs2 : RegIdx) : Word :=
  placed 32 funct7 25 ||| placed 32 (regBits rs2) 20 ||| placed 32 (regBits rs1) 15 ||| placed 32 funct3 12 |||
    placed 32 (regBits rd) 7 ||| placed 32 opcode 0

/-- I format: imm[11:0], rs1, funct3, rd, opcode. -/
def wordI (funct3 : BitVec 3) (opcode : BitVec 7) (rd rs1 : RegIdx) (imm : BitVec 12) : Word :=
  placed 32 imm 20 ||| placed 32 (regBits rs1) 15 ||| placed 32 funct3 12 ||| placed 32 (regBits rd) 7 |||
    placed 32 opcode 0

/-- I-shift format: funct7, shamt, rs1, funct3, rd, opcode. -/
def wordShift (funct7 : BitVec 7) (funct3 : BitVec 3) (opcode : BitVec 7) (rd rs1 : RegIdx) (shamt : BitVec 5) : Word :=
  placed 32 funct7 25 ||| placed 32 shamt 20 ||| placed 32 (regBits rs1) 15 ||| placed 32 funct3 12 |||
    placed 32 (regBits rd) 7 ||| placed 32 opcode 0

/-- S format: imm[11:5], rs2, rs1, funct3, imm[4:0], opcode. -/
def wordS (funct3 : BitVec 3) (opcode : BitVec 7) (rs2 rs1 : RegIdx) (imm : BitVec 12) : Word :=
  placed 32 (imm.extractLsb' 5 7) 25 ||| placed 32 (regBits rs2) 20 ||| placed 32 (regBits rs1) 15 |||
    placed 32 funct3 12 ||| placed 32 (imm.extractLsb' 0 5) 7 ||| placed 32 opcode 0

/-- B format for a branch offset: imm[12], imm[10:5], rs2, rs1, funct3, imm[4:1], imm[11], opcode (R103). -/
def wordB (funct3 : BitVec 3) (opcode : BitVec 7) (rs1 rs2 : RegIdx) (offset : Word) : Word :=
  placed 32 (offset.extractLsb' 12 1) 31 ||| placed 32 (offset.extractLsb' 5 6) 25 ||| placed 32 (regBits rs2) 20 |||
    placed 32 (regBits rs1) 15 ||| placed 32 funct3 12 ||| placed 32 (offset.extractLsb' 1 4) 8 |||
    placed 32 (offset.extractLsb' 11 1) 7 ||| placed 32 opcode 0

/-- U format: imm[31:12], rd, opcode. -/
def wordU (opcode : BitVec 7) (rd : RegIdx) (imm : BitVec 20) : Word :=
  placed 32 imm 12 ||| placed 32 (regBits rd) 7 ||| placed 32 opcode 0

/-- J format for a jump offset: imm[20], imm[10:1], imm[11], imm[19:12], rd, opcode (R103). -/
def wordJ (opcode : BitVec 7) (rd : RegIdx) (offset : Word) : Word :=
  placed 32 (offset.extractLsb' 20 1) 31 ||| placed 32 (offset.extractLsb' 1 10) 21 |||
    placed 32 (offset.extractLsb' 11 1) 20 ||| placed 32 (offset.extractLsb' 12 8) 12 |||
    placed 32 (regBits rd) 7 ||| placed 32 opcode 0

/-- The reference word of a record standing at address `p` (R105, R108); a branch or `jal` word carries the offset
`target - p`. It is the record's word when
`i.hasWord p` (R106). -/
def encode (p : Word) (i : Instr) : Word :=
  match i with
  | .add rd rs1 rs2 => wordR 0b0000000#7 0b000#3 0b0110011#7 rd rs1 rs2
  | .sub rd rs1 rs2 => wordR 0b0100000#7 0b000#3 0b0110011#7 rd rs1 rs2
  | .and rd rs1 rs2 => wordR 0b0000000#7 0b111#3 0b0110011#7 rd rs1 rs2
  | .or rd rs1 rs2 => wordR 0b0000000#7 0b110#3 0b0110011#7 rd rs1 rs2
  | .xor rd rs1 rs2 => wordR 0b0000000#7 0b100#3 0b0110011#7 rd rs1 rs2
  | .sll rd rs1 rs2 => wordR 0b0000000#7 0b001#3 0b0110011#7 rd rs1 rs2
  | .srl rd rs1 rs2 => wordR 0b0000000#7 0b101#3 0b0110011#7 rd rs1 rs2
  | .sra rd rs1 rs2 => wordR 0b0100000#7 0b101#3 0b0110011#7 rd rs1 rs2
  | .slt rd rs1 rs2 => wordR 0b0000000#7 0b010#3 0b0110011#7 rd rs1 rs2
  | .sltu rd rs1 rs2 => wordR 0b0000000#7 0b011#3 0b0110011#7 rd rs1 rs2
  | .addi rd rs1 imm => wordI 0b000#3 0b0010011#7 rd rs1 imm
  | .andi rd rs1 imm => wordI 0b111#3 0b0010011#7 rd rs1 imm
  | .ori rd rs1 imm => wordI 0b110#3 0b0010011#7 rd rs1 imm
  | .xori rd rs1 imm => wordI 0b100#3 0b0010011#7 rd rs1 imm
  | .slti rd rs1 imm => wordI 0b010#3 0b0010011#7 rd rs1 imm
  | .sltiu rd rs1 imm => wordI 0b011#3 0b0010011#7 rd rs1 imm
  | .slli rd rs1 shamt => wordShift 0b0000000#7 0b001#3 0b0010011#7 rd rs1 shamt
  | .srli rd rs1 shamt => wordShift 0b0000000#7 0b101#3 0b0010011#7 rd rs1 shamt
  | .srai rd rs1 shamt => wordShift 0b0100000#7 0b101#3 0b0010011#7 rd rs1 shamt
  | .lui rd imm => wordU 0b0110111#7 rd imm
  | .auipc rd imm => wordU 0b0010111#7 rd imm
  | .lb rd rs1 imm => wordI 0b000#3 0b0000011#7 rd rs1 imm
  | .lh rd rs1 imm => wordI 0b001#3 0b0000011#7 rd rs1 imm
  | .lw rd rs1 imm => wordI 0b010#3 0b0000011#7 rd rs1 imm
  | .lbu rd rs1 imm => wordI 0b100#3 0b0000011#7 rd rs1 imm
  | .lhu rd rs1 imm => wordI 0b101#3 0b0000011#7 rd rs1 imm
  | .sb rs2 rs1 imm => wordS 0b000#3 0b0100011#7 rs2 rs1 imm
  | .sh rs2 rs1 imm => wordS 0b001#3 0b0100011#7 rs2 rs1 imm
  | .sw rs2 rs1 imm => wordS 0b010#3 0b0100011#7 rs2 rs1 imm
  | .jal rd target => wordJ 0b1101111#7 rd (target - p)
  | .jalr rd rs1 imm => wordI 0b000#3 0b1100111#7 rd rs1 imm
  | .beq rs1 rs2 target => wordB 0b000#3 0b1100011#7 rs1 rs2 (target - p)
  | .bne rs1 rs2 target => wordB 0b001#3 0b1100011#7 rs1 rs2 (target - p)
  | .blt rs1 rs2 target => wordB 0b100#3 0b1100011#7 rs1 rs2 (target - p)
  | .bge rs1 rs2 target => wordB 0b101#3 0b1100011#7 rs1 rs2 (target - p)
  | .bltu rs1 rs2 target => wordB 0b110#3 0b1100011#7 rs1 rs2 (target - p)
  | .bgeu rs1 rs2 target => wordB 0b111#3 0b1100011#7 rs1 rs2 (target - p)

end Sys2Proof
end

