-- ==== Sys2Proof/Machine/State.lean ====
section
/-! DEFINITION. Everything one instance of the block holds (10_state.md, first table), the two ways a step can
stop, and the state after reset (70_reset_and_hazards.md R344, R345). Plain data. -/

namespace Sys2Proof.Machine

/-- R49: the control status. -/
inductive Status where
  | standby
  | ready
  | running
  | executed
  deriving DecidableEq, Repr

/-- R55: whether the signed and the unsigned reading of each operand is meaningful (display only). -/
structure Markers where
  rdS  : Bool
  rdU  : Bool
  rs1S : Bool
  rs1U : Bool
  rs2S : Bool
  rs2U : Bool
  deriving DecidableEq, Repr

/-- The parameters of R7 an instance is created with, fixed while it lives: no instruction, no action and no reset
changes them (log entries 6, 7). -/
structure Params where
  /-- `ACCEPT_HEX_IMM` (R117). -/
  acceptHexImm : Bool
  /-- `EFFECT_SIGNEDNESS` (R55), as its entries that differ from the default table D14: any table is some such list. -/
  signedness : List (Mnemonic × Markers)
  deriving DecidableEq, Repr

/-- The defaults of R7: no hexadecimal immediate (D17), the table of D14. -/
def Params.default : Params := { acceptHexImm := false, signedness := [] }

/-- R53: the Effect one step emits. An absent register index (the spec's -1) is `none` (log entry 11). -/
structure Effect where
  index      : Nat
  jump       : Bool
  jumpTarget : Option Nat
  rd         : Option RegIdx
  rs1        : Option RegIdx
  rs2        : Option RegIdx
  markers    : Markers
  reads      : List Word
  writes     : List Word
  deriving DecidableEq, Repr

/-- The hardware has no fault state and no stuck state (60_exceptions.md R300, R303): no constructor, so that no
step can fault (log entry 13; safe). -/
inductive Fault where
  deriving DecidableEq, Repr

/-- Why a step is refused (R304). -/
inductive Refusal where
  /-- An arm of `exec` without a meaning; raised by no step of this model (safe). -/
  | notModelled (mnemonic : String)
  /-- Executing the padding slot (R304, D9); raised by the engine step (safe: the run stops where the block may go
  on). -/
  | paddingSlot
  /-- A word with no record was given to the loader of words (R107); raised by every step after such a load until
  STOP or RELOAD (safe). -/
  | illegalWord
  deriving DecidableEq, Repr

/-- One instance of the block. -/
structure State where
  /-- The instance's parameters (R7). -/
  params : Params
  /-- The instruction store, entry address and label table (R43). -/
  prog : Program
  /-- The register file (R30); read and written through `State.reg` and `State.setReg` only. -/
  x : Vector Word 32
  /-- The program counter (R37). -/
  pc : Word
  /-- The data memory (R51, R70): strictly rising addresses, no zero byte listed; an unlisted address reads 0 (R72). -/
  mem : List Host.Cell
  /-- The bases of the pages touched since the last reset (R51, R72, R73), strictly rising. -/
  pages : List Nat
  /-- The control status (R49). -/
  status : Status
  /-- The last RUN hit its deadline (R49). -/
  timedOut : Bool
  /-- The last load failed (R49). -/
  loadFailed : Bool
  /-- The retained Effect (R52). -/
  lastEffect : Option Effect
  /-- The refusal mark (R304). -/
  refused : Option Refusal
  deriving DecidableEq, Repr

/-- The state after reset: what creating an instance from an empty source at entry address 0 leaves (R340, R345;
the entry address and the absence of a program are the model's choice, log entry 3), with the default parameters. -/
def State.reset : State where
  params := Params.default
  prog := { instrs := [], entry := 0, labels := [] }
  x := Vector.replicate 32 0
  pc := 0
  mem := []
  pages := []
  status := .standby
  timedOut := false
  loadFailed := false
  lastEffect := none
  refused := none

end Sys2Proof.Machine
end

