-- ==== Sys2Proof/Machine/Ops.lean ====
section
/-! DEFINITION. The named operations every meaning is built from: the register file, the data memory and its page
bookkeeping, the continuation predicate, the reset sequence, and the end of an instruction. The hardware takes no
exception and returns from none (60_exceptions.md R300, R308, R309), so no such operation stands here. -/

namespace Sys2Proof.Machine

/-! ### Data memory (20_memory.md) -/

/-- The byte at an address; an address not listed reads 0 (R72). -/
def Memory.read : List Host.Cell → Nat → Byte
  | [], _ => 0#8
  | (b, v) :: m, a => if a = b then v else Memory.read m a

/-- The memory with byte `v` at address `a` (R73), in canonical form: writing 0 removes the entry. -/
def Memory.write : List Host.Cell → Nat → Byte → List Host.Cell
  | [], a, v => if v = 0#8 then [] else [(a, v)]
  | (b, u) :: m, a, v =>
    if a < b then (if v = 0#8 then (b, u) :: m else (a, v) :: (b, u) :: m)
    else if a = b then (if v = 0#8 then m else (a, v) :: m)
    else (b, u) :: Memory.write m a v

/-- The canonical form: addresses strictly rising and below 2^32 (R70), no zero byte listed. -/
abbrev Memory.wf (m : List Host.Cell) : Prop :=
  m.Pairwise (fun c d => c.1 < d.1) ∧ ∀ c ∈ m, c.1 < 0x100000000 ∧ c.2 ≠ 0#8

/-- The page base of an address: `a & 0xFFFFFF00` (R72, `PAGE_SIZE` = 256). -/
def pageBase (a : Word) : Nat := (a &&& 0xFFFFFF00).toNat

/-- A page base added to the touched-page set, if it is not there (R72). -/
def Pages.insert : List Nat → Nat → List Nat
  | [], b => [b]
  | c :: ps, b =>
    if b < c then b :: c :: ps
    else if b = c then c :: ps
    else c :: Pages.insert ps b

/-- The canonical form of the touched-page set: strictly rising page bases. -/
abbrev Pages.wf (ps : List Nat) : Prop :=
  ps.Pairwise (· < ·) ∧ ∀ b ∈ ps, b % 256 = 0 ∧ b < 0x100000000

/-- The byte at `a`, with no side effect: what `read(a)` returns (R72). -/
def State.byteAt (s : State) (a : Word) : Byte := Memory.read s.mem a.toNat

/-- The page of `a` is materialised (R72, R73). -/
def State.touch (s : State) (a : Word) : State := { s with pages := Pages.insert s.pages (pageBase a) }

/-- `read(a)` (R72): the byte, and the state with its page touched. -/
def State.readByte (s : State) (a : Word) : Byte × State := (s.byteAt a, s.touch a)

/-- `write(a, b)` (R73). -/
def State.writeByte (s : State) (a : Word) (b : Byte) : State :=
  { s.touch a with mem := Memory.write s.mem a.toNat b }

/-- `MemRead(A, n)` (R75): `n` bytes from `A` upwards modulo 2^32, little-endian, through `read`. -/
def State.memRead (s : State) (A : Word) : Nat → Word × State
  | 0 => (0#32, s)
  | n + 1 =>
    let (low, s1) := s.readByte A
    let (high, s2) := s1.memRead (A + 1) n
    (low.setWidth 32 ||| (high <<< 8), s2)

/-- `MemWrite(A, n, v)` (R76): the low `n` bytes of `v` from `A` upwards modulo 2^32, little-endian, through
`write`. -/
def State.memWrite (s : State) (A : Word) : Nat → Word → State
  | 0, _ => s
  | n + 1, v => (s.writeByte A (v.setWidth 8)).memWrite (A + 1) n (v >>> 8)

/-- The `n` byte addresses of an access at `A`, ascending, modulo 2^32 (R57). -/
def byteAddresses (A : Word) : Nat → List Word
  | 0 => []
  | n + 1 => A :: byteAddresses (A + 1) n

/-! ### Registers (10_state.md R32, R33) -/

/-- `x[i]`: register 0 reads 0 in every state (R32). -/
def State.reg (s : State) (r : RegIdx) : Word := if r = 0 then 0#32 else s.x[r]

/-- `x[i] <- v`: a write to register 0 is discarded (R33). -/
def State.setReg (s : State) (r : RegIdx) (v : Word) : State :=
  if r = 0 then s else { s with x := s.x.set r v }

/-! ### The Program and the continuation predicate (10_state.md R39, R43) -/

end Sys2Proof.Machine

namespace Sys2Proof

/-- `end = entry + 4*(count-1)` (R43). -/
def Program.endAddress (p : Program) : Word := p.entry + BitVec.ofNat 32 (4 * p.count) - 4

/-- R39 for an address: 4-aligned and within `[entry, end]`; false everywhere when `count = 0` (D8, log entry 17). -/
def Program.contains (p : Program) (a : Word) : Bool :=
  decide (p.count ≠ 0) && decide (a.toNat % 4 = 0) && decide (p.entry.toNat ≤ a.toNat) &&
    decide (a.toNat ≤ p.endAddress.toNat)

/-- `unsigned(a - entry) >>u 2` (R46). -/
def Program.slotNumber (p : Program) (a : Word) : Nat := ((a - p.entry) >>> 2).toNat

/-- The index of the slot a control transfer reaches: `(target - entry)/4`, absent when the target is not aligned
or not in range (R56). -/
def Program.jumpTarget (p : Program) (target : Word) : Option Nat :=
  if p.contains target then some (p.slotNumber target) else none

end Sys2Proof

namespace Sys2Proof.Machine

/-- The continuation predicate (R39). -/
def State.canStep (s : State) : Bool := s.prog.contains s.pc

/-- `idx` of the instruction at the program counter (R46). -/
def State.index (s : State) : Nat := s.prog.slotNumber s.pc

/-- The slot fetched at the program counter (R45, R46). Where `canStep` holds there is one; elsewhere, never
fetched by the sequencer, it reads as padding (log entry 19). -/
def State.fetch (s : State) : Slot := s.prog.instrs.getD s.index .pad

/-! ### The end of an instruction (R46) -/

/-- `pc <- next` and `lastEffect <- eff` (R46). -/
def State.retire (s : State) (next : Word) (e : Effect) : State :=
  { s with pc := next, lastEffect := some e }

/-! ### Reset (70_reset_and_hazards.md R344) -/

/-- The reset sequence ("Stop sequence"): everything but the parameters, the Program, `status` and `loadFailed` (R344). -/
def State.resetSequence (s : State) : State :=
  { s with
    pc := s.prog.entry
    x := Vector.replicate 32 0
    mem := []
    pages := []
    lastEffect := none
    timedOut := false
    refused := none }

end Sys2Proof.Machine
end

