-- ==== Sys2Proof/Machine/Operands.lean ====
section
/-! DEFINITION. The operand forms: sign-extended and upper immediates, shift amounts, the effective address. -/

namespace Sys2Proof.Machine

/-- `sext_32(imm12)` (40_integer.md section 3; R116). -/
def sext12 (imm : BitVec 12) : Word := imm.signExtend 32

/-- `imm20 << 12`: bits 31..12 are the immediate, bits 11..0 are 0 (R172). -/
def upper20 (imm : BitVec 20) : Word := imm.setWidth 32 <<< 12

/-- The amount of a register shift: the low 5 bits (R152). -/
def shiftAmount (v : Word) : Nat := (v.extractLsb' 0 5).toNat

/-- `A := x[rs1] + sext_32(imm12)` modulo 2^32 (R230); also the target of `jalr` (R205). -/
def State.effectiveAddress (s : State) (rs1 : RegIdx) (imm : BitVec 12) : Word := s.reg rs1 + sext12 imm

/-- The address after this instruction, modulo 2^32 (R40, R41): the next pc of every instruction that transfers no
control, and the link value of `jal` and `jalr` (R202). -/
def State.nextPc (s : State) : Word := s.pc + 4

/-- The low byte sign-extended (R233). -/
def sextByte (v : Word) : Word := (v.setWidth 8).signExtend 32

/-- The low halfword sign-extended (R234). -/
def sextHalf (v : Word) : Word := (v.setWidth 16).signExtend 32

/-- The low byte zero-extended (R236). -/
def zextByte (v : Word) : Word := (v.setWidth 8).setWidth 32

/-- The low halfword zero-extended (R237). -/
def zextHalf (v : Word) : Word := (v.setWidth 16).setWidth 32

end Sys2Proof.Machine
end

