-- ==== Sys2Proof/Machine/Flags.lean ====
section
/-! DEFINITION. The hardware has no status flags and no condition codes (10_state.md R47): a comparison delivers
its result to a register or to the program counter. Here stand those comparisons, and the Effect's
signed/unsigned markers, which no instruction reads (R55). -/

namespace Sys2Proof.Machine

/-- `a <s b` (R161, R208). -/
def ltSigned (a b : Word) : Bool := a.slt b

/-- `a <u b` (R162, R210). -/
def ltUnsigned (a b : Word) : Bool := a.ult b

/-- A comparison's result in a register: 1 or 0 (R161). -/
def boolWord (c : Bool) : Word := if c then 1 else 0

/-- No marker set: the markers of absent operands (R55). -/
def Markers.none : Markers := ⟨false, false, false, false, false, false⟩

/-- The default table of `EFFECT_SIGNEDNESS`, 92_eei_decisions.md D14 (R55), in the order rd S U, rs1 S U, rs2 S U. -/
def defaultMarkers : Mnemonic → Markers
  | .add | .sub => ⟨true, true, true, true, true, true⟩
  | .addi => ⟨true, true, true, true, false, false⟩
  | .and | .or | .xor => ⟨false, true, false, true, false, true⟩
  | .andi | .ori | .xori => ⟨false, true, false, true, false, false⟩
  | .sll | .srl => ⟨false, true, false, true, false, true⟩
  | .slli | .srli => ⟨false, true, false, true, false, false⟩
  | .sra => ⟨true, false, true, false, false, true⟩
  | .srai => ⟨true, false, true, false, false, false⟩
  | .slt => ⟨true, true, true, false, true, false⟩
  | .slti => ⟨true, true, true, false, false, false⟩
  | .sltu => ⟨true, true, false, true, false, true⟩
  | .sltiu => ⟨true, true, false, true, false, false⟩
  | .lui => ⟨true, true, false, false, false, false⟩
  | .auipc => ⟨false, true, false, false, false, false⟩
  | .lb | .lh => ⟨true, false, false, true, false, false⟩
  | .lbu | .lhu => ⟨false, true, false, true, false, false⟩
  | .lw => ⟨true, true, false, true, false, false⟩
  | .sb | .sh | .sw => ⟨false, false, false, true, true, true⟩
  | .beq | .bne => ⟨false, false, true, true, true, true⟩
  | .blt | .bge => ⟨false, false, true, false, true, false⟩
  | .bltu | .bgeu => ⟨false, false, false, true, false, true⟩
  | .jal => ⟨false, true, false, false, false, false⟩
  | .jalr => ⟨false, true, false, true, false, false⟩

/-- The markers a table may set, whatever `EFFECT_SIGNEDNESS` is (R55): those of the operands the mnemonic has (R54),
less the two entries the source fixes, the signed readings of the sources of `sltu` and the unsigned reading of the
result of `lb`. -/
def settableMarkers : Mnemonic → Markers
  | .add | .sub | .and | .or | .xor | .sll | .srl | .sra | .slt => ⟨true, true, true, true, true, true⟩
  | .sltu => ⟨true, true, false, true, false, true⟩
  | .addi | .andi | .ori | .xori | .slti | .sltiu | .slli | .srli | .srai => ⟨true, true, true, true, false, false⟩
  | .lb => ⟨true, false, true, true, false, false⟩
  | .lh | .lw | .lbu | .lhu | .jalr => ⟨true, true, true, true, false, false⟩
  | .lui | .auipc | .jal => ⟨true, true, false, false, false, false⟩
  | .sb | .sh | .sw | .beq | .bne | .blt | .bge | .bltu | .bgeu => ⟨false, false, true, true, true, true⟩

/-- The markers both sets have. -/
def Markers.both (a b : Markers) : Markers :=
  ⟨a.rdS && b.rdS, a.rdU && b.rdU, a.rs1S && b.rs1S, a.rs1U && b.rs1U, a.rs2S && b.rs2S, a.rs2U && b.rs2U⟩

/-- The markers of a mnemonic's Effect: the entry of `EFFECT_SIGNEDNESS`, which is the default table's unless the
instance's parameters give another (R55; log entry 6). -/
def Params.markers (p : Params) (m : Mnemonic) : Markers :=
  (settableMarkers m).both ((p.signedness.lookup m).getD (defaultMarkers m))

/-- The Effect of an instruction that transfers no control and touches no memory (R53, R54, R151). -/
def State.plainEffect (s : State) (m : Mnemonic) (rd rs1 rs2 : Option RegIdx) : Effect where
  index := s.index
  jump := false
  jumpTarget := none
  rd := rd
  rs1 := rs1
  rs2 := rs2
  markers := s.params.markers m
  reads := []
  writes := []

/-- The Effect of a jump or a taken branch to `target` (R56). -/
def State.jumpEffect (s : State) (m : Mnemonic) (rd rs1 rs2 : Option RegIdx) (target : Word) : Effect :=
  { s.plainEffect m rd rs1 rs2 with jump := true, jumpTarget := s.prog.jumpTarget target }

/-- R58: the terminal Effect of a RUN that reached its end: register fields, markers and touch lists cleared. -/
def Effect.cleared (e : Effect) : Effect :=
  { e with rd := none, rs1 := none, rs2 := none, markers := Markers.none, reads := [], writes := [] }

end Sys2Proof.Machine
end

