-- ==== Sys2Proof/Machine/Control.lean ====
section
/-! DEFINITION. The control transfer instructions (41_control_transfer.md): no delay slot, no alignment check (R200, R205). -/

namespace Sys2Proof.Machine

/-- A jump (R204, R205): the link `pc + 4` is written to `rd` and control goes to `target`, which was computed from
the state before (R35). -/
def State.jumpTo (s : State) (m : Mnemonic) (rd : RegIdx) (rs1 : Option RegIdx) (target : Word) : State :=
  (s.setReg rd s.nextPc).retire target (s.jumpEffect m (some rd) rs1 none target)

/-- A branch (41_control_transfer.md section 3): to `target` when taken, else to `pc + 4`. -/
def State.branchIf (s : State) (m : Mnemonic) (rs1 rs2 : RegIdx) (taken : Bool) (target : Word) : State :=
  if taken then s.retire target (s.jumpEffect m none (some rs1) (some rs2) target)
  else s.retire s.nextPc (s.plainEffect m none (some rs1) (some rs2))

/-- `jal rd, label` (R204). -/
def execJal (rd : RegIdx) (target : Word) (s : State) : Host.Outcome State Fault Refusal :=
  .next (s.jumpTo .jal rd none target)

/-- `jalr rd, offset(rs1)` (R205): no bit of the target is cleared (90_conflicts.md C2). -/
def execJalr (rd rs1 : RegIdx) (imm : BitVec 12) (s : State) : Host.Outcome State Fault Refusal :=
  .next (s.jumpTo .jalr rd (some rs1) (s.effectiveAddress rs1 imm))

/-- `beq rs1, rs2, label` (R206). -/
def execBeq (rs1 rs2 : RegIdx) (target : Word) (s : State) : Host.Outcome State Fault Refusal :=
  .next (s.branchIf .beq rs1 rs2 (s.reg rs1 == s.reg rs2) target)

/-- `bne rs1, rs2, label` (R207). -/
def execBne (rs1 rs2 : RegIdx) (target : Word) (s : State) : Host.Outcome State Fault Refusal :=
  .next (s.branchIf .bne rs1 rs2 (s.reg rs1 != s.reg rs2) target)

/-- `blt rs1, rs2, label` (R208). -/
def execBlt (rs1 rs2 : RegIdx) (target : Word) (s : State) : Host.Outcome State Fault Refusal :=
  .next (s.branchIf .blt rs1 rs2 (ltSigned (s.reg rs1) (s.reg rs2)) target)

/-- `bge rs1, rs2, label` (R209). -/
def execBge (rs1 rs2 : RegIdx) (target : Word) (s : State) : Host.Outcome State Fault Refusal :=
  .next (s.branchIf .bge rs1 rs2 (!ltSigned (s.reg rs1) (s.reg rs2)) target)

/-- `bltu rs1, rs2, label` (R210). -/
def execBltu (rs1 rs2 : RegIdx) (target : Word) (s : State) : Host.Outcome State Fault Refusal :=
  .next (s.branchIf .bltu rs1 rs2 (ltUnsigned (s.reg rs1) (s.reg rs2)) target)

/-- `bgeu rs1, rs2, label` (R211). -/
def execBgeu (rs1 rs2 : RegIdx) (target : Word) (s : State) : Host.Outcome State Fault Refusal :=
  .next (s.branchIf .bgeu rs1 rs2 (!ltUnsigned (s.reg rs1) (s.reg rs2)) target)

end Sys2Proof.Machine
end

