-- ==== Sys2Proof/Machine/Integer.lean ====
section
/-! DEFINITION. The integer computational instructions (40_integer.md): one meaning per instruction, each over `writeResult`. -/

namespace Sys2Proof.Machine

/-- What every instruction of 40_integer.md does with its result (R151): `rd` is written, the next pc is `pc + 4`,
no memory is accessed, the Effect is the plain one. The result is computed from the state before (R35). -/
def State.writeResult (s : State) (m : Mnemonic) (rd : RegIdx) (rs1 rs2 : Option RegIdx) (v : Word) : State :=
  (s.setReg rd v).retire s.nextPc (s.plainEffect m (some rd) rs1 rs2)

/-! ### Register-register -/

/-- `add rd, rs1, rs2` (R153). -/
def execAdd (rd rs1 rs2 : RegIdx) (s : State) : Host.Outcome State Fault Refusal :=
  .next (s.writeResult .add rd (some rs1) (some rs2) (s.reg rs1 + s.reg rs2))

/-- `sub rd, rs1, rs2` (R154). -/
def execSub (rd rs1 rs2 : RegIdx) (s : State) : Host.Outcome State Fault Refusal :=
  .next (s.writeResult .sub rd (some rs1) (some rs2) (s.reg rs1 - s.reg rs2))

/-- `and rd, rs1, rs2` (R155). -/
def execAnd (rd rs1 rs2 : RegIdx) (s : State) : Host.Outcome State Fault Refusal :=
  .next (s.writeResult .and rd (some rs1) (some rs2) (s.reg rs1 &&& s.reg rs2))

/-- `or rd, rs1, rs2` (R156). -/
def execOr (rd rs1 rs2 : RegIdx) (s : State) : Host.Outcome State Fault Refusal :=
  .next (s.writeResult .or rd (some rs1) (some rs2) (s.reg rs1 ||| s.reg rs2))

/-- `xor rd, rs1, rs2` (R157). -/
def execXor (rd rs1 rs2 : RegIdx) (s : State) : Host.Outcome State Fault Refusal :=
  .next (s.writeResult .xor rd (some rs1) (some rs2) (s.reg rs1 ^^^ s.reg rs2))

/-- `sll rd, rs1, rs2` (R158). -/
def execSll (rd rs1 rs2 : RegIdx) (s : State) : Host.Outcome State Fault Refusal :=
  .next (s.writeResult .sll rd (some rs1) (some rs2) (s.reg rs1 <<< shiftAmount (s.reg rs2)))

/-- `srl rd, rs1, rs2` (R159). -/
def execSrl (rd rs1 rs2 : RegIdx) (s : State) : Host.Outcome State Fault Refusal :=
  .next (s.writeResult .srl rd (some rs1) (some rs2) (s.reg rs1 >>> shiftAmount (s.reg rs2)))

/-- `sra rd, rs1, rs2` (R160). -/
def execSra (rd rs1 rs2 : RegIdx) (s : State) : Host.Outcome State Fault Refusal :=
  .next (s.writeResult .sra rd (some rs1) (some rs2) ((s.reg rs1).sshiftRight (shiftAmount (s.reg rs2))))

/-- `slt rd, rs1, rs2` (R161). -/
def execSlt (rd rs1 rs2 : RegIdx) (s : State) : Host.Outcome State Fault Refusal :=
  .next (s.writeResult .slt rd (some rs1) (some rs2) (boolWord (ltSigned (s.reg rs1) (s.reg rs2))))

/-- `sltu rd, rs1, rs2` (R162). -/
def execSltu (rd rs1 rs2 : RegIdx) (s : State) : Host.Outcome State Fault Refusal :=
  .next (s.writeResult .sltu rd (some rs1) (some rs2) (boolWord (ltUnsigned (s.reg rs1) (s.reg rs2))))

/-! ### Register-immediate -/

/-- `addi rd, rs1, imm` (R163). -/
def execAddi (rd rs1 : RegIdx) (imm : BitVec 12) (s : State) : Host.Outcome State Fault Refusal :=
  .next (s.writeResult .addi rd (some rs1) none (s.reg rs1 + sext12 imm))

/-- `andi rd, rs1, imm` (R164). -/
def execAndi (rd rs1 : RegIdx) (imm : BitVec 12) (s : State) : Host.Outcome State Fault Refusal :=
  .next (s.writeResult .andi rd (some rs1) none (s.reg rs1 &&& sext12 imm))

/-- `ori rd, rs1, imm` (R165). -/
def execOri (rd rs1 : RegIdx) (imm : BitVec 12) (s : State) : Host.Outcome State Fault Refusal :=
  .next (s.writeResult .ori rd (some rs1) none (s.reg rs1 ||| sext12 imm))

/-- `xori rd, rs1, imm` (R166). -/
def execXori (rd rs1 : RegIdx) (imm : BitVec 12) (s : State) : Host.Outcome State Fault Refusal :=
  .next (s.writeResult .xori rd (some rs1) none (s.reg rs1 ^^^ sext12 imm))

/-- `slti rd, rs1, imm` (R167). -/
def execSlti (rd rs1 : RegIdx) (imm : BitVec 12) (s : State) : Host.Outcome State Fault Refusal :=
  .next (s.writeResult .slti rd (some rs1) none (boolWord (ltSigned (s.reg rs1) (sext12 imm))))

/-- `sltiu rd, rs1, imm` (R168). -/
def execSltiu (rd rs1 : RegIdx) (imm : BitVec 12) (s : State) : Host.Outcome State Fault Refusal :=
  .next (s.writeResult .sltiu rd (some rs1) none (boolWord (ltUnsigned (s.reg rs1) (sext12 imm))))

/-! ### Shift-immediate -/

/-- `slli rd, rs1, shamt` (R169). -/
def execSlli (rd rs1 : RegIdx) (shamt : BitVec 5) (s : State) : Host.Outcome State Fault Refusal :=
  .next (s.writeResult .slli rd (some rs1) none (s.reg rs1 <<< shamt.toNat))

/-- `srli rd, rs1, shamt` (R170). -/
def execSrli (rd rs1 : RegIdx) (shamt : BitVec 5) (s : State) : Host.Outcome State Fault Refusal :=
  .next (s.writeResult .srli rd (some rs1) none (s.reg rs1 >>> shamt.toNat))

/-- `srai rd, rs1, shamt` (R171). -/
def execSrai (rd rs1 : RegIdx) (shamt : BitVec 5) (s : State) : Host.Outcome State Fault Refusal :=
  .next (s.writeResult .srai rd (some rs1) none ((s.reg rs1).sshiftRight shamt.toNat))

/-! ### Upper-immediate -/

/-- `lui rd, imm` (R172). -/
def execLui (rd : RegIdx) (imm : BitVec 20) (s : State) : Host.Outcome State Fault Refusal :=
  .next (s.writeResult .lui rd none none (upper20 imm))

/-- `auipc rd, imm` (R173): the pc is this instruction's own address (R38). -/
def execAuipc (rd : RegIdx) (imm : BitVec 20) (s : State) : Host.Outcome State Fault Refusal :=
  .next (s.writeResult .auipc rd none none (s.pc + upper20 imm))

end Sys2Proof.Machine
end

