-- ==== Sys2Proof/Machine/LoadStore.lean ====
section
/-! DEFINITION. The load and store instructions (42_load_store.md): base plus signed 12-bit offset, any address, no exception (R230, R231). -/

namespace Sys2Proof.Machine

/-- A load of `n` bytes (R232): `MemRead` at the effective address, its value extended and written to `rd`. The
read happens even when `rd` is `x0` (R238). -/
def State.load (s : State) (m : Mnemonic) (n : Nat) (extend : Word → Word) (rd rs1 : RegIdx) (imm : BitVec 12) : State :=
  let A := s.effectiveAddress rs1 imm
  let (v, s1) := s.memRead A n
  (s1.setReg rd (extend v)).retire s.nextPc
    { s.plainEffect m (some rd) (some rs1) none with reads := byteAddresses A n }

/-- A store of the low `n` bytes of `x[rs2]` at the effective address (R232). -/
def State.store (s : State) (m : Mnemonic) (n : Nat) (rs2 rs1 : RegIdx) (imm : BitVec 12) : State :=
  let A := s.effectiveAddress rs1 imm
  (s.memWrite A n (s.reg rs2)).retire s.nextPc
    { s.plainEffect m none (some rs1) (some rs2) with writes := byteAddresses A n }

/-- `lb rd, offset(rs1)` (R233). -/
def execLb (rd rs1 : RegIdx) (imm : BitVec 12) (s : State) : Host.Outcome State Fault Refusal :=
  .next (s.load .lb 1 sextByte rd rs1 imm)

/-- `lh rd, offset(rs1)` (R234). -/
def execLh (rd rs1 : RegIdx) (imm : BitVec 12) (s : State) : Host.Outcome State Fault Refusal :=
  .next (s.load .lh 2 sextHalf rd rs1 imm)

/-- `lw rd, offset(rs1)` (R235). -/
def execLw (rd rs1 : RegIdx) (imm : BitVec 12) (s : State) : Host.Outcome State Fault Refusal :=
  .next (s.load .lw 4 id rd rs1 imm)

/-- `lbu rd, offset(rs1)` (R236). -/
def execLbu (rd rs1 : RegIdx) (imm : BitVec 12) (s : State) : Host.Outcome State Fault Refusal :=
  .next (s.load .lbu 1 zextByte rd rs1 imm)

/-- `lhu rd, offset(rs1)` (R237). -/
def execLhu (rd rs1 : RegIdx) (imm : BitVec 12) (s : State) : Host.Outcome State Fault Refusal :=
  .next (s.load .lhu 2 zextHalf rd rs1 imm)

/-- `sb rs2, offset(rs1)` (R239). -/
def execSb (rs2 rs1 : RegIdx) (imm : BitVec 12) (s : State) : Host.Outcome State Fault Refusal :=
  .next (s.store .sb 1 rs2 rs1 imm)

/-- `sh rs2, offset(rs1)` (R240). -/
def execSh (rs2 rs1 : RegIdx) (imm : BitVec 12) (s : State) : Host.Outcome State Fault Refusal :=
  .next (s.store .sh 2 rs2 rs1 imm)

/-- `sw rs2, offset(rs1)` (R241). -/
def execSw (rs2 rs1 : RegIdx) (imm : BitVec 12) (s : State) : Host.Outcome State Fault Refusal :=
  .next (s.store .sw 4 rs2 rs1 imm)

end Sys2Proof.Machine
end

