-- ==== Sys2Proof/Machine/Assembler.lean ====
section
/-! DEFINITION. The assembler front-end (30_encoding.md section 4; 43_excluded.md): the admission check that turns
source text into instruction records, all or nothing. Where the rules leave the scanning of a line open, see log
entries 14 to 16. -/

namespace Sys2Proof.Machine

/-! ### Defects (R122) -/

/-- The defect kinds (R122). An unsupported instruction says whether its mnemonic is recognised, the one thing the
two messages of R119 distinguish. -/
inductive Defect where
  | syntaxError
  | unknownRegister
  | immediateOutOfRange
  | undefinedLabel
  | duplicateLabel
  | invalidLabelSyntax
  | unsupportedInstruction (recognised : Bool)
  deriving DecidableEq, Repr

/-- What the source supplier yields on a load: its lines, and the identifier a diagnostic names it by (R122, R358; log
entry 12). -/
structure Source where
  identifier : Text
  lines      : List Text
  deriving DecidableEq, Repr

/-- The triple the diagnostic sink receives for one defect: source identifier, line number and message, the message's
text standing as its defect kind, which is what a model compares (R122, R358; 93_implementation_defined.md row 25). -/
structure Diagnostic where
  source : Text
  line   : Nat
  defect : Defect
  deriving DecidableEq, Repr

/-- A checked part of a line: its value, or its defects, each its own (R122). -/
abbrev Checked (α : Type) := Except (List Defect) α

/-- Two parts of one line, checked independently: the defects of both are kept (R122, "never short-circuited"). -/
def bothChecked {α β : Type} (a : Checked α) (b : Checked β) : Checked (α × β) :=
  match a, b with
  | .ok x, .ok y => .ok (x, y)
  | .ok _, .error e => .error e
  | .error d, .ok _ => .error d
  | .error d, .error e => .error (d ++ e)

/-! ### Names (R112, R114, R265) -/

/-- `x0` .. `x31` (R112). -/
def numberedNames : List (Text × RegIdx) :=
  [("x0".toList, 0), ("x1".toList, 1), ("x2".toList, 2), ("x3".toList, 3), ("x4".toList, 4), ("x5".toList, 5), ("x6".toList, 6), ("x7".toList, 7),
   ("x8".toList, 8), ("x9".toList, 9), ("x10".toList, 10), ("x11".toList, 11), ("x12".toList, 12), ("x13".toList, 13), ("x14".toList, 14), ("x15".toList, 15),
   ("x16".toList, 16), ("x17".toList, 17), ("x18".toList, 18), ("x19".toList, 19), ("x20".toList, 20), ("x21".toList, 21), ("x22".toList, 22), ("x23".toList, 23),
   ("x24".toList, 24), ("x25".toList, 25), ("x26".toList, 26), ("x27".toList, 27), ("x28".toList, 28), ("x29".toList, 29), ("x30".toList, 30), ("x31".toList, 31)]

/-- The ABI names (R112; log entry 22); `s0` and `fp` both name register 8. -/
def abiNames : List (Text × RegIdx) :=
  [("zero".toList, 0), ("ra".toList, 1), ("sp".toList, 2), ("gp".toList, 3), ("tp".toList, 4), ("t0".toList, 5), ("t1".toList, 6),
   ("t2".toList, 7), ("s0".toList, 8), ("fp".toList, 8), ("s1".toList, 9), ("a0".toList, 10), ("a1".toList, 11), ("a2".toList, 12),
   ("a3".toList, 13), ("a4".toList, 14), ("a5".toList, 15), ("a6".toList, 16), ("a7".toList, 17), ("s2".toList, 18), ("s3".toList, 19),
   ("s4".toList, 20), ("s5".toList, 21), ("s6".toList, 22), ("s7".toList, 23), ("s8".toList, 24), ("s9".toList, 25), ("s10".toList, 26),
   ("s11".toList, 27), ("t3".toList, 28), ("t4".toList, 29), ("t5".toList, 30), ("t6".toList, 31)]

/-- Every register name and its number, matched exactly as written (R112, D18). -/
def registerNames : List (Text × RegIdx) := numberedNames ++ abiNames

/-- `LABEL_MAX` (R7, R110). -/
def labelMax : Nat := 4095

/-- `ra`, the link register (R115; log entry 22). -/
def linkRegister : RegIdx := 1

/-- The admitted mnemonics (R114). -/
def mnemonicNames : List (Text × Mnemonic) :=
  [("add".toList, .add), ("sub".toList, .sub), ("and".toList, .and), ("or".toList, .or), ("xor".toList, .xor), ("sll".toList, .sll), ("srl".toList, .srl), ("sra".toList, .sra), ("slt".toList, .slt), ("sltu".toList, .sltu),
   ("addi".toList, .addi), ("andi".toList, .andi), ("ori".toList, .ori), ("xori".toList, .xori), ("slti".toList, .slti), ("sltiu".toList, .sltiu),
   ("slli".toList, .slli), ("srli".toList, .srli), ("srai".toList, .srai),
   ("lui".toList, .lui), ("auipc".toList, .auipc),
   ("lb".toList, .lb), ("lh".toList, .lh), ("lw".toList, .lw), ("lbu".toList, .lbu), ("lhu".toList, .lhu),
   ("sb".toList, .sb), ("sh".toList, .sh), ("sw".toList, .sw),
   ("jal".toList, .jal), ("jalr".toList, .jalr),
   ("beq".toList, .beq), ("bne".toList, .bne), ("blt".toList, .blt), ("bge".toList, .bge), ("bltu".toList, .bltu), ("bgeu".toList, .bgeu)]

/-- The recognised-unsupported mnemonics (R260, R261, R262, R264, R265). -/
def recognisedUnsupported : List Text :=
  ["fence".toList, "fence.i".toList, "fence.tso".toList,
   "ecall".toList, "ebreak".toList,
   "csrrw".toList, "csrrs".toList, "csrrc".toList, "csrrwi".toList, "csrrsi".toList, "csrrci".toList,
   "mret".toList, "sret".toList, "uret".toList, "wfi".toList, "sfence.vma".toList]

/-! ### Operands (R112, R116, R117, R118) -/

/-- A register position (R112). -/
def registerOperand (t : Text) : Checked RegIdx :=
  match registerNames.lookup t with
  | some r => .ok r
  | none => .error [.unknownRegister]

/-- The value of a digit sequence. -/
def digitsValue (base : Nat) (value : Char → Nat) (ds : Text) : Nat := ds.foldl (fun n c => base * n + value c) 0

/-- One or more decimal digits (R117). -/
def decimalValue (ds : Text) : Option Nat :=
  if ds ≠ [] ∧ ds.all Char.isDigit then some (digitsValue 10 (fun c => c.toNat - '0'.toNat) ds) else none

/-- A hexadecimal digit. -/
def isHexDigit (c : Char) : Bool := c.isDigit || ('a' ≤ c && c ≤ 'f') || ('A' ≤ c && c ≤ 'F')

/-- The value of a hexadecimal digit. -/
def hexDigitValue (c : Char) : Nat :=
  if c.isDigit then c.toNat - '0'.toNat
  else if 'a' ≤ c then c.toNat - 'a'.toNat + 10
  else c.toNat - 'A'.toNat + 10

/-- `0x` or `0X` and one or more hexadecimal digits (R117). -/
def hexValue : Text → Option Nat
  | '0' :: x :: ds =>
    if (x = 'x' ∨ x = 'X') ∧ ds ≠ [] ∧ ds.all isHexDigit then some (digitsValue 16 hexDigitValue ds) else none
  | _ => none

/-- The unsigned part of an immediate literal (R117). -/
def naturalLiteral (hex : Bool) (t : Text) : Option Nat :=
  match decimalValue t with
  | some n => some n
  | none => if hex then hexValue t else none

/-- An immediate literal: an optional `-`, then digits (R117). -/
def integerLiteral (hex : Bool) : Text → Option Int
  | '-' :: ds => (naturalLiteral hex ds).map fun n => -(n : Int)
  | ds => (naturalLiteral hex ds).map fun n => (n : Int)

/-- An immediate position with the range `lo..hi` (R116): the integer value, or a defect. -/
def rangedLiteral (hex : Bool) (lo hi : Int) (t : Text) : Checked Int :=
  match integerLiteral hex t with
  | none => .error [.syntaxError]
  | some v => if lo ≤ v ∧ v ≤ hi then .ok v else .error [.immediateOutOfRange]

/-- `imm` of the I shape and `offset` of the load, S and JALR shapes: -2048..2047 (R116). -/
def imm12Operand (hex : Bool) (t : Text) : Checked (BitVec 12) :=
  (rangedLiteral hex (-2048) 2047 t).map (BitVec.ofInt 12)

/-- `shamt`: 0..31 (R116). -/
def shamtOperand (hex : Bool) (t : Text) : Checked (BitVec 5) :=
  (rangedLiteral hex 0 31 t).map (BitVec.ofInt 5)

/-- `imm` of the U shape: 0..1048575 (R116). -/
def imm20Operand (hex : Bool) (t : Text) : Checked (BitVec 20) :=
  (rangedLiteral hex 0 1048575 t).map (BitVec.ofInt 20)

/-- A label position: looked up in the label table, nothing else (R118). -/
def labelOperand (labels : List (Text × Word)) (t : Text) : Checked Word :=
  match labels.lookup t with
  | some a => .ok a
  | none => .error [.undefinedLabel]

/-- `offset(rs1)` (R114): the offset is required (D34). -/
def memoryOperand (hex : Bool) (t : Text) : Checked (BitVec 12 × RegIdx) :=
  match t.dropWhile (· ≠ '(') with
  | _ :: inner =>
    if inner.getLast? = some ')' ∧ inner.dropLast.all (fun c => c ≠ '(' && c ≠ ')') then
      bothChecked (imm12Operand hex (t.takeWhile (· ≠ '('))) (registerOperand inner.dropLast)
    else .error [.syntaxError]
  | [] => .error [.syntaxError]

/-! ### Operand shapes (R114, R115) -/

/-- Shape R: `rd,rs1,rs2`. -/
def shapeR (mk : RegIdx → RegIdx → RegIdx → Instr) : List Text → Checked Instr
  | [a, b, c] =>
    (bothChecked (registerOperand a) (bothChecked (registerOperand b) (registerOperand c))).map
      fun (rd, rs1, rs2) => mk rd rs1 rs2
  | _ => .error [.syntaxError]

/-- Shape I: `rd,rs1,imm`. -/
def shapeI (hex : Bool) (mk : RegIdx → RegIdx → BitVec 12 → Instr) : List Text → Checked Instr
  | [a, b, c] =>
    (bothChecked (registerOperand a) (bothChecked (registerOperand b) (imm12Operand hex c))).map
      fun (rd, rs1, imm) => mk rd rs1 imm
  | _ => .error [.syntaxError]

/-- Shape shift: `rd,rs1,shamt`. -/
def shapeShift (hex : Bool) (mk : RegIdx → RegIdx → BitVec 5 → Instr) : List Text → Checked Instr
  | [a, b, c] =>
    (bothChecked (registerOperand a) (bothChecked (registerOperand b) (shamtOperand hex c))).map
      fun (rd, rs1, shamt) => mk rd rs1 shamt
  | _ => .error [.syntaxError]

/-- Shape U: `rd,imm`. -/
def shapeU (hex : Bool) (mk : RegIdx → BitVec 20 → Instr) : List Text → Checked Instr
  | [a, b] => (bothChecked (registerOperand a) (imm20Operand hex b)).map fun (rd, imm) => mk rd imm
  | _ => .error [.syntaxError]

/-- Shapes load (`rd,offset(rs1)`) and S (`rs2,offset(rs1)`). -/
def shapeMem (hex : Bool) (mk : RegIdx → RegIdx → BitVec 12 → Instr) : List Text → Checked Instr
  | [a, b] =>
    (bothChecked (registerOperand a) (memoryOperand hex b)).map fun (r, imm, rs1) => mk r rs1 imm
  | _ => .error [.syntaxError]

/-- Shape B: `rs1,rs2,label`. -/
def shapeB (labels : List (Text × Word)) (mk : RegIdx → RegIdx → Word → Instr) : List Text → Checked Instr
  | [a, b, c] =>
    (bothChecked (registerOperand a) (bothChecked (registerOperand b) (labelOperand labels c))).map
      fun (rs1, rs2, target) => mk rs1 rs2 target
  | _ => .error [.syntaxError]

/-- Shape J: `rd,label` or `label`, `rd` being the link register when omitted (R115). -/
def shapeJ (labels : List (Text × Word)) (mk : RegIdx → Word → Instr) : List Text → Checked Instr
  | [a, b] => (bothChecked (registerOperand a) (labelOperand labels b)).map fun (rd, target) => mk rd target
  | [a] => (labelOperand labels a).map fun target => mk linkRegister target
  | _ => .error [.syntaxError]

/-- Shape JALR: `rd,offset(rs1)` or `offset(rs1)`, `rd` being the link register when omitted (R115). -/
def shapeJalr (hex : Bool) (mk : RegIdx → RegIdx → BitVec 12 → Instr) : List Text → Checked Instr
  | [a] => (memoryOperand hex a).map fun (imm, rs1) => mk linkRegister rs1 imm
  | ops => shapeMem hex mk ops

/-- The record of an admitted mnemonic and its operands (R114). -/
def assembleInstr (hex : Bool) (labels : List (Text × Word)) (m : Mnemonic) (ops : List Text) : Checked Instr :=
  match m with
  | .add => shapeR .add ops
  | .sub => shapeR .sub ops
  | .and => shapeR .and ops
  | .or => shapeR .or ops
  | .xor => shapeR .xor ops
  | .sll => shapeR .sll ops
  | .srl => shapeR .srl ops
  | .sra => shapeR .sra ops
  | .slt => shapeR .slt ops
  | .sltu => shapeR .sltu ops
  | .addi => shapeI hex .addi ops
  | .andi => shapeI hex .andi ops
  | .ori => shapeI hex .ori ops
  | .xori => shapeI hex .xori ops
  | .slti => shapeI hex .slti ops
  | .sltiu => shapeI hex .sltiu ops
  | .slli => shapeShift hex .slli ops
  | .srli => shapeShift hex .srli ops
  | .srai => shapeShift hex .srai ops
  | .lui => shapeU hex .lui ops
  | .auipc => shapeU hex .auipc ops
  | .lb => shapeMem hex .lb ops
  | .lh => shapeMem hex .lh ops
  | .lw => shapeMem hex .lw ops
  | .lbu => shapeMem hex .lbu ops
  | .lhu => shapeMem hex .lhu ops
  | .sb => shapeMem hex .sb ops
  | .sh => shapeMem hex .sh ops
  | .sw => shapeMem hex .sw ops
  | .jal => shapeJ labels .jal ops
  | .jalr => shapeJalr hex .jalr ops
  | .beq => shapeB labels .beq ops
  | .bne => shapeB labels .bne ops
  | .blt => shapeB labels .blt ops
  | .bge => shapeB labels .bge ops
  | .bltu => shapeB labels .bltu ops
  | .bgeu => shapeB labels .bgeu ops

/-! ### Lines (R109, R110, R111, R113) -/

/-- What a line holds: its leading label, and its mnemonic (lower-cased) with its operand text (whitespace
removed). A blank, comment-only or directive-only line has no body (R109, R111). -/
structure SourceLine where
  label : Option Text
  body  : Option (Text × Text)
  deriving DecidableEq, Repr

/-- The line up to its comment (R109). -/
def dropComment (t : Text) : Text := t.takeWhile fun c => c ≠ '#' && c ≠ ';'

/-- The line without leading whitespace. -/
def dropSpace (t : Text) : Text := t.dropWhile Char.isWhitespace

/-- A directive: a token in mnemonic position that begins with `.` and is not followed by `:` (R111). -/
def isDirective (token : Text) : Bool := token.head? == some '.' && !token.contains ':'

/-- The mnemonic and operand text after the label (R109, R113); none for a blank or directive-only rest. The mnemonic
ends at the first whitespace, the model's choice (log entry 14): `lw,x1` and `jalr(x1)` are each one token. -/
def parseBody (t : Text) : Option (Text × Text) :=
  let code := dropSpace t
  let token := code.takeWhile fun c => !c.isWhitespace
  if token = [] ∨ isDirective token then none
  else some (token.map Char.toLower, (code.dropWhile fun c => !c.isWhitespace).filter fun c => !c.isWhitespace)

/-- One line (R109): at most one leading label, which is a run of characters directly followed by `:`. -/
def parseLine (t : Text) : SourceLine :=
  let code := dropSpace (dropComment t)
  let inToken : Char → Bool := fun c => !c.isWhitespace && c ≠ ':'
  match code.dropWhile inToken with
  | ':' :: rest => { label := some (code.takeWhile inToken), body := parseBody rest }
  | _ => { label := none, body := parseBody code }

/-- A character a label may begin with (R110). -/
def isLabelStart (c : Char) : Bool := c.isAlpha || c == '_' || c == '.' || c == '$'

/-- The label syntax (R110). -/
def validLabel : Text → Bool
  | [] => false
  | c :: cs => isLabelStart c && cs.all (fun d => isLabelStart d || d.isDigit) && decide (cs.length + 1 ≤ labelMax)

/-- Operand text split at its commas (R113). -/
def splitCommas : Text → List Text
  | [] => [[]]
  | c :: cs =>
    if c = ',' then [] :: splitCommas cs
    else match splitCommas cs with
      | [] => [[c]]
      | t :: ts => (c :: t) :: ts

/-- The operands of a line; empty operand text has none. -/
def operandsOf (t : Text) : List Text := if t = [] then [] else splitCommas t

/-! ### The label table (R110, R123, R124) -/

/-- The labels defined, each with the number of instructions emitted before it: the slot it binds to (R123), which
is the padding slot when no instruction follows (R124). -/
def labelDefs : Nat → List SourceLine → List (Text × Nat)
  | _, [] => []
  | n, l :: ls =>
    let rest := labelDefs (if l.body.isSome then n + 1 else n) ls
    match l.label with
    | some name => if validLabel name then (name, n) :: rest else rest
    | none => rest

/-- The label table: label to `entry + 4*i` (R123, R118). -/
def labelTable (entry : Word) (ls : List SourceLine) : List (Text × Word) :=
  (labelDefs 0 ls).map fun (name, i) => (name, entry + BitVec.ofNat 32 (4 * i))

/-- Whether a label is still pending at end of input (R124). -/
def labelPending : Bool → List SourceLine → Bool
  | pending, [] => pending
  | pending, l :: ls => labelPending (!l.body.isSome && (pending || l.label.isSome)) ls

/-! ### Validation and assembly (R119, R122 to R126) -/

/-- A line's body: its record, or its defects (R114, R119); `hex` is `ACCEPT_HEX_IMM` (R117). -/
def checkBody (hex : Bool) (labels : List (Text × Word)) (mnemonic operands : Text) : Checked Instr :=
  match mnemonicNames.lookup mnemonic with
  | some m => assembleInstr hex labels m (operandsOf operands)
  | none => .error [.unsupportedInstruction (recognisedUnsupported.contains mnemonic)]

/-- A line's label defects, given the valid labels defined on earlier lines (R110, R125). -/
def labelDefects (seen : List Text) : Option Text → List Defect
  | none => []
  | some name =>
    if validLabel name then (if seen.contains name then [.duplicateLabel] else []) else [.invalidLabelSyntax]

/-- The labels a line adds to those seen. -/
def seenAfter (seen : List Text) : Option Text → List Text
  | none => seen
  | some name => if validLabel name then name :: seen else seen

/-- The outcome of the lines: every defect, with its source and line number, and every record (R122, R123). -/
structure Assembly where
  diagnostics : List Diagnostic
  records     : List Instr
  deriving DecidableEq, Repr

/-- Validation of the lines of source `src` from line number `n` on, in order (R122, R123). -/
def checkLines (hex : Bool) (src : Text) (labels : List (Text × Word)) : List Text → Nat → List SourceLine → Assembly
  | _, _, [] => ⟨[], []⟩
  | seen, n, l :: ls =>
    let rest := checkLines hex src labels (seenAfter seen l.label) (n + 1) ls
    let atLine := (labelDefects seen l.label).map (Diagnostic.mk src n)
    match l.body with
    | none => ⟨atLine ++ rest.diagnostics, rest.records⟩
    | some (m, ops) =>
      match checkBody hex labels m ops with
      | .ok i => ⟨atLine ++ rest.diagnostics, i :: rest.records⟩
      | .error ds => ⟨atLine ++ ds.map (Diagnostic.mk src n) ++ rest.diagnostics, rest.records⟩

/-- The Program the source stands for at `entry`, or every defect of the whole program (R126). -/
def assemble (hex : Bool) (entry : Word) (src : Source) : Except (List Diagnostic) Program :=
  let ls := src.lines.map parseLine
  let labels := labelTable entry ls
  let a := checkLines hex src.identifier labels [] 1 ls
  if a.diagnostics = [] then
    .ok { instrs := a.records.map Slot.instr ++ (if labelPending false ls then [Slot.pad] else [])
          entry := entry
          labels := labels }
  else .error a.diagnostics

end Sys2Proof.Machine
end

