-- ==== Sys2Proof/Machine/Loader.lean ====
section
/-! DEFINITION. Creating an instance and loading a program (70_reset_and_hazards.md R340 to R342), from source text
and, as a transport, from reference words (30_encoding.md R107). -/

namespace Sys2Proof.Machine

/-- Why a load failed: the source has defects (R126), or `end` would pass 0xFFFFFFFC (R341, `ProgramTooLarge`). -/
inductive LoadFailure where
  | invalid (diagnostics : List Diagnostic)
  | programTooLarge
  deriving DecidableEq, Repr

/-- R341: the entry address forced to a 4-byte boundary, then clamped below `entryMax`. -/
def normaliseEntry (entryMax entryAddress : Word) : Word :=
  let e := entryAddress &&& 0xFFFFFFFC
  if e.toNat > entryMax.toNat then entryMax &&& 0xFFFFFFFC else e

/-- R341: a Program whose `end` would pass 0xFFFFFFFC. -/
def tooLarge (p : Program) : Bool := decide (p.entry.toNat + 4 * p.count > 0x100000000)

/-- A failed load (R342): empty Program at the same entry, reset, `Standby`, `loadFailed`. -/
def State.failedLoad (s : State) : State :=
  { { s with prog := { instrs := [], entry := s.prog.entry, labels := [] } }.resetSequence with
    status := .standby
    loadFailed := true }

/-- A good load (R342): the Program, reset, `Ready`, or `Standby` when it has no slot (D8). -/
def State.goodLoad (s : State) (p : Program) : State :=
  { { s with prog := p }.resetSequence with
    status := if p.count = 0 then .standby else .ready
    loadFailed := false }

/-- `Load()` with what the source supplier yields now (R342). -/
def State.loadSource (s : State) (src : Source) : State × Option LoadFailure :=
  match assemble s.params.acceptHexImm s.prog.entry src with
  | .error ds => (s.failedLoad, some (.invalid ds))
  | .ok p => if tooLarge p then (s.failedLoad, some .programTooLarge) else (s.goodLoad p, none)

/-- `create(sourceLines, entryAddress)` of an instance with the given parameters (R7, R340). -/
def create (params : Params) (src : Source) (entryAddress : Word) : State × Option LoadFailure :=
  State.loadSource
    { State.reset with
      params := params
      prog := { instrs := [], entry := normaliseEntry Config.entryMax entryAddress, labels := [] } }
    src

/-- The records of words standing at `p`, `p + 4`, ...; none if one is illegal. -/
def decodeWords : Word → List Word → Option (List Instr)
  | _, [] => some []
  | p, w :: ws =>
    match decode p w, decodeWords (p + 4) ws with
    | .ok i, some is => some (i :: is)
    | _, _ => none

/-- A load of reference words at the instance's entry: an illegal word is refused at load with the reason
`IllegalWord` (R107, R304; log entry 9). -/
def State.loadWords (s : State) (ws : List Word) : State :=
  match decodeWords s.prog.entry ws with
  | none => { s.failedLoad with refused := some .illegalWord }
  | some is =>
    let p : Program := { instrs := is.map Slot.instr, entry := s.prog.entry, labels := [] }
    if tooLarge p then s.failedLoad else s.goodLoad p

end Sys2Proof.Machine
end

