-- ==== Sys2Proof/Machine/Engine.lean ====
section
/-! DEFINITION. The engine step (10_state.md R46), the sequencer's actions (70_reset_and_hazards.md R347 to R355)
and the placing of one word where the next step fetches it. -/

namespace Sys2Proof.Machine

/-! ### The engine step -/

/-- One step of the engine (R46), taken only while the continuation predicate holds (R303); the padding slot is
refused (R304). -/
def State.engineStep (s : State) : Host.Outcome State Fault Refusal :=
  if s.canStep then
    match s.fetch with
    | .instr i => exec i s
    | .pad => .refused .paddingSlot
  else .next s

/-! ### Actions (R347) -/

/-- The five actions (R355). -/
inductive ActionKind where
  | run
  | step
  | stop
  | reload
  | refresh
  deriving DecidableEq, Repr

/-- An action with what the outside decides: the number of steps a RUN makes before its deadline fires (R350; log
entry 5), what the source supplier yields at a RELOAD (R358; log entry 12). -/
inductive Action where
  | run (steps : Nat)
  | step
  | stop
  | reload (src : Source)
  | refresh
  deriving DecidableEq, Repr

/-- The kind of an action. -/
def Action.kind : Action → ActionKind
  | .run _ => .run
  | .step => .step
  | .stop => .stop
  | .reload _ => .reload
  | .refresh => .refresh

/-- The statuses in which RUN and STEP are enabled. -/
def Status.runs : Status → Bool
  | .ready | .running => true
  | .standby | .executed => false

/-- The enabled-action table (R347, D10). -/
def enabled : Status → ActionKind → Bool
  | st, .run => st.runs
  | st, .step => st.runs
  | .standby, .stop => false
  | .ready, .stop => true
  | .running, .stop => true
  | .executed, .stop => true
  | _, .reload => true
  | _, .refresh => true

/-- What the host gets back from an action (R355). -/
inductive Reply where
  /-- RUN, STEP, REFRESH: the retained Effect, if any. -/
  | effect (e : Option Effect)
  /-- STOP, RELOAD. -/
  | nothing
  /-- RUN or STEP met a refusal, or its mark was set (R347). -/
  | refusal (r : Refusal)
  /-- A disabled action, rejected by the boundary layer (R347). -/
  | rejected
  deriving DecidableEq, Repr

/-- An action's outcome: the state after it, the reply, and for a RELOAD why the load failed, if it did. -/
structure Handled where
  state   : State
  reply   : Reply
  failure : Option LoadFailure
  deriving DecidableEq, Repr

/-! ### STEP (R351) -/

/-- The status after a step of STEP: `Running` while a next instruction exists, else `Executed` (R351). -/
def State.settle (s : State) : State := { s with status := if s.canStep then .running else .executed }

/-- STEP (R351): the engine step exactly once. A set refusal mark is returned again with no step (R347). In a status
that disables STEP the state is unchanged (R347; log entry 1). -/
def State.stepOnce (s : State) : Host.Outcome State Fault Refusal :=
  match s.refused with
  | some r => .refused r
  | none =>
    if s.status.runs then
      match s.engineStep with
      | .next t => .next t.settle
      | .fault f => .fault f
      | .refused r => .refused r
    else .next s

/-- The state with the refusal mark set (R304). -/
def State.refuse (s : State) (r : Refusal) : State := { s with refused := some r }

/-- STEP as an action: a refused step sets the mark (R304). -/
def State.stepAction (s : State) : Handled :=
  match s.stepOnce with
  | .next t => ⟨t, .effect t.lastEffect, none⟩
  | .fault f => nomatch f
  | .refused r => ⟨s.refuse r, .refusal r, none⟩

/-! ### RUN (R348, R350) -/

/-- Natural termination: `Executed`, the terminal Effect cleared (R348, R58). -/
def State.terminate (s : State) : State :=
  { s with status := .executed, lastEffect := s.lastEffect.map Effect.cleared }

/-- The loop of RUN with `k` steps before the deadline fires (R348, R350). -/
def State.runLoop : Nat → State → Handled
  | 0, s =>
    if s.canStep then ⟨{ s with timedOut := true }, .effect s.lastEffect, none⟩
    else ⟨s.terminate, .effect s.terminate.lastEffect, none⟩
  | k + 1, s =>
    if s.canStep then
      match s.engineStep with
      | .next t => State.runLoop k { t with status := .running }
      | .fault f => nomatch f
      | .refused r => ⟨s.refuse r, .refusal r, none⟩
    else ⟨s.terminate, .effect s.terminate.lastEffect, none⟩

/-- RUN (R348): `timedOut` is cleared at its start, always. A set refusal mark is then returned again with no step
(R347; log entry 25). -/
def State.runAction (s : State) (k : Nat) : Handled :=
  match s.refused with
  | some r => ⟨{ s with timedOut := false }, .refusal r, none⟩
  | none => State.runLoop k { s with timedOut := false }

/-! ### STOP, RELOAD, REFRESH (R352 to R354) -/

/-- STOP (R352). -/
def State.stopAction (s : State) : Handled :=
  ⟨{ s.resetSequence with status := .ready }, .nothing, none⟩

/-- RELOAD (R353). -/
def State.reloadAction (s : State) (src : Source) : Handled :=
  ⟨(s.loadSource src).1, .nothing, (s.loadSource src).2⟩

/-- REFRESH (R354). -/
def State.refreshAction (s : State) : Handled := ⟨s, .effect s.lastEffect, none⟩

/-- `handle(action)` (R355): a disabled action is rejected and changes nothing (R347). -/
def State.handle (s : State) (a : Action) : Handled :=
  if enabled s.status a.kind then
    match a with
    | .run k => s.runAction k
    | .step => s.stepAction
    | .stop => s.stopAction
    | .reload src => s.reloadAction src
    | .refresh => s.refreshAction
  else ⟨s, .rejected, none⟩

/-! ### One word placed for the next step (log entry 9) -/

/-- The status, kept where it lets the engine run, else `Ready`. -/
def Status.orReady (st : Status) : Status := if st.runs then st else .ready

/-- The state whose next step runs the record of `w`: the record takes the slot at the program counter, or, where
none stands there, is the whole Program at the (aligned) program counter. A word with no record sets the refusal
mark `IllegalWord` (R107). -/
def State.placeWord (s : State) (w : Word) : State :=
  if s.canStep then
    match decodeBytes s.pc (bytesOfWord w) with
    | .ok (i, _) =>
      { s with
        prog := { s.prog with instrs := s.prog.instrs.set s.index (.instr i) }
        status := s.status.orReady
        refused := none }
    | .error _ => s.refuse .illegalWord
  else
    let p := s.pc &&& 0xFFFFFFFC
    match decodeBytes p (bytesOfWord w) with
    | .ok (i, _) =>
      { s with
        prog := { instrs := [.instr i], entry := p, labels := [] }
        pc := p
        status := s.status.orReady
        refused := none }
    | .error _ => s.refuse .illegalWord

end Sys2Proof.Machine
end

