-- ==== Sys2Proof/Machine/Surface.lean ====
section
/-! DEFINITION. What the host may read without changing state: the status surface (70_reset_and_hazards.md R356) and
the read surface (R357). No instruction reads any of it. -/

namespace Sys2Proof

namespace Machine

/-- The read-only status surface: the three control fields (10_state.md R49), the enabled actions and whether a STEP is
pending (R356). -/
structure StatusSurface where
  status         : Status
  enabledActions : List ActionKind
  loadFailed     : Bool
  timedOut       : Bool
  stepPending    : Bool
  deriving DecidableEq, Repr

/-- The actions enabled in a status (R347, R356). -/
def enabledActions (st : Status) : List ActionKind :=
  [ActionKind.run, .step, .stop, .reload, .refresh].filter (enabled st)

/-- The status surface of a state; "a STEP is pending" is `canStep` (R356, D28). -/
def State.statusSurface (s : State) : StatusSurface where
  status := s.status
  enabledActions := enabledActions s.status
  loadFailed := s.loadFailed
  timedOut := s.timedOut
  stepPending := s.canStep

/-- The register file as the host reads it (R357). -/
def State.registers (s : State) : List Word := (List.finRange 32).map s.reg

/-- The 256 bytes of a page, read without touching it (R357). -/
def State.pageBytes (s : State) (base : Nat) : List Byte := (List.range 256).map fun i => Memory.read s.mem (base + i)

/-- The touched pages and their bytes (R357). -/
def State.touchedPages (s : State) : List (Nat × List Byte) := s.pages.map fun b => (b, s.pageBytes b)

end Machine

/-- The Program's addresses, labels and records (R357): each slot with its address and the labels bound to it. -/
def Program.listing (p : Program) : List (Word × List Text × Slot) :=
  p.instrs.zipIdx.map fun (slot, i) =>
    (p.slotAddress i, (p.labels.filter fun l => l.2 == p.slotAddress i).map Prod.fst, slot)

end Sys2Proof
end

