-- ==== Sys2Proof/Machine/Step.lean ====
section
/-! DEFINITION. One step of the machine: the STEP action (70_reset_and_hazards.md R351; log entry 1). -/

namespace Sys2Proof.Machine

/-- One step: the engine executes exactly one instruction. -/
def step (s : State) : Host.Outcome State Fault Refusal := s.stepOnce

/-- The state with the instruction whose bits are `w` (`nbits` of them, the rest 0) where `step` fetches next. -/
def State.withFetchWord (s : State) (nbits w : Nat) : State := s.placeWord (BitVec.ofNat 32 (w % 2 ^ nbits))

end Sys2Proof.Machine
end

