-- ==== Sys2Proof/Safety.lean ====
section
/-! DEFINITION. The words the statements are made of: what an instruction reads and writes by class (10_state.md
R54), what it leaves as it was, the end of a run (60_exceptions.md R312), and the invariant of the block. -/

namespace Sys2Proof

/-- The register an instruction writes (R34, R54). -/
def Instr.destination : Instr → Option RegIdx
  | .add rd _ _ | .sub rd _ _ | .and rd _ _ | .or rd _ _ | .xor rd _ _ => some rd
  | .sll rd _ _ | .srl rd _ _ | .sra rd _ _ | .slt rd _ _ | .sltu rd _ _ => some rd
  | .addi rd _ _ | .andi rd _ _ | .ori rd _ _ | .xori rd _ _ | .slti rd _ _ | .sltiu rd _ _ => some rd
  | .slli rd _ _ | .srli rd _ _ | .srai rd _ _ => some rd
  | .lui rd _ | .auipc rd _ => some rd
  | .lb rd _ _ | .lh rd _ _ | .lw rd _ _ | .lbu rd _ _ | .lhu rd _ _ => some rd
  | .jal rd _ | .jalr rd _ _ => some rd
  | .sb _ _ _ | .sh _ _ _ | .sw _ _ _ => none
  | .beq _ _ _ | .bne _ _ _ | .blt _ _ _ | .bge _ _ _ | .bltu _ _ _ | .bgeu _ _ _ => none

/-- The first source register (R54). -/
def Instr.source1 : Instr → Option RegIdx
  | .add _ rs1 _ | .sub _ rs1 _ | .and _ rs1 _ | .or _ rs1 _ | .xor _ rs1 _ => some rs1
  | .sll _ rs1 _ | .srl _ rs1 _ | .sra _ rs1 _ | .slt _ rs1 _ | .sltu _ rs1 _ => some rs1
  | .addi _ rs1 _ | .andi _ rs1 _ | .ori _ rs1 _ | .xori _ rs1 _ | .slti _ rs1 _ | .sltiu _ rs1 _ => some rs1
  | .slli _ rs1 _ | .srli _ rs1 _ | .srai _ rs1 _ => some rs1
  | .lui _ _ | .auipc _ _ => none
  | .lb _ rs1 _ | .lh _ rs1 _ | .lw _ rs1 _ | .lbu _ rs1 _ | .lhu _ rs1 _ => some rs1
  | .sb _ rs1 _ | .sh _ rs1 _ | .sw _ rs1 _ => some rs1
  | .jal _ _ => none
  | .jalr _ rs1 _ => some rs1
  | .beq rs1 _ _ | .bne rs1 _ _ | .blt rs1 _ _ | .bge rs1 _ _ | .bltu rs1 _ _ | .bgeu rs1 _ _ => some rs1

/-- The second source register (R54). -/
def Instr.source2 : Instr → Option RegIdx
  | .add _ _ rs2 | .sub _ _ rs2 | .and _ _ rs2 | .or _ _ rs2 | .xor _ _ rs2 => some rs2
  | .sll _ _ rs2 | .srl _ _ rs2 | .sra _ _ rs2 | .slt _ _ rs2 | .sltu _ _ rs2 => some rs2
  | .addi _ _ _ | .andi _ _ _ | .ori _ _ _ | .xori _ _ _ | .slti _ _ _ | .sltiu _ _ _ => none
  | .slli _ _ _ | .srli _ _ _ | .srai _ _ _ => none
  | .lui _ _ | .auipc _ _ => none
  | .lb _ _ _ | .lh _ _ _ | .lw _ _ _ | .lbu _ _ _ | .lhu _ _ _ => none
  | .sb rs2 _ _ | .sh rs2 _ _ | .sw rs2 _ _ => some rs2
  | .jal _ _ | .jalr _ _ _ => none
  | .beq _ rs2 _ | .bne _ rs2 _ | .blt _ rs2 _ | .bge _ rs2 _ | .bltu _ rs2 _ | .bgeu _ rs2 _ => some rs2

/-- A load: its base register, offset and width in bytes (R81). -/
def Instr.loadAccess : Instr → Option (RegIdx × BitVec 12 × Nat)
  | .lb _ rs1 imm | .lbu _ rs1 imm => some (rs1, imm, 1)
  | .lh _ rs1 imm | .lhu _ rs1 imm => some (rs1, imm, 2)
  | .lw _ rs1 imm => some (rs1, imm, 4)
  | _ => none

/-- A store: its base register, offset and width in bytes (R81). -/
def Instr.storeAccess : Instr → Option (RegIdx × BitVec 12 × Nat)
  | .sb _ rs1 imm => some (rs1, imm, 1)
  | .sh _ rs1 imm => some (rs1, imm, 2)
  | .sw _ rs1 imm => some (rs1, imm, 4)
  | _ => none

/-- The instructions of 41_control_transfer.md. -/
def Instr.transfersControl : Instr → Bool
  | .jal _ _ | .jalr _ _ _ => true
  | .beq _ _ _ | .bne _ _ _ | .blt _ _ _ | .bge _ _ _ | .bltu _ _ _ | .bgeu _ _ _ => true
  | _ => false

/-- The record's reference word matches a row of the opcode table at every address (R107, R108). -/
abbrev Instr.InRow (i : Instr) (pattern mask : Word) : Prop := ∀ p, encode p i &&& mask = pattern

namespace Machine

/-! ### Frames -/

/-- Every register reads as before but `rd`, which reads `v`, unless it is register 0 (R32, R33). -/
abbrev RegsAfterWrite (s t : State) (rd : RegIdx) (v : Word) : Prop :=
  ∀ r, t.reg r = if r = rd ∧ r ≠ 0 then v else s.reg r

/-- Every register reads as before. -/
abbrev RegsKept (s t : State) : Prop := ∀ r, t.reg r = s.reg r

/-- Every byte of data memory reads as before, and no page is touched. -/
abbrev MemoryKept (s t : State) : Prop := (∀ a, t.byteAt a = s.byteAt a) ∧ t.pages = s.pages

/-- The pages after an access of `n` bytes at `A`: those before and those of its bytes (R72, R73). -/
abbrev PagesTouched (s t : State) (A : Word) (n : Nat) : Prop :=
  ∀ b, b ∈ t.pages ↔ b ∈ s.pages ∨ ∃ i, i < n ∧ b = pageBase (A + BitVec.ofNat 32 i)

/-- The Program, the parameters, the control status and the flags of the host are as before (R7, R43, R49, R304). -/
abbrev ControlKept (s t : State) : Prop :=
  t.prog = s.prog ∧ t.status = s.status ∧ t.timedOut = s.timedOut ∧ t.loadFailed = s.loadFailed ∧
  t.refused = s.refused ∧ t.params = s.params

/-- An instruction that writes `v` to `rd`, goes to `next` and changes nothing else but the retained Effect. -/
abbrev WritesRegister (s t : State) (rd : RegIdx) (v next : Word) : Prop :=
  RegsAfterWrite s t rd v ∧ t.pc = next ∧ MemoryKept s t ∧ ControlKept s t

/-- An instruction that loads `n` bytes from `A`, writes `v` to `rd` and changes nothing else but the retained
Effect and the touched pages. -/
abbrev LoadsRegister (s t : State) (rd : RegIdx) (v A : Word) (n : Nat) : Prop :=
  RegsAfterWrite s t rd v ∧ t.pc = s.pc + 4 ∧ (∀ a, t.byteAt a = s.byteAt a) ∧ PagesTouched s t A n ∧
  ControlKept s t

/-- An instruction that stores the low `n` bytes of `v` at `A`, little-endian (R76), and changes nothing else but
the retained Effect and the touched pages. -/
abbrev StoresBytes (s t : State) (v A : Word) (n : Nat) : Prop :=
  (∀ i, i < n → (t.byteAt (A + BitVec.ofNat 32 i)).toNat = v.toNat / 256 ^ i % 256) ∧
  (∀ a, (∀ i, i < n → a ≠ A + BitVec.ofNat 32 i) → t.byteAt a = s.byteAt a) ∧
  RegsKept s t ∧ t.pc = s.pc + 4 ∧ PagesTouched s t A n ∧ ControlKept s t

/-- An instruction that goes to `next` and changes nothing else but the retained Effect. -/
abbrev OnlyMovesPc (s t : State) (next : Word) : Prop :=
  RegsKept s t ∧ t.pc = next ∧ MemoryKept s t ∧ ControlKept s t

/-- The Effect the state retains satisfies `P`. -/
abbrev EffectIs (t : State) (P : Effect → Prop) : Prop := ∃ e, t.lastEffect = some e ∧ P e

/-- The effective address as integers: base plus signed offset, modulo 2^32 (R230). -/
abbrev AddressIs (A base : Word) (imm : BitVec 12) : Prop := (A.toNat : Int) = ((base.toNat : Int) + imm.toInt) % 2 ^ 32

/-! ### Runs -/

/-- R312: a run has ended. -/
abbrev State.ended (s : State) : Prop := s.canStep = false

/-- Memory, pages and register 0's cell as every operation keeps them; every listed byte stands in a touched page. -/
structure DataInv (s : State) : Prop where
  mem        : Memory.wf s.mem
  pages      : Pages.wf s.pages
  memInPages : ∀ c ∈ s.mem, c.1 / 256 * 256 ∈ s.pages
  zero       : s.x[0] = 0#32

/-- The invariant of the block: the data invariant, a well-formed Program (R43, R44, R102), the status agreeing with
the Program and the continuation predicate (R49, R351), and a refusal mark only at the padding slot (R304). -/
structure Inv (s : State) : Prop where
  data     : DataInv s
  prog     : s.prog.wf
  standby  : s.status = .standby ↔ s.prog.count = 0
  runs     : s.status.runs = true → s.canStep = true
  executed : s.status = .executed → s.canStep = false
  ready    : s.status = .ready → s.pc = s.prog.entry ∧ s.lastEffect = none
  refused  : ∀ r, s.refused = some r → r = .paddingSlot ∧ s.fetch = .pad ∧ s.status.runs = true

end Machine

end Sys2Proof
end

