-- ==== Sys2Proof/Certificates/Slice0/Obligations.lean ====
section
/-! DEFINITION. The statements for the provers. Each formalises rules of spec/ or a consequence of them; none is
about a program. -/

open Sys2Proof Sys2Proof.Machine

/-! ### Integer computational instructions (40_integer.md) -/

/-- R153, R154: the result modulo 2^32 for `add` and `sub`, and nothing else changes. -/
def Obligations.AddAndSubWrapModulo : Prop :=
  ∀ (rd rs1 rs2 : RegIdx) (s : State),
    (∃ t v, exec (.add rd rs1 rs2) s = .next t ∧ WritesRegister s t rd v (s.pc + 4) ∧
      v.toNat = ((s.reg rs1).toNat + (s.reg rs2).toNat) % 2 ^ 32) ∧
    (∃ t v, exec (.sub rd rs1 rs2) s = .next t ∧ WritesRegister s t rd v (s.pc + 4) ∧
      (v.toNat : Int) = ((s.reg rs1).toNat - (s.reg rs2).toNat : Int) % 2 ^ 32) ∧
    Instr.InRow (.add rd rs1 rs2) 0x00000033 0xFE00707F ∧
    Instr.InRow (.sub rd rs1 rs2) 0x40000033 0xFE00707F

/-- R155, R156, R157: `and`, `or`, `xor` bit by bit. -/
def Obligations.LogicalOperationsAreBitwise : Prop :=
  ∀ (rd rs1 rs2 : RegIdx) (s : State),
    (∃ t v, exec (.and rd rs1 rs2) s = .next t ∧ WritesRegister s t rd v (s.pc + 4) ∧
      ∀ k < 32, v.getLsbD k = ((s.reg rs1).getLsbD k && (s.reg rs2).getLsbD k)) ∧
    (∃ t v, exec (.or rd rs1 rs2) s = .next t ∧ WritesRegister s t rd v (s.pc + 4) ∧
      ∀ k < 32, v.getLsbD k = ((s.reg rs1).getLsbD k || (s.reg rs2).getLsbD k)) ∧
    (∃ t v, exec (.xor rd rs1 rs2) s = .next t ∧ WritesRegister s t rd v (s.pc + 4) ∧
      ∀ k < 32, v.getLsbD k = ((s.reg rs1).getLsbD k != (s.reg rs2).getLsbD k)) ∧
    Instr.InRow (.and rd rs1 rs2) 0x00007033 0xFE00707F ∧
    Instr.InRow (.or rd rs1 rs2) 0x00006033 0xFE00707F ∧
    Instr.InRow (.xor rd rs1 rs2) 0x00004033 0xFE00707F

/-- R158, R159, R160: the register shifts by the low 5 bits of `x[rs2]`, as arithmetic on integers. -/
def Obligations.RegisterShiftsUseLowFiveBits : Prop :=
  ∀ (rd rs1 rs2 : RegIdx) (s : State),
    (∃ t v, exec (.sll rd rs1 rs2) s = .next t ∧ WritesRegister s t rd v (s.pc + 4) ∧
      v.toNat = (s.reg rs1).toNat * 2 ^ ((s.reg rs2).toNat % 32) % 2 ^ 32) ∧
    (∃ t v, exec (.srl rd rs1 rs2) s = .next t ∧ WritesRegister s t rd v (s.pc + 4) ∧
      v.toNat = (s.reg rs1).toNat / 2 ^ ((s.reg rs2).toNat % 32)) ∧
    (∃ t v, exec (.sra rd rs1 rs2) s = .next t ∧ WritesRegister s t rd v (s.pc + 4) ∧
      v.toInt = (s.reg rs1).toInt / 2 ^ ((s.reg rs2).toNat % 32)) ∧
    Instr.InRow (.sll rd rs1 rs2) 0x00001033 0xFE00707F ∧
    Instr.InRow (.srl rd rs1 rs2) 0x00005033 0xFE00707F ∧
    Instr.InRow (.sra rd rs1 rs2) 0x40005033 0xFE00707F

/-- R161, R162: `slt` compares signed and `sltu` unsigned integers; `sltu` marks the signed readings unused. -/
def Obligations.RegisterComparesWriteZeroOrOne : Prop :=
  ∀ (rd rs1 rs2 : RegIdx) (s : State),
    (∃ t v, exec (.slt rd rs1 rs2) s = .next t ∧ WritesRegister s t rd v (s.pc + 4) ∧
      v.toNat = if (s.reg rs1).toInt < (s.reg rs2).toInt then 1 else 0) ∧
    (∃ t v, exec (.sltu rd rs1 rs2) s = .next t ∧ WritesRegister s t rd v (s.pc + 4) ∧
      (v.toNat = if (s.reg rs1).toNat < (s.reg rs2).toNat then 1 else 0) ∧
      EffectIs t fun e => e.markers.rs1S = false ∧ e.markers.rs2S = false) ∧
    Instr.InRow (.slt rd rs1 rs2) 0x00002033 0xFE00707F ∧
    Instr.InRow (.sltu rd rs1 rs2) 0x00003033 0xFE00707F

/-- R163: `addi` adds the signed immediate modulo 2^32. -/
def Obligations.AddImmediateWrapsModulo : Prop :=
  ∀ (rd rs1 : RegIdx) (imm : BitVec 12) (s : State),
    (∃ t v, exec (.addi rd rs1 imm) s = .next t ∧ WritesRegister s t rd v (s.pc + 4) ∧
      (v.toNat : Int) = (((s.reg rs1).toNat : Int) + imm.toInt) % 2 ^ 32) ∧
    Instr.InRow (.addi rd rs1 imm) 0x00000013 0x0000707F

/-- R164, R165, R166: `andi`, `ori`, `xori` bit by bit, bit 11 of the immediate standing in every bit above it. -/
def Obligations.LogicalImmediatesAreBitwise : Prop :=
  ∀ (rd rs1 : RegIdx) (imm : BitVec 12) (s : State),
    (∃ t v, exec (.andi rd rs1 imm) s = .next t ∧ WritesRegister s t rd v (s.pc + 4) ∧
      ∀ k < 32, v.getLsbD k = ((s.reg rs1).getLsbD k && imm.getLsbD (min k 11))) ∧
    (∃ t v, exec (.ori rd rs1 imm) s = .next t ∧ WritesRegister s t rd v (s.pc + 4) ∧
      ∀ k < 32, v.getLsbD k = ((s.reg rs1).getLsbD k || imm.getLsbD (min k 11))) ∧
    (∃ t v, exec (.xori rd rs1 imm) s = .next t ∧ WritesRegister s t rd v (s.pc + 4) ∧
      ∀ k < 32, v.getLsbD k = ((s.reg rs1).getLsbD k != imm.getLsbD (min k 11))) ∧
    Instr.InRow (.andi rd rs1 imm) 0x00007013 0x0000707F ∧
    Instr.InRow (.ori rd rs1 imm) 0x00006013 0x0000707F ∧
    Instr.InRow (.xori rd rs1 imm) 0x00004013 0x0000707F

/-- R167, R168: `slti` compares signed; `sltiu` compares unsigned after the sign extension. -/
def Obligations.ImmediateComparesWriteZeroOrOne : Prop :=
  ∀ (rd rs1 : RegIdx) (imm : BitVec 12) (s : State),
    (∃ t v, exec (.slti rd rs1 imm) s = .next t ∧ WritesRegister s t rd v (s.pc + 4) ∧
      v.toNat = if (s.reg rs1).toInt < imm.toInt then 1 else 0) ∧
    (∃ t v, exec (.sltiu rd rs1 imm) s = .next t ∧ WritesRegister s t rd v (s.pc + 4) ∧
      v.toNat = if ((s.reg rs1).toNat : Int) < imm.toInt % 2 ^ 32 then 1 else 0) ∧
    Instr.InRow (.slti rd rs1 imm) 0x00002013 0x0000707F ∧
    Instr.InRow (.sltiu rd rs1 imm) 0x00003013 0x0000707F

/-- R169, R170, R171: the immediate shifts as arithmetic on integers; an amount of 32 or more is refused at load. -/
def Obligations.ImmediateShiftsAreArithmetic : Prop :=
  ∀ (rd rs1 : RegIdx) (shamt : BitVec 5) (s : State),
    (∃ t v, exec (.slli rd rs1 shamt) s = .next t ∧ WritesRegister s t rd v (s.pc + 4) ∧
      v.toNat = (s.reg rs1).toNat * 2 ^ shamt.toNat % 2 ^ 32) ∧
    (∃ t v, exec (.srli rd rs1 shamt) s = .next t ∧ WritesRegister s t rd v (s.pc + 4) ∧
      v.toNat = (s.reg rs1).toNat / 2 ^ shamt.toNat) ∧
    (∃ t v, exec (.srai rd rs1 shamt) s = .next t ∧ WritesRegister s t rd v (s.pc + 4) ∧
      v.toInt = (s.reg rs1).toInt / 2 ^ shamt.toNat) ∧
    Instr.InRow (.slli rd rs1 shamt) 0x00001013 0xFE00707F ∧
    Instr.InRow (.srli rd rs1 shamt) 0x00005013 0xFE00707F ∧
    Instr.InRow (.srai rd rs1 shamt) 0x40005013 0xFE00707F ∧
    (∀ hex t v, integerLiteral hex t = some v → 32 ≤ v → shamtOperand hex t = .error [.immediateOutOfRange])

/-- R172, R173: `lui` and `auipc`. -/
def Obligations.UpperImmediatesShiftByTwelve : Prop :=
  ∀ (rd : RegIdx) (imm : BitVec 20) (s : State),
    (∃ t v, exec (.lui rd imm) s = .next t ∧ WritesRegister s t rd v (s.pc + 4) ∧
      v.toNat = imm.toNat * 4096) ∧
    (∃ t v, exec (.auipc rd imm) s = .next t ∧ WritesRegister s t rd v (s.pc + 4) ∧
      v.toNat = (s.pc.toNat + imm.toNat * 4096) % 2 ^ 32) ∧
    Instr.InRow (.lui rd imm) 0x00000037 0x0000007F ∧
    Instr.InRow (.auipc rd imm) 0x00000017 0x0000007F

/-! ### Loads and stores (42_load_store.md) -/

/-- R233, R236: `lb` sign-extends and `lbu` zero-extends the byte at the effective address. -/
def Obligations.ByteLoadsExtend : Prop :=
  ∀ (rd rs1 : RegIdx) (imm : BitVec 12) (s : State),
    AddressIs (s.effectiveAddress rs1 imm) (s.reg rs1) imm ∧
    (∃ t v, exec (.lb rd rs1 imm) s = .next t ∧ LoadsRegister s t rd v (s.effectiveAddress rs1 imm) 1 ∧
      v.toInt = (s.byteAt (s.effectiveAddress rs1 imm)).toInt ∧
      EffectIs t fun e => e.markers.rdU = false) ∧
    (∃ t v, exec (.lbu rd rs1 imm) s = .next t ∧ LoadsRegister s t rd v (s.effectiveAddress rs1 imm) 1 ∧
      v.toNat = (s.byteAt (s.effectiveAddress rs1 imm)).toNat) ∧
    Instr.InRow (.lb rd rs1 imm) 0x00000003 0x0000707F ∧
    Instr.InRow (.lbu rd rs1 imm) 0x00004003 0x0000707F

/-- R234, R237: `lh` sign-extends and `lhu` zero-extends the little-endian halfword, at any address. -/
def Obligations.HalfwordLoadsExtend : Prop :=
  ∀ (rd rs1 : RegIdx) (imm : BitVec 12) (s : State),
    let A := s.effectiveAddress rs1 imm
    let h := (s.byteAt A).toNat + 256 * (s.byteAt (A + 1)).toNat
    AddressIs A (s.reg rs1) imm ∧
    (∃ t v, exec (.lh rd rs1 imm) s = .next t ∧ LoadsRegister s t rd v A 2 ∧
      v.toInt = if h < 32768 then (h : Int) else (h : Int) - 65536) ∧
    (∃ t v, exec (.lhu rd rs1 imm) s = .next t ∧ LoadsRegister s t rd v A 2 ∧ v.toNat = h) ∧
    Instr.InRow (.lh rd rs1 imm) 0x00001003 0x0000707F ∧
    Instr.InRow (.lhu rd rs1 imm) 0x00005003 0x0000707F

/-- R235: `lw` reads the little-endian word, at any address. -/
def Obligations.WordLoadIsExact : Prop :=
  ∀ (rd rs1 : RegIdx) (imm : BitVec 12) (s : State),
    let A := s.effectiveAddress rs1 imm
    AddressIs A (s.reg rs1) imm ∧
    (∃ t v, exec (.lw rd rs1 imm) s = .next t ∧ LoadsRegister s t rd v A 4 ∧
      v.toNat = (s.byteAt A).toNat + 256 * (s.byteAt (A + 1)).toNat + 65536 * (s.byteAt (A + 2)).toNat +
        16777216 * (s.byteAt (A + 3)).toNat) ∧
    Instr.InRow (.lw rd rs1 imm) 0x00002003 0x0000707F

/-- R238: a load whose `rd` is `x0` still reads: its pages are touched and its Effect lists the bytes. -/
def Obligations.LoadIntoZeroStillReads : Prop :=
  ∀ (i : Instr) (rs1 : RegIdx) (imm : BitVec 12) (n : Nat) (s : State),
    i.loadAccess = some (rs1, imm, n) → i.destination = some 0 →
    ∃ t, exec i s = .next t ∧ RegsKept s t ∧ PagesTouched s t (s.reg rs1 + imm.signExtend 32) n ∧
      EffectIs t fun e => e.rd = some 0 ∧
        e.reads = (List.range n).map fun k => s.reg rs1 + imm.signExtend 32 + BitVec.ofNat 32 k

/-- R239, R240, R241: `sb`, `sh`, `sw` write the low 1, 2, 4 bytes of `x[rs2]` little-endian at the effective
address, at any address, and nothing else. The premise is the memory's canonical form, which every step keeps. -/
def Obligations.StoresWriteLowBytes : Prop :=
  ∀ (rs2 rs1 : RegIdx) (imm : BitVec 12) (s : State), Memory.wf s.mem →
    AddressIs (s.effectiveAddress rs1 imm) (s.reg rs1) imm ∧
    (∃ t, exec (.sb rs2 rs1 imm) s = .next t ∧ StoresBytes s t (s.reg rs2) (s.effectiveAddress rs1 imm) 1) ∧
    (∃ t, exec (.sh rs2 rs1 imm) s = .next t ∧ StoresBytes s t (s.reg rs2) (s.effectiveAddress rs1 imm) 2) ∧
    (∃ t, exec (.sw rs2 rs1 imm) s = .next t ∧ StoresBytes s t (s.reg rs2) (s.effectiveAddress rs1 imm) 4) ∧
    Instr.InRow (.sb rs2 rs1 imm) 0x00000023 0x0000707F ∧
    Instr.InRow (.sh rs2 rs1 imm) 0x00001023 0x0000707F ∧
    Instr.InRow (.sw rs2 rs1 imm) 0x00002023 0x0000707F

/-- 42_load_store.md R235, 20_memory.md R78: a word stored is loaded back whole, and each of its halves and bytes
alone, from the same address plus the offset of the part. -/
def Obligations.StoredWordLoadsBack : Prop :=
  ∀ (rd rs2 rs1 : RegIdx) (imm : BitVec 12) (s t : State), Memory.wf s.mem → rd ≠ 0 →
    exec (.sw rs2 rs1 imm) s = .next t →
    (∃ u, exec (.lw rd rs1 imm) t = .next u ∧ u.reg rd = s.reg rs2) ∧
    (∃ u, exec (.lhu rd rs1 imm) t = .next u ∧ (u.reg rd).toNat = (s.reg rs2).toNat % 65536) ∧
    (∃ u, exec (.lbu rd rs1 imm) t = .next u ∧ (u.reg rd).toNat = (s.reg rs2).toNat % 256) ∧
    (t.memRead (s.effectiveAddress rs1 imm + 2) 2).1.toNat = (s.reg rs2).toNat / 65536 ∧
    (t.memRead (s.effectiveAddress rs1 imm + 1) 1).1.toNat = (s.reg rs2).toNat / 256 % 256

/-! ### Control transfer (41_control_transfer.md) -/

/-- R204, R205: `jal` and `jalr` link `pc + 4` and go to their target, which no check and no mask changes; the
Effect names the target's slot when it is one; a target that is the padding slot makes the next engine step a
refusal, and a `jalr` target that is misaligned or out of range ends the run; an omitted `rd` is `ra`; the `jal` word
carries `target - pc`. -/
def Obligations.JumpsLinkAndGoToTarget : Prop :=
  ∀ (rd rs1 : RegIdx) (target : Word) (imm : BitVec 12) (s : State),
    (∃ t, exec (.jal rd target) s = .next t ∧ WritesRegister s t rd (s.pc + 4) target ∧
      (EffectIs t fun e => e.jump = true ∧ e.jumpTarget =
        if s.prog.contains target then some ((target.toNat - s.prog.entry.toNat) / 4) else none) ∧
      (t.canStep = true → t.fetch = .pad → t.engineStep = .refused .paddingSlot)) ∧
    (∃ t a, exec (.jalr rd rs1 imm) s = .next t ∧ AddressIs a (s.reg rs1) imm ∧
      WritesRegister s t rd (s.pc + 4) a ∧
      (EffectIs t fun e => e.jump = true ∧ e.jumpTarget =
        if s.prog.contains a then some ((a.toNat - s.prog.entry.toNat) / 4) else none) ∧
      (s.prog.contains a = false → t.ended)) ∧
    Instr.InRow (.jal rd target) 0x0000006F 0x0000007F ∧
    Instr.InRow (.jalr rd rs1 imm) 0x00000067 0x0000707F ∧
    (∀ p, fitsJal p target = true → immJ (encode p (.jal rd target)) = target - p) ∧
    (∀ hex labels name, labels.lookup name = some target →
      assembleInstr hex labels .jal [name] = .ok (.jal 1 target)) ∧
    (∀ hex labels operand, memoryOperand hex operand = .ok (imm, rs1) →
      assembleInstr hex labels .jalr [operand] = .ok (.jalr 1 rs1 imm))

/-- R206, R207: `beq` and `bne`. -/
def Obligations.EqualityBranches : Prop :=
  ∀ (rs1 rs2 : RegIdx) (target : Word) (s : State),
    (∃ t, exec (.beq rs1 rs2 target) s = .next t ∧
      OnlyMovesPc s t (if (s.reg rs1).toNat = (s.reg rs2).toNat then target else s.pc + 4) ∧
      EffectIs t fun e => e.jump = decide ((s.reg rs1).toNat = (s.reg rs2).toNat)) ∧
    (∃ t, exec (.bne rs1 rs2 target) s = .next t ∧
      OnlyMovesPc s t (if (s.reg rs1).toNat ≠ (s.reg rs2).toNat then target else s.pc + 4) ∧
      EffectIs t fun e => e.jump = decide ((s.reg rs1).toNat ≠ (s.reg rs2).toNat)) ∧
    Instr.InRow (.beq rs1 rs2 target) 0x00000063 0x0000707F ∧
    Instr.InRow (.bne rs1 rs2 target) 0x00001063 0x0000707F

/-- R208, R209, R210, R211: `blt` and `bge` compare signed integers, `bltu` and `bgeu` unsigned ones. -/
def Obligations.OrderingBranches : Prop :=
  ∀ (rs1 rs2 : RegIdx) (target : Word) (s : State),
    (∃ t, exec (.blt rs1 rs2 target) s = .next t ∧
      OnlyMovesPc s t (if (s.reg rs1).toInt < (s.reg rs2).toInt then target else s.pc + 4) ∧
      EffectIs t fun e => e.jump = decide ((s.reg rs1).toInt < (s.reg rs2).toInt)) ∧
    (∃ t, exec (.bge rs1 rs2 target) s = .next t ∧
      OnlyMovesPc s t (if (s.reg rs1).toInt ≥ (s.reg rs2).toInt then target else s.pc + 4) ∧
      EffectIs t fun e => e.jump = decide ((s.reg rs1).toInt ≥ (s.reg rs2).toInt)) ∧
    (∃ t, exec (.bltu rs1 rs2 target) s = .next t ∧
      OnlyMovesPc s t (if (s.reg rs1).toNat < (s.reg rs2).toNat then target else s.pc + 4) ∧
      EffectIs t fun e => e.jump = decide ((s.reg rs1).toNat < (s.reg rs2).toNat)) ∧
    (∃ t, exec (.bgeu rs1 rs2 target) s = .next t ∧
      OnlyMovesPc s t (if (s.reg rs1).toNat ≥ (s.reg rs2).toNat then target else s.pc + 4) ∧
      EffectIs t fun e => e.jump = decide ((s.reg rs1).toNat ≥ (s.reg rs2).toNat)) ∧
    Instr.InRow (.blt rs1 rs2 target) 0x00004063 0x0000707F ∧
    Instr.InRow (.bge rs1 rs2 target) 0x00005063 0x0000707F ∧
    Instr.InRow (.bltu rs1 rs2 target) 0x00006063 0x0000707F ∧
    Instr.InRow (.bgeu rs1 rs2 target) 0x00007063 0x0000707F

/-! ### Whole-machine rules over all instructions -/

/-- 60_exceptions.md section 1 (R300, R303): every instruction completes in every state, with no fault and no
refusal. -/
def Obligations.EveryInstructionCompletes : Prop :=
  ∀ (i : Instr) (s : State), ∃ t, exec i s = .next t ∧ EffectIs t fun e => e.index = s.index

/-- 10_state.md R43, R45, R49, 20_memory.md R90: no instruction changes the instruction store, the entry, the label
table, the parameters (R7) or the control state of the block. -/
def Obligations.NoInstructionChangesProgramOrControl : Prop :=
  ∀ (i : Instr) (s t : State), exec i s = .next t → ControlKept s t

/-- 10_state.md R34: an instruction writes no register but its destination; stores and branches write none. -/
def Obligations.OnlyTheDestinationIsWritten : Prop :=
  ∀ (i : Instr) (s t : State), exec i s = .next t → ∀ r, i.destination ≠ some r → t.reg r = s.reg r

/-- 20_memory.md R81, R83: only stores change data memory, and only the bytes of their access; only loads and
stores touch pages. -/
def Obligations.OnlyAccessesReachMemory : Prop :=
  ∀ (i : Instr) (s t : State), Memory.wf s.mem → exec i s = .next t →
    (∀ a, t.byteAt a ≠ s.byteAt a → ∃ rs1 imm n k, i.storeAccess = some (rs1, imm, n) ∧ k < n ∧
      a = s.effectiveAddress rs1 imm + BitVec.ofNat 32 k) ∧
    (i.loadAccess = none → i.storeAccess = none → t.pages = s.pages)

/-- 10_state.md R40: the next program counter by class. -/
def Obligations.NextPcByClass : Prop :=
  ∀ (i : Instr) (s t : State), exec i s = .next t →
    (i.transfersControl = false → t.pc = s.pc + 4) ∧
    (t.pc = s.pc + 4 ∨ i.target = some t.pc ∨
      ∃ rd rs1 imm, i = .jalr rd rs1 imm ∧ t.pc = s.reg rs1 + imm.signExtend 32)

/-- 41_control_transfer.md R201: in a well-formed Program `jal` and a taken branch land in the Program; only `jalr`
and the instruction at `end` can make the continuation predicate false. -/
def Obligations.OnlyJalrAndTheLastSlotLeaveTheProgram : Prop :=
  ∀ (i : Instr) (s t : State), s.prog.wf → s.canStep = true → s.fetch = .instr i → exec i s = .next t →
    (i.target = some t.pc → t.canStep = true) ∧
    (t.canStep = false → (∃ rd rs1 imm, i = .jalr rd rs1 imm) ∨
      (s.pc.toNat + 4 = s.prog.entry.toNat + 4 * s.prog.count ∧ t.pc = s.pc + 4))

/-- 10_state.md R49, R52, R55: an instruction reads the Program, the registers, the program counter and the memory
alone: two states that agree on these give the same registers, program counter and memory, whatever their parameters,
and the same Effect when they agree on EFFECT_SIGNEDNESS too. -/
def Obligations.NoInstructionReadsHostState : Prop :=
  ∀ (i : Instr) (s s' t t' : State), s.prog = s'.prog → s.x = s'.x → s.pc = s'.pc → s.mem = s'.mem →
    exec i s = .next t → exec i s' = .next t' →
    t.prog = t'.prog ∧ t.x = t'.x ∧ t.pc = t'.pc ∧ t.mem = t'.mem ∧
    (s.params.signedness = s'.params.signedness → t.lastEffect = t'.lastEffect)

/-- R54: the register index fields of the Effect, by class. -/
def Obligations.EffectRegisterFields : Prop :=
  ∀ (i : Instr) (s t : State), exec i s = .next t →
    EffectIs t fun e => e.rd = i.destination ∧ e.rs1 = i.source1 ∧ e.rs2 = i.source2

/-- 10_state.md R55: whatever EFFECT_SIGNEDNESS the instance has, the markers of an absent operand are false, `sltu`
marks the signed readings of its sources unused and `lb` the unsigned reading of its result; with the default parameters
the markers are those of table D14, and an entry of the instance's own is its Effect's, as far as those rules let it
(how a table is held is the model's, notes/assumptions/6.md). -/
def Obligations.EffectMarkers : Prop :=
  ∀ (i : Instr) (s t : State), exec i s = .next t →
    EffectIs t fun e =>
      (e.rd = none → e.markers.rdS = false ∧ e.markers.rdU = false) ∧
      (e.rs1 = none → e.markers.rs1S = false ∧ e.markers.rs1U = false) ∧
      (e.rs2 = none → e.markers.rs2S = false ∧ e.markers.rs2U = false) ∧
      (i.mnemonic = .sltu → e.markers.rs1S = false ∧ e.markers.rs2S = false) ∧
      (i.mnemonic = .lb → e.markers.rdU = false) ∧
      (s.params = Params.default → e.markers = defaultMarkers i.mnemonic) ∧
      (∀ m, s.params.signedness.lookup i.mnemonic = some m → e.markers = (settableMarkers i.mnemonic).both m)

/-- R56: the jump flag and the jump-target index. -/
def Obligations.EffectJumpFields : Prop :=
  ∀ (i : Instr) (s t : State), exec i s = .next t →
    EffectIs t fun e =>
      (i.transfersControl = false → e.jump = false) ∧
      (i.transfersControl = true → i.source2 = none → e.jump = true) ∧
      (e.jump = false → t.pc = s.pc + 4) ∧
      e.jumpTarget = if e.jump && s.prog.contains t.pc then some ((t.pc.toNat - s.prog.entry.toNat) / 4) else none

/-- R57: the touched-address lists. -/
def Obligations.EffectTouchedAddresses : Prop :=
  ∀ (i : Instr) (s t : State), exec i s = .next t →
    EffectIs t fun e =>
      e.reads = (match i.loadAccess with
        | some (rs1, imm, n) => (List.range n).map fun k => s.reg rs1 + imm.signExtend 32 + BitVec.ofNat 32 k
        | none => []) ∧
      e.writes = (match i.storeAccess with
        | some (rs1, imm, n) => (List.range n).map fun k => s.reg rs1 + imm.signExtend 32 + BitVec.ofNat 32 k
        | none => [])

/-- 20_memory.md R72, R73, R74: the pages after an instruction are those before and those of the bytes its Effect
lists; no page is ever freed. -/
def Obligations.PagesFollowTouchedAddresses : Prop :=
  ∀ (i : Instr) (s t : State), exec i s = .next t →
    EffectIs t fun e => ∀ b, b ∈ t.pages ↔ b ∈ s.pages ∨ ∃ a ∈ e.reads ++ e.writes, b = a.toNat / 256 * 256

/-! ### Data memory -/

/-- The canonical form is canonical: two memories that read the same everywhere are the same list (the model's
representation, notes/assumptions/18.md). -/
def Obligations.CanonicalMemoryIsDetermined : Prop :=
  ∀ m m' : List Host.Cell, Memory.wf m → Memory.wf m' → (∀ a, Memory.read m a = Memory.read m' a) → m = m'

/-! ### The engine step and the sequencer -/

/-- R39: the continuation predicate, in a Program whose `end` does not wrap (R341). -/
def Obligations.ContinuationPredicate : Prop :=
  ∀ s : State, s.prog.entry.toNat + 4 * s.prog.count ≤ 2 ^ 32 →
    (s.canStep = true ↔ s.pc.toNat % 4 = 0 ∧ s.prog.entry.toNat ≤ s.pc.toNat ∧
      s.pc.toNat + 4 ≤ s.prog.entry.toNat + 4 * s.prog.count) ∧
    (s.prog.count = 0 → s.canStep = false)

/-- 10_state.md R38, R46: while `canStep` holds there is exactly the slot at `entry + 4*idx = pc`, `idx < count`. -/
def Obligations.ContinuationFindsItsSlot : Prop :=
  ∀ s : State, s.prog.entry.toNat % 4 = 0 → s.canStep = true →
    s.index < s.prog.count ∧ s.pc = s.prog.slotAddress s.index ∧ s.prog.instrs[s.index]? = some s.fetch

/-- 10_state.md R46, 70 R351: a step runs the instruction in the slot at the program counter, and then settles the
status. -/
def Obligations.StepRunsTheFetchedInstruction : Prop :=
  ∀ (s : State) (i : Instr), s.refused = none → s.status.runs = true → s.canStep = true →
    s.prog.instrs[(s.pc.toNat - s.prog.entry.toNat) / 4]? = some (.instr i) →
    ∃ t, exec i s = .next t ∧
      step s = .next { t with status := if t.canStep then .running else .executed }

/-- A word that decodes, placed where the next step fetches, is the instruction that step runs (the placing is the
model's, notes/assumptions/9.md). -/
def Obligations.StepRunsTheDecodedWord : Prop :=
  ∀ (s : State) (w : Nat) (i : Instr), w < 2 ^ 32 →
    decode (if s.canStep then s.pc else s.pc &&& 0xFFFFFFFC) (BitVec.ofNat 32 w) = .ok i →
    ∃ t, exec i (s.withFetchWord 32 w) = .next t ∧
      step (s.withFetchWord 32 w) = .next { t with status := if t.canStep then .running else .executed } ∧
      (s.withFetchWord 32 w).x = s.x ∧ (s.withFetchWord 32 w).mem = s.mem

/-- R351: STEP as an action is the engine step once, with everything the instruction does, and the status rule, and
nothing else; it returns the Effect uncleared. -/
def Obligations.StepActionExecutesOnce : Prop :=
  ∀ (s : State) (i : Instr), s.refused = none → s.status.runs = true → s.canStep = true → s.fetch = .instr i →
    ∃ t, exec i s = .next t ∧
      s.handle .step =
        ⟨{ t with status := if t.canStep then .running else .executed }, .effect t.lastEffect, none⟩ ∧
      (s.handle .step).state.timedOut = s.timedOut

/-- R304, R347: executing the padding slot is a refusal; the mark it sets is returned by every later RUN and STEP, and
cleared by STOP and by RELOAD. That the action sets the mark and changes nothing else is notes/assumptions/2.md, and that
a RUN of a marked state clears `timedOut` (R348) before it returns the refusal is notes/assumptions/25.md. -/
def Obligations.PaddingSlotIsRefused : Prop :=
  ∀ s : State, s.refused = none → s.status.runs = true → s.canStep = true → s.fetch = .pad →
    step s = .refused .paddingSlot ∧
    s.handle .step = ⟨{ s with refused := some .paddingSlot }, .refusal .paddingSlot, none⟩ ∧
    (∀ k, (s.handle (.run (k + 1))).reply = .refusal .paddingSlot ∧
      (s.handle (.run (k + 1))).state.refused = some .paddingSlot) ∧
    ∀ u, u = (s.handle .step).state →
      ¬ u.ended ∧
      step u = .refused .paddingSlot ∧
      u.handle .step = ⟨u, .refusal .paddingSlot, none⟩ ∧
      (∀ k, u.handle (.run k) = ⟨{ u with timedOut := false }, .refusal .paddingSlot, none⟩) ∧
      (u.handle .stop).state.refused = none ∧
      ∀ src, (u.handle (.reload src)).state.refused = none

/-- R347: the enabled-action table; a set refusal mark makes RUN and STEP return the refusal with no step. The reply
`rejected` of a disabled action, which changes nothing, is the model's (notes/assumptions/24.md); that RUN clears
`timedOut` (R348) with the mark set too is read by inference (notes/assumptions/25.md). -/
def Obligations.EnabledActionTable : Prop :=
  (∀ k, enabled .standby k = true ↔ k = .reload ∨ k = .refresh) ∧
  (∀ k, enabled .ready k = true) ∧
  (∀ k, enabled .running k = true) ∧
  (∀ k, enabled .executed k = true ↔ k = .stop ∨ k = .reload ∨ k = .refresh) ∧
  (∀ (s : State) (a : Action), enabled s.status a.kind = false → s.handle a = ⟨s, .rejected, none⟩) ∧
  (∀ (s : State) (r : Refusal), s.refused = some r → s.status.runs = true →
    s.handle .step = ⟨s, .refusal r, none⟩ ∧
    ∀ k, s.handle (.run k) = ⟨{ s with timedOut := false }, .refusal r, none⟩)

/-- R348, R350, R304: RUN, step by step: it ends `Executed` where no next instruction exists; it returns at the deadline,
which fires after `k` steps; at the padding slot it is refused; otherwise it makes one engine step, is `Running`, and
goes on. The number of steps is RUN's argument and a bound, the model's form of the free choice of R350
(notes/assumptions/5.md); that the refused RUN sets the mark and changes nothing else but `timedOut` is the model's
reading (notes/assumptions/2.md). -/
def Obligations.RunIsItsLoop : Prop :=
  ∀ (s : State) (k : Nat), s.refused = none → s.status.runs = true →
    (s.canStep = false → s.handle (.run k) =
      ⟨{ s with timedOut := false, status := .executed, lastEffect := s.lastEffect.map Effect.cleared },
        .effect (s.lastEffect.map Effect.cleared), none⟩) ∧
    (s.canStep = true → s.handle (.run 0) = ⟨{ s with timedOut := true }, .effect s.lastEffect, none⟩) ∧
    (s.canStep = true → s.fetch = .pad → s.handle (.run (k + 1)) =
      ⟨{ s with timedOut := false, refused := some .paddingSlot }, .refusal .paddingSlot, none⟩) ∧
    (∀ i t, s.canStep = true → s.fetch = .instr i → exec i s = .next t →
      s.handle (.run (k + 1)) = State.handle { t with status := .running } (.run k))

/-- R348, R58: a RUN that meets no refusal either hits its deadline at a state where a next instruction exists, its
status unchanged or `Running` and the retained Effect returned as it is, or ends `Executed` with the continuation
predicate false and the terminal Effect cleared. The number of steps is RUN's argument and a
bound (notes/assumptions/5.md); that a refused RUN sets the mark is notes/assumptions/2.md. -/
def Obligations.RunEndsOrTimesOut : Prop :=
  ∀ (s : State) (k : Nat), s.refused = none → s.status.runs = true →
    ((s.handle (.run k)).reply = .refusal .paddingSlot ∧
      (s.handle (.run k)).state.refused = some .paddingSlot ∧ (s.handle (.run k)).state.fetch = .pad) ∨
    ((s.handle (.run k)).state.timedOut = true ∧ (s.handle (.run k)).state.canStep = true ∧
      (s.handle (.run k)).state.status.runs = true ∧
      (s.handle (.run k)).reply = .effect (s.handle (.run k)).state.lastEffect) ∨
    ((s.handle (.run k)).state.timedOut = false ∧ (s.handle (.run k)).state.ended ∧
      (s.handle (.run k)).state.status = .executed ∧
      (s.handle (.run k)).reply = .effect (s.handle (.run k)).state.lastEffect ∧
      ∀ e, (s.handle (.run k)).state.lastEffect = some e →
        e.rd = none ∧ e.rs1 = none ∧ e.rs2 = none ∧ e.markers = Markers.none ∧ e.reads = [] ∧ e.writes = [])

/-- R348, R350: a RUN that timed out after `j` steps is resumed by the next RUN: `j` steps and then `k` are one RUN of
`j + k`. The number of steps is RUN's argument and a bound, the model's form of the free choice of R350
(notes/assumptions/5.md). -/
def Obligations.TimedOutRunIsResumed : Prop :=
  ∀ (s : State) (j k : Nat), s.refused = none → s.status.runs = true →
    (s.handle (.run j)).state.timedOut = true → (s.handle (.run j)).state.refused = none →
    (s.handle (.run j)).state.handle (.run k) = s.handle (.run (j + k))

/-- R349: RUN on a Program of N instructions with no control transfer, from `Ready`: the instructions run in order
(after `j` steps the j-th is next) and the whole run leaves `pc = entry + 4*N` and `Executed`. A Program of 2^30
slots fills the address space: there `pc` wraps onto `entry` (R41) and R39 holds again, so it is left out
(notes/assumptions/17.md). The number of steps is RUN's argument and a bound (notes/assumptions/5.md). -/
def Obligations.StraightLineRunEnds : Prop :=
  ∀ s : State, Inv s → s.status = .ready → s.refused = none → s.prog.count < 2 ^ 30 →
    (∀ slot ∈ s.prog.instrs, ∃ i, slot = .instr i ∧ i.transfersControl = false) →
    (∀ j, j < s.prog.count → (s.handle (.run j)).state.pc = s.prog.slotAddress j ∧
      (s.handle (.run j)).state.timedOut = true) ∧
    (∀ k, s.prog.count ≤ k → (s.handle (.run k)).state.pc = s.prog.slotAddress s.prog.count ∧
      (s.handle (.run k)).state.status = .executed ∧ (s.handle (.run k)).state.timedOut = false)

/-- R344, R352: STOP: the reset sequence and `Ready`; the Program is kept; a second STOP leaves the same state. -/
def Obligations.StopResets : Prop :=
  ∀ (s t : State), s.status ≠ .standby → t = (s.handle .stop).state →
    t.pc = t.prog.entry ∧ (∀ r, t.reg r = 0) ∧ (∀ a, t.byteAt a = 0) ∧ t.pages = [] ∧ t.lastEffect = none ∧
    t.timedOut = false ∧ t.refused = none ∧ t.prog = s.prog ∧ t.loadFailed = s.loadFailed ∧ t.status = .ready ∧
    (s.handle .stop).reply = .nothing ∧ (t.handle .stop).state = t

/-- R354: REFRESH changes no state and returns the retained Effect, which is the Effect the action before it returned
(none after STOP and RELOAD). -/
def Obligations.RefreshReplaysTheEffect : Prop :=
  ∀ (s : State) (a : Action),
    s.handle .refresh = ⟨s, .effect s.lastEffect, none⟩ ∧
    ((s.handle a).state.handle .refresh).state = (s.handle a).state ∧
    (∀ e, (s.handle a).reply = .effect e → ((s.handle a).state.handle .refresh).reply = .effect e) ∧
    ((s.handle a).reply = .nothing → ((s.handle a).state.handle .refresh).reply = .effect none)

/-- R49, R356, R357: what the host reads: the status, the enabled actions, the two flags, whether a STEP is pending, the
registers, the bytes of every touched page, and the slots with their addresses and labels. -/
def Obligations.HostReadsTheState : Prop :=
  ∀ s : State,
    (∀ k, k ∈ s.statusSurface.enabledActions ↔ enabled s.status k = true) ∧
    s.statusSurface.status = s.status ∧ s.statusSurface.loadFailed = s.loadFailed ∧ s.statusSurface.timedOut = s.timedOut ∧
    s.statusSurface.stepPending = s.canStep ∧
    (∀ r : RegIdx, s.registers[r.val]? = some (s.reg r)) ∧
    s.touchedPages.map Prod.fst = s.pages ∧
    (∀ b bytes, (b, bytes) ∈ s.touchedPages → bytes.length = 256 ∧
      ∀ k, k < 256 → bytes[k]? = some (Memory.read s.mem (b + k))) ∧
    (∀ i slot, s.prog.instrs[i]? = some slot → ∃ names, s.prog.listing[i]? = some (s.prog.slotAddress i, names, slot) ∧
      ∀ n, n ∈ names ↔ (n, s.prog.slotAddress i) ∈ s.prog.labels)

/-! ### Creation and load -/

/-- R342, R353, R344: a load that fails leaves the empty Program, `Standby` and `loadFailed`; one that succeeds leaves the
new Program, `Ready` or (with no slot) `Standby`; both reset. The bound of R341 is taken on integers, and a Program past
it fails with no diagnostic: both are the model's reading (notes/assumptions/23.md). That the identifier each diagnostic
carries (R122) is that of the source the lines came with is the model's choice (notes/assumptions/12.md). -/
def Obligations.ReloadLoadsAllOrNothing : Prop :=
  ∀ (s t : State) (src : Source), t = (s.handle (.reload src)).state →
    (t.pc = s.prog.entry ∧ t.prog.entry = s.prog.entry ∧ (∀ r, t.reg r = 0) ∧ (∀ a, t.byteAt a = 0) ∧ t.pages = [] ∧
      t.lastEffect = none ∧ t.timedOut = false ∧ t.refused = none ∧ t.params = s.params ∧
      (s.handle (.reload src)).reply = .nothing) ∧
    (∀ ds, assemble s.params.acceptHexImm s.prog.entry src = .error ds →
      t.prog.count = 0 ∧ t.prog.labels = [] ∧ t.status = .standby ∧ t.loadFailed = true ∧
      (s.handle (.reload src)).failure = some (.invalid ds) ∧ ds ≠ [] ∧ ∀ d ∈ ds, d.source = src.identifier) ∧
    (∀ p, assemble s.params.acceptHexImm s.prog.entry src = .ok p → p.entry.toNat + 4 * p.count > 2 ^ 32 →
      t.prog.count = 0 ∧ t.prog.labels = [] ∧ t.status = .standby ∧ t.loadFailed = true ∧
      (s.handle (.reload src)).failure = some .programTooLarge) ∧
    (∀ p, assemble s.params.acceptHexImm s.prog.entry src = .ok p → p.entry.toNat + 4 * p.count ≤ 2 ^ 32 →
      t.prog = p ∧ t.loadFailed = false ∧ t.status = (if p.count = 0 then .standby else .ready) ∧
      (s.handle (.reload src)).failure = none)

/-- R341: the entry address is aligned down, then clamped to `ENTRY_MAX` aligned down. -/
def Obligations.CreateNormalisesTheEntry : Prop :=
  ∀ (params : Params) (src : Source) (entryAddress : Word),
    (create params src entryAddress).1.prog.entry.toNat =
      (if entryAddress.toNat / 4 * 4 > Config.entryMax.toNat then Config.entryMax.toNat / 4 * 4
        else entryAddress.toNat / 4 * 4) ∧
    (create params src entryAddress).1.pc = (create params src entryAddress).1.prog.entry

/-- R102, R44, R124: an assembled Program that fits the address space is well formed: labels are distinct and name
slots, every target is in the label table, padding stands last or nowhere. -/
def Obligations.AssembledProgramIsWellFormed : Prop :=
  ∀ (hex : Bool) (entry : Word) (src : Source) (p : Program), assemble hex entry src = .ok p → entry.toNat % 4 = 0 →
    p.entry.toNat + 4 * p.count ≤ 2 ^ 32 → p.wf

/-- R124: a source whose last line holds a label and no instruction assembles to a Program whose last slot is padding,
and the label is bound to that slot's address. -/
def Obligations.DanglingLabelTakesPaddingSlot : Prop :=
  ∀ (hex : Bool) (entry : Word) (id : Text) (lines : List Text) (name line : Text) (p : Program),
    (parseLine line).label = some name → (parseLine line).body = none →
    assemble hex entry ⟨id, lines ++ [line]⟩ = .ok p →
    p.instrs.getLast? = some .pad ∧ p.labels.lookup name = some (p.slotAddress (p.count - 1))

/-- R119, R267: a line whose mnemonic is not admitted makes the load fail as a whole. Its diagnostic's line number, from
1 (notes/assumptions/16.md), and source identifier, that of the source the lines came with (notes/assumptions/12.md),
are the model's choices. -/
def Obligations.UnadmittedMnemonicFailsTheLoad : Prop :=
  ∀ (s : State) (id : Text) (before after : List Text) (line m ops : Text),
    (parseLine line).body = some (m, ops) → mnemonicNames.lookup m = none →
    ∃ ds, assemble s.params.acceptHexImm s.prog.entry ⟨id, before ++ line :: after⟩ = .error ds ∧
      ⟨id, before.length + 1, .unsupportedInstruction (recognisedUnsupported.contains m)⟩ ∈ ds ∧
      (s.handle (.reload ⟨id, before ++ line :: after⟩)).state.prog.count = 0 ∧
      (s.handle (.reload ⟨id, before ++ line :: after⟩)).state.status = .standby

/-- R116, R117: an immediate is admitted exactly in its range, and its field holds the literal's value; a hexadecimal
literal, with or without a minus sign, is one exactly when ACCEPT_HEX_IMM says so. -/
def Obligations.ImmediatesAreAdmittedInRange : Prop :=
  (∀ (hex : Bool) (t : Text) (v : Int), integerLiteral hex t = some v →
    (if -2048 ≤ v ∧ v ≤ 2047 then ∃ b, imm12Operand hex t = .ok b ∧ b.toInt = v
      else imm12Operand hex t = .error [.immediateOutOfRange]) ∧
    (if 0 ≤ v ∧ v ≤ 31 then ∃ b, shamtOperand hex t = .ok b ∧ (b.toNat : Int) = v
      else shamtOperand hex t = .error [.immediateOutOfRange]) ∧
    (if 0 ≤ v ∧ v ≤ 1048575 then ∃ b, imm20Operand hex t = .ok b ∧ (b.toNat : Int) = v
      else imm20Operand hex t = .error [.immediateOutOfRange])) ∧
  (∀ (t : Text) (n : Nat), hexValue t = some n →
    integerLiteral true t = some (n : Int) ∧ integerLiteral true ('-' :: t) = some (-(n : Int)) ∧
    integerLiteral false t = none ∧ integerLiteral false ('-' :: t) = none)

/-! ### The reference word form (30_encoding.md section 2) -/

/-- R105, R106: decoding the word of a record that has one, at the same address, gives the record back. Offsets are
taken modulo 2^32, the model's reading (notes/assumptions/10.md). -/
def Obligations.EncodedRecordDecodesBack : Prop :=
  ∀ (p : Word) (i : Instr), i.hasWord p = true → decode p (encode p i) = .ok i

/-- R103 to R106: a word that decodes is the word of its record, which has one: no bit is dropped. A record whose
`target - p` wraps has a word too: the offset is taken modulo 2^32 as signed, the model's reading
(notes/assumptions/10.md). -/
def Obligations.DecodedWordEncodesBack : Prop :=
  ∀ (p w : Word) (i : Instr), decode p w = .ok i → i.hasWord p = true ∧ encode p i = w

/-- R107: a word matches at most one row; a word that matches none is illegal, and a load of words that holds one
is refused with the reason `IllegalWord`. The load of words, what it leaves when it is refused included, is the model's
(notes/assumptions/9.md). -/
def Obligations.WordsMatchAtMostOneRow : Prop :=
  (∀ w, ∀ r ∈ opcodeTable, ∀ r' ∈ opcodeTable,
    w &&& r.mask = r.pattern → w &&& r'.mask = r'.pattern → r = r') ∧
  (∀ p w, (∀ r ∈ opcodeTable, w &&& r.mask ≠ r.pattern) → decode p w = .error .illegalWord) ∧
  (∀ s before w after, (∀ r ∈ opcodeTable, w &&& r.mask ≠ r.pattern) →
    (State.loadWords s (before ++ w :: after)).refused = some .illegalWord ∧
    (State.loadWords s (before ++ w :: after)).prog.count = 0)

/-- 30 R107, 43_excluded.md R260 to R263: the words of `fence`, of the system and CSR instructions and of the M
extension are illegal. -/
def Obligations.ExcludedWordsAreIllegal : Prop :=
  ∀ p w : Word,
    (w.extractLsb' 0 7 = 0b0001111#7 → decode p w = .error .illegalWord) ∧
    (w.extractLsb' 0 7 = 0b1110011#7 → decode p w = .error .illegalWord) ∧
    (w.extractLsb' 0 7 = 0b0110011#7 → w.extractLsb' 25 7 = 0b0000001#7 → decode p w = .error .illegalWord)

/-- Words of 95_test_vectors.md section 3, one or more of each family, decode to the instruction beside them. -/
def Obligations.SampleWordsDecode : Prop :=
  decode 0x0C 0x006282B3 = .ok (.add 5 5 6) ∧
  decode 0x00 0x00000293 = .ok (.addi 5 0 0) ∧
  decode 0x10 0x40255593 = .ok (.srai 11 10 2) ∧
  decode 0x00 0x12345537 = .ok (.lui 10 74565) ∧
  decode 0x18 0x00159703 = .ok (.lh 14 11 1) ∧
  decode 0x20 0x00F58223 = .ok (.sb 15 11 4) ∧
  decode 0x04 0x00C000EF = .ok (.jal 1 0x10) ∧
  decode 0x1C 0x00008067 = .ok (.jalr 0 1 0) ∧
  decode 0x14 0xFE734CE3 = .ok (.blt 6 7 0x0C)

/-! ### The invariant -/

/-- The invariant holds at State.reset (its empty Program and entry 0 are the model's choice,
notes/assumptions/3.md). -/
def Obligations.InvariantHoldsAtReset : Prop := Inv State.reset

/-- Every step keeps the invariant: memory and pages canonical, every listed byte in a touched page, register 0's
cell 0, the Program well formed, the status agreeing with the continuation predicate. -/
def Obligations.StepKeepsTheInvariant : Prop := ∀ s t : State, Inv s → step s = .next t → Inv t

/-- Every action of the host keeps the invariant, a RELOAD of any source text included; and none changes the instance's
parameters (R7; that the instance holds them is the model's, notes/assumptions/6.md and 7.md). -/
def Obligations.EveryActionKeepsTheInvariant : Prop :=
  ∀ (s : State) (a : Action), Inv s → Inv (s.handle a).state ∧ (s.handle a).state.params = s.params

/-- R340, R345: an instance created with any parameters from any source text at any entry address satisfies the
invariant, with every register and byte 0, and keeps its parameters (R7). -/
def Obligations.CreateEstablishesTheInvariant : Prop :=
  ∀ (params : Params) (src : Source) (entryAddress : Word) (s : State), s = (create params src entryAddress).1 →
    Inv s ∧ s.params = params ∧ (∀ r, s.reg r = 0) ∧ (∀ a, s.byteAt a = 0) ∧ s.timedOut = false ∧
    (s.loadFailed = true → s.status = .standby)
end

