-- ==== Sys2Proof/Laws/Assembler.lean ====
section
/-! SUPPORT. What the assembler front-end (30_encoding.md section 4) does with lines that have no defect, and with a
line whose mnemonic is not admitted. -/

namespace Sys2Proof.Machine

/-- How many of the lines hold an instruction. -/
def bodyCount (ls : List SourceLine) : Nat := (ls.filter fun l => l.body.isSome).length
@[simp] theorem bodyCount_nil : bodyCount [] = 0 := rfl

theorem bodyCount_cons (l ls) : bodyCount (l :: ls) = (if l.body.isSome then 1 else 0) + bodyCount ls := by
  unfold bodyCount; by_cases h : l.body.isSome <;> simp [h]; omega

/-- A label binds to a slot of an instruction that follows it, or, still pending at end of input, to the slot after
the last one (R123, R124). -/
theorem labelDefs_range (ls) :
    ∀ k d, d ∈ labelDefs k ls → k ≤ d.2 ∧ (d.2 < k + bodyCount ls ∨ (d.2 = k + bodyCount ls ∧
    ∀ p, labelPending p ls = true)) := by
  induction ls with
  | nil => intro k d h; cases h
  | cons l ls ih =>
    intro k d h
    rw [bodyCount_cons]
    have rest : ∀ d, d ∈ labelDefs (if l.body.isSome then k + 1 else k) ls → k ≤ d.2 ∧
        (d.2 < k + ((if l.body.isSome then 1 else 0) + bodyCount ls) ∨
        (d.2 = k + ((if l.body.isSome then 1 else 0) + bodyCount ls) ∧ ∀ p, labelPending p (l :: ls) = true)) := by
      intro d hd
      have := ih _ d hd
      refine ⟨by split at this <;> omega, ?_⟩
      rcases this.2 with h | ⟨h, hp⟩
      · left; split at h <;> simp_all <;> omega
      · right; refine ⟨by split at h <;> simp_all <;> omega, fun p => ?_⟩
        simp only [labelPending]; exact hp _
    have here : ∀ name, l.label = some name → k ≤ k ∧ (k < k + ((if l.body.isSome then 1 else 0) + bodyCount ls) ∨
        (k = k + ((if l.body.isSome then 1 else 0) + bodyCount ls) ∧ ∀ p, labelPending p (l :: ls) = true)) := by
      intro name hn
      refine ⟨le_refl _, ?_⟩
      cases hb : l.body.isSome
      · by_cases hz : bodyCount ls = 0
        · right; refine ⟨by simp [hz], fun p => ?_⟩
          simp only [labelPending, hb, hn]
          have : ∀ ls, bodyCount ls = 0 → labelPending true ls = true := by
            intro ls; induction ls with
            | nil => intro _; rfl
            | cons m ms ih =>
              rw [bodyCount_cons]; intro h; cases hm : m.body.isSome
              · simp only [labelPending, hm]; simp; apply ih; omega
              · simp [hm] at h
          simpa using this ls hz
        · left; simp; omega
      · left; simp
    simp only [labelDefs] at h
    cases hl : l.label with
    | none => rw [hl] at h; exact rest d h
    | some name =>
      rw [hl] at h; simp only at h
      split at h
      · rcases List.mem_cons.mp h with rfl | h
        · exact here name hl
        · exact rest d h
      · exact rest d h

theorem mem_of_lookup {labels : List (Text × Word)} {t a} (h : labels.lookup t = some a) : (t, a) ∈ labels := by
  induction labels with
  | nil => cases h
  | cons b bs ih =>
    rw [List.lookup_cons] at h
    split at h
    · rename_i hb; simp at hb; cases h; simp [hb]
    · exact List.mem_cons_of_mem _ (ih h)

theorem Checked.map_ok {α β} {f : α → β} {c : Checked α} {b} (h : c.map f = .ok b) : ∃ a, c = .ok a ∧ f a = b := by
  cases c with
  | error e => cases h
  | ok a => exact ⟨a, rfl, by cases h; rfl⟩

theorem bothChecked_ok {α β} {a : Checked α} {b : Checked β} {x} (h : bothChecked a b = .ok x) :
    a = .ok x.1 ∧ b = .ok x.2 := by
  cases a <;> cases b <;> simp [bothChecked] at h <;> subst h <;> exact ⟨rfl, rfl⟩

theorem labelOperand_mem {labels t a} (h : labelOperand labels t = .ok a) : a ∈ labels.map Prod.snd := by
  unfold labelOperand at h; split at h
  · rename_i h'; cases h; exact List.mem_map_of_mem (f := Prod.snd) (mem_of_lookup h')
  · cases h

/-- The target of an assembled record is an address of the label table (R102). -/
theorem assembleInstr_target {hex labels m ops i} (h : assembleInstr hex labels m ops = .ok i) :
    ∀ t, i.target = some t → t ∈ labels.map Prod.snd := by
  have sB : ∀ (mk : RegIdx → RegIdx → Word → Instr), (∀ a b c, (mk a b c).target = some c) →
      shapeB labels mk ops = .ok i → ∀ t, i.target = some t → t ∈ labels.map Prod.snd := by
    intro mk hmk h t ht
    unfold shapeB at h; split at h
    · obtain ⟨x, h1, h2⟩ := Checked.map_ok h
      have := bothChecked_ok (bothChecked_ok h1).2
      subst h2; rw [hmk] at ht; cases ht; exact labelOperand_mem this.2
    · cases h
  have sJ : ∀ (mk : RegIdx → Word → Instr), (∀ a c, (mk a c).target = some c) → shapeJ labels mk ops = .ok i →
      ∀ t, i.target = some t → t ∈ labels.map Prod.snd := by
    intro mk hmk h t ht
    unfold shapeJ at h; split at h
    · obtain ⟨x, h1, h2⟩ := Checked.map_ok h
      subst h2; rw [hmk] at ht; cases ht; exact labelOperand_mem (bothChecked_ok h1).2
    · obtain ⟨x, h1, h2⟩ := Checked.map_ok h
      subst h2; rw [hmk] at ht; cases ht; exact labelOperand_mem h1
    · cases h
  have sR : ∀ (mk : RegIdx → RegIdx → RegIdx → Instr), (∀ a b c, (mk a b c).target = none) →
      shapeR mk ops = .ok i → i.target = none := by
    intro mk hmk h; unfold shapeR at h; split at h
    · obtain ⟨x, h1, h2⟩ := Checked.map_ok h; subst h2; exact hmk ..
    · cases h
  have sI : ∀ (mk : RegIdx → RegIdx → BitVec 12 → Instr), (∀ a b c, (mk a b c).target = none) →
      shapeI hex mk ops = .ok i → i.target = none := by
    intro mk hmk h; unfold shapeI at h; split at h
    · obtain ⟨x, h1, h2⟩ := Checked.map_ok h; subst h2; exact hmk ..
    · cases h
  have sS : ∀ (mk : RegIdx → RegIdx → BitVec 5 → Instr), (∀ a b c, (mk a b c).target = none) →
      shapeShift hex mk ops = .ok i → i.target = none := by
    intro mk hmk h; unfold shapeShift at h; split at h
    · obtain ⟨x, h1, h2⟩ := Checked.map_ok h; subst h2; exact hmk ..
    · cases h
  have sU : ∀ (mk : RegIdx → BitVec 20 → Instr), (∀ a b, (mk a b).target = none) → shapeU hex mk ops = .ok i →
      i.target = none := by
    intro mk hmk h; unfold shapeU at h; split at h
    · obtain ⟨x, h1, h2⟩ := Checked.map_ok h; subst h2; exact hmk ..
    · cases h
  have sM : ∀ (mk : RegIdx → RegIdx → BitVec 12 → Instr), (∀ a b c, (mk a b c).target = none) →
      ∀ ops, shapeMem hex mk ops = .ok i → i.target = none := by
    intro mk hmk ops h; unfold shapeMem at h; split at h
    · obtain ⟨x, h1, h2⟩ := Checked.map_ok h; subst h2; exact hmk ..
    · cases h
  have sJr : ∀ (mk : RegIdx → RegIdx → BitVec 12 → Instr), (∀ a b c, (mk a b c).target = none) →
      shapeJalr hex mk ops = .ok i → i.target = none := by
    intro mk hmk h; unfold shapeJalr at h; split at h
    · obtain ⟨x, h1, h2⟩ := Checked.map_ok h; subst h2; exact hmk ..
    · exact sM _ hmk _ h
  intro t ht
  have no : i.target = none → t ∈ labels.map Prod.snd := by intro h; rw [h] at ht; cases ht
  cases m
  case add | sub | and | or | xor | sll | srl | sra | slt | sltu => exact no (sR _ (fun _ _ _ => rfl) h)
  case addi | andi | ori | xori | slti | sltiu => exact no (sI _ (fun _ _ _ => rfl) h)
  case slli | srli | srai => exact no (sS _ (fun _ _ _ => rfl) h)
  case lui | auipc => exact no (sU _ (fun _ _ => rfl) h)
  case lb | lh | lw | lbu | lhu | sb | sh | sw => exact no (sM _ (fun _ _ _ => rfl) _ h)
  case jal => exact sJ _ (fun _ _ => rfl) h t ht
  case jalr => exact no (sJr _ (fun _ _ _ => rfl) h)
  all_goals exact sB _ (fun _ _ _ => rfl) h t ht

/-! ### A rejected part has at least one defect -/

theorem bothChecked_ne {α β} {a : Checked α} {b : Checked β} (ha : a ≠ .error []) (hb : b ≠ .error []) :
    bothChecked a b ≠ .error [] := by
  cases a <;> cases b <;> simp_all [bothChecked]

theorem Checked.map_ne {α β} {f : α → β} {c : Checked α} (h : c ≠ .error []) : c.map f ≠ .error [] := by
  cases c <;> simp_all [Except.map]

theorem registerOperand_ne (t) : registerOperand t ≠ .error [] := by unfold registerOperand; split <;> simp

theorem labelOperand_ne (l t) : labelOperand l t ≠ .error [] := by unfold labelOperand; split <;> simp

theorem rangedLiteral_ne (h l u t) :
    rangedLiteral h l u t ≠ .error [] := by unfold rangedLiteral; split; simp; split <;> simp

theorem imm12Operand_ne (h t) : imm12Operand h t ≠ .error [] := Checked.map_ne (rangedLiteral_ne _ _ _ _)

theorem shamtOperand_ne (h t) : shamtOperand h t ≠ .error [] := Checked.map_ne (rangedLiteral_ne _ _ _ _)

theorem imm20Operand_ne (h t) : imm20Operand h t ≠ .error [] := Checked.map_ne (rangedLiteral_ne _ _ _ _)

theorem memoryOperand_ne (h t) : memoryOperand h t ≠ .error [] := by
  unfold memoryOperand; split
  · split
    · exact bothChecked_ne (imm12Operand_ne _ _) (registerOperand_ne _)
    · simp
  · simp

theorem shapeR_ne (mk ops) : shapeR mk ops ≠ .error [] := by
  unfold shapeR; split
  · exact Checked.map_ne (bothChecked_ne (registerOperand_ne _) (bothChecked_ne (registerOperand_ne _) (registerOperand_ne _)))
  · simp

theorem shapeI_ne (h mk ops) : shapeI h mk ops ≠ .error [] := by
  unfold shapeI; split
  · exact Checked.map_ne (bothChecked_ne (registerOperand_ne _) (bothChecked_ne (registerOperand_ne _) (imm12Operand_ne _ _)))
  · simp

theorem shapeShift_ne (h mk ops) : shapeShift h mk ops ≠ .error [] := by
  unfold shapeShift; split
  · exact Checked.map_ne (bothChecked_ne (registerOperand_ne _) (bothChecked_ne (registerOperand_ne _) (shamtOperand_ne _ _)))
  · simp

theorem shapeU_ne (h mk ops) : shapeU h mk ops ≠ .error [] := by
  unfold shapeU; split
  · exact Checked.map_ne (bothChecked_ne (registerOperand_ne _) (imm20Operand_ne _ _))
  · simp

theorem shapeMem_ne (h mk ops) : shapeMem h mk ops ≠ .error [] := by
  unfold shapeMem; split
  · exact Checked.map_ne (bothChecked_ne (registerOperand_ne _) (memoryOperand_ne _ _))
  · simp

theorem shapeB_ne (l mk ops) : shapeB l mk ops ≠ .error [] := by
  unfold shapeB; split
  · exact Checked.map_ne (bothChecked_ne (registerOperand_ne _) (bothChecked_ne (registerOperand_ne _) (labelOperand_ne _ _)))
  · simp

theorem shapeJ_ne (l mk ops) : shapeJ l mk ops ≠ .error [] := by
  unfold shapeJ; split
  · exact Checked.map_ne (bothChecked_ne (registerOperand_ne _) (labelOperand_ne _ _))
  · exact Checked.map_ne (labelOperand_ne _ _)
  · simp

theorem shapeJalr_ne (l mk ops) : shapeJalr l mk ops ≠ .error [] := by
  unfold shapeJalr; split
  · exact Checked.map_ne (memoryOperand_ne _ _)
  · exact shapeMem_ne _ _ _

theorem checkBody_ne (hex l m o) : checkBody hex l m o ≠ .error [] := by
  unfold checkBody; split
  · rename_i m' _; cases m' <;> simp only [assembleInstr] <;> first | exact shapeR_ne _ _ | exact shapeI_ne _ _ _ | exact shapeShift_ne _ _ _ | exact shapeU_ne _ _ _ | exact shapeMem_ne _ _ _ | exact shapeB_ne _ _ _ | exact shapeJ_ne _ _ _ | exact shapeJalr_ne _ _ _
  · simp

/-- What lines without a defect give: one record for each line that holds an instruction, every target in the label
table, every label defined once. -/
theorem checkLines_ok (hex src labels) (ls) : ∀ seen n, (checkLines hex src labels seen n ls).diagnostics = [] →
    (checkLines hex src labels seen n ls).records.length = bodyCount ls ∧
    (∀ i ∈ (checkLines hex src labels seen n ls).records, ∀ t, i.target = some t → t ∈ labels.map Prod.snd) ∧
    (∀ k, ((labelDefs k ls).map Prod.fst).Nodup ∧ ∀ d ∈ labelDefs k ls, d.1 ∉ seen) := by
  induction ls with
  | nil => intro seen n _; simp [checkLines, labelDefs]
  | cons l ls ih =>
    intro seen n h
    have hrest : (checkLines hex src labels (seenAfter seen l.label) (n + 1) ls).diagnostics = [] ∧
        labelDefects seen l.label = [] := by
      simp only [checkLines] at h
      split at h
      · simp at h; exact ⟨h.2, h.1⟩
      · split at h <;> simp at h
        · exact ⟨h.2, h.1⟩
        · exact ⟨h.2.2, h.1⟩
    obtain ⟨i1, i2, i3⟩ := ih _ _ hrest.1
    refine ⟨?_, ?_, fun k => ?_⟩
    · rw [bodyCount_cons]
      simp only [checkLines] at h ⊢
      split at h
      · rename_i hb; simp [hb, i1]
      · rename_i hb; split at h
        · rename_i hc; simp [hb, hc, i1]; omega
        · rename_i ds hc; simp at h
          rename_i m ops
          exfalso
          have : ds = [] := h.2.1
          subst this
          exact checkBody_ne _ _ _ _ hc
    · simp only [checkLines] at h ⊢
      split at h
      · rename_i hb; simpa [hb] using i2
      · rename_i hb; split at h
        · rename_i m ops i hc
          simp only [hb, hc]
          intro j hj
          rcases List.mem_cons.mp hj with rfl | hj
          · unfold checkBody at hc; split at hc
            · exact assembleInstr_target hc
            · cases hc
          · exact i2 j hj
        · rename_i hc; simp only [hb, hc]; exact i2
    · simp only [labelDefs]
      have h3 := i3 (if l.body.isSome then k + 1 else k)
      have hd := hrest.2
      cases hl : l.label with
      | none => rw [hl] at h3; exact h3
      | some name =>
        simp only
        rw [hl] at h3 hd
        simp only [labelDefects] at hd
        by_cases hv : validLabel name
        · simp only [hv, if_true] at hd ⊢
          simp only [seenAfter, hv, if_true] at h3
          split at hd
          · cases hd
          · rename_i hns
            simp only [List.map_cons, List.nodup_cons, List.mem_map, not_exists]
            refine ⟨⟨fun d hd' => ?_, h3.1⟩, ?_⟩
            · have := h3.2 d hd'.1; rw [hd'.2] at this; simp at this
            · intro d hd'
              rcases List.mem_cons.mp hd' with rfl | hd'
              · simpa using hns
              · have := h3.2 d hd'; simp at this; exact this.2
        · simp [hv] at hd

/-- Records followed by at most one slot have padding last (R124). -/
theorem padLast_map_instr (is : List Instr) (tail : List Slot) (h : tail.length ≤ 1) :
    padLast (is.map Slot.instr ++ tail) = true := by
  induction is with
  | nil => match tail, h with
    | [], _ => rfl
    | [_], _ => rfl
  | cons i is ih =>
    cases is with
    | nil => match tail, h with
      | [], _ => rfl
      | [_], _ => rfl
    | cons j js => exact ih

/-- The parts of an assembled Program. -/
theorem assemble_ok {hex e src p} (h : assemble hex e src = .ok p) :
    let ls := src.lines.map parseLine
    let a := checkLines hex src.identifier (labelTable e ls) [] 1 ls
    a.diagnostics = [] ∧
    p = { instrs := a.records.map Slot.instr ++ (if labelPending false ls then [Slot.pad] else [])
          entry := e
          labels := labelTable e ls } := by
  unfold assemble at h
  simp only at h; split at h
  · rename_i hd; cases h; exact ⟨hd, rfl⟩
  · cases h

/-- A label on the last line with no instruction on it is pending at end of input (R124). -/
theorem labelPending_append (ls m) (hm : m.body = none) (hl : m.label.isSome = true) :
    ∀ p, labelPending p (ls ++ [m]) = true := by
  induction ls with
  | nil => intro p; simp [labelPending, hm, hl]
  | cons l ls ih => intro p; simp only [List.cons_append, labelPending]; exact ih _

/-- That label is bound to the slot after the last instruction (R124). -/
theorem labelDefs_append (ls m name) (hl : m.label = some name) (hv : validLabel name = true) :
    ∀ k, (name, k + bodyCount ls) ∈ labelDefs k (ls ++ [m]) := by
  induction ls with
  | nil => intro k; simp [labelDefs, hl, hv]
  | cons l ls ih =>
    intro k
    simp only [List.cons_append, labelDefs, bodyCount_cons]
    have : (name, k + ((if l.body.isSome then 1 else 0) + bodyCount ls)) ∈ labelDefs (if l.body.isSome then k + 1 else k) (ls ++ [m]) := by
      have := ih (if l.body.isSome then k + 1 else k)
      split at this <;> simp_all [Nat.add_assoc]
    split
    · split
      · exact List.mem_cons_of_mem _ this
      · exact this
    · exact this

theorem lookup_of_nodup {labels : List (Text × Word)} {n a} (hn : (labels.map Prod.fst).Nodup) (h : (n, a) ∈ labels) :
    labels.lookup n = some a := by
  induction labels with
  | nil => cases h
  | cons b bs ih =>
    simp only [List.map_cons, List.nodup_cons] at hn
    rw [List.lookup_cons]
    rcases List.mem_cons.mp h with rfl | h
    · simp
    · have : n ≠ b.1 := by rintro rfl; exact hn.1 (List.mem_map_of_mem (f := Prod.fst) (a := (b.1, a)) h)
      have e : (n == b.1) = false := by simpa using this
      rw [e]; exact ih hn.2 h

theorem validLabel_of_checkLines (hex src labels ls m name) (hl : m.label = some name) :
    ∀ seen n, (checkLines hex src labels seen n (ls ++ [m])).diagnostics = [] → validLabel name = true := by
  induction ls with
  | nil =>
    intro seen n h
    by_contra hv
    have : labelDefects seen m.label ≠ [] := by simp [hl, labelDefects, hv]
    simp only [List.nil_append, checkLines] at h
    split at h
    · simp at h; exact this h
    · split at h <;> simp at h
      · exact this h
      · exact this h.1
  | cons l ls ih =>
    intro seen n h
    simp only [List.cons_append, checkLines] at h
    split at h
    · simp at h; exact ih _ _ h.2
    · split at h <;> simp at h
      · exact ih _ _ h.2
      · exact ih _ _ h.2.2

/-- Every diagnostic names the source its line came from (R122, R358). -/
theorem source_of_mem_checkLines (hex src labels ls) :
    ∀ seen n, ∀ d ∈ (checkLines hex src labels seen n ls).diagnostics, d.source = src := by
  induction ls with
  | nil => intro seen n d hd; simp [checkLines] at hd
  | cons l ls ih =>
    intro seen n d hd
    simp only [checkLines] at hd
    split at hd
    · rcases List.mem_append.mp hd with h | h
      · obtain ⟨_, -, rfl⟩ := List.mem_map.mp h; rfl
      · exact ih _ _ d h
    · split at hd <;> simp only [List.mem_append, List.mem_map] at hd
      · rcases hd with ⟨_, -, rfl⟩ | h
        · rfl
        · exact ih _ _ d h
      · rcases hd with (⟨_, -, rfl⟩ | ⟨_, -, rfl⟩) | h
        · rfl
        · rfl
        · exact ih _ _ d h

/-- The diagnostics of a source that does not assemble: at least one, each with the source's identifier (R122, R126). -/
theorem assemble_error {hex e src ds} (h : assemble hex e src = .error ds) :
    ds ≠ [] ∧ ∀ d ∈ ds, d.source = src.identifier := by
  unfold assemble at h
  simp only at h
  split at h
  · cases h
  · rename_i hd; cases h; exact ⟨hd, source_of_mem_checkLines _ _ _ _ _ _⟩

/-- A line whose mnemonic is not admitted leaves its diagnostic (R119, R122). -/
theorem mem_checkLines_unsupported (hex src labels before l after m ops) (hb : l.body = some (m,
    ops)) (hm : mnemonicNames.lookup m = none) :
    ∀ seen n, ⟨src, before.length + n,
    .unsupportedInstruction (recognisedUnsupported.contains m)⟩ ∈ (checkLines hex src labels seen n (before ++ l ::
    after)).diagnostics := by
  induction before with
  | nil => intro seen n; simp [checkLines, hb, checkBody, hm]
  | cons b bs ih =>
    intro seen n
    have := ih (seenAfter seen b.label) (n + 1)
    rw [show bs.length + (n + 1) = (b :: bs).length + n by simp; omega] at this
    simp only [List.cons_append, checkLines]
    split
    · exact List.mem_append_right _ this
    · split
      · exact List.mem_append_right _ this
      · exact List.mem_append_right _ this

end Sys2Proof.Machine
end

