-- ==== Sys2Proof/Laws/State.lean ====
section
/-! SUPPORT. What each named update of the state does to each field, tagged for simp, so that no proof unfolds a
record update; and the register file's read-after-write law. -/

namespace Sys2Proof.Machine

/-! ### `touch`, `writeByte`, `retire`, `refuse`, `settle`, `terminate`, `resetSequence` -/

@[simp] theorem State.touch_prog (s : State) (a : Word) : (s.touch a).prog = s.prog := rfl
@[simp] theorem State.touch_params (s : State) (a : Word) : (s.touch a).params = s.params := rfl
@[simp] theorem State.touch_x (s : State) (a : Word) : (s.touch a).x = s.x := rfl
@[simp] theorem State.touch_pc (s : State) (a : Word) : (s.touch a).pc = s.pc := rfl
@[simp] theorem State.touch_mem (s : State) (a : Word) : (s.touch a).mem = s.mem := rfl
@[simp] theorem State.touch_pages (s : State) (a : Word) : (s.touch a).pages = Pages.insert s.pages (pageBase a) := rfl
@[simp] theorem State.touch_status (s : State) (a : Word) : (s.touch a).status = s.status := rfl
@[simp] theorem State.touch_timedOut (s : State) (a : Word) : (s.touch a).timedOut = s.timedOut := rfl
@[simp] theorem State.touch_loadFailed (s : State) (a : Word) : (s.touch a).loadFailed = s.loadFailed := rfl
@[simp] theorem State.touch_lastEffect (s : State) (a : Word) : (s.touch a).lastEffect = s.lastEffect := rfl
@[simp] theorem State.touch_refused (s : State) (a : Word) : (s.touch a).refused = s.refused := rfl

@[simp] theorem State.writeByte_prog (s : State) (a : Word) (b : Byte) : (s.writeByte a b).prog = s.prog := rfl
@[simp] theorem State.writeByte_params (s : State) (a : Word) (b : Byte) : (s.writeByte a b).params = s.params := rfl
@[simp] theorem State.writeByte_x (s : State) (a : Word) (b : Byte) : (s.writeByte a b).x = s.x := rfl
@[simp] theorem State.writeByte_pc (s : State) (a : Word) (b : Byte) : (s.writeByte a b).pc = s.pc := rfl
@[simp] theorem State.writeByte_mem (s : State) (a : Word) (b : Byte) : (s.writeByte a b).mem = Memory.write s.mem a.toNat b := rfl
@[simp] theorem State.writeByte_pages (s : State) (a : Word) (b : Byte) : (s.writeByte a b).pages = Pages.insert s.pages (pageBase a) := rfl
@[simp] theorem State.writeByte_status (s : State) (a : Word) (b : Byte) : (s.writeByte a b).status = s.status := rfl
@[simp] theorem State.writeByte_timedOut (s : State) (a : Word) (b : Byte) : (s.writeByte a b).timedOut = s.timedOut := rfl
@[simp] theorem State.writeByte_loadFailed (s : State) (a : Word) (b : Byte) : (s.writeByte a b).loadFailed = s.loadFailed := rfl
@[simp] theorem State.writeByte_lastEffect (s : State) (a : Word) (b : Byte) : (s.writeByte a b).lastEffect = s.lastEffect := rfl
@[simp] theorem State.writeByte_refused (s : State) (a : Word) (b : Byte) : (s.writeByte a b).refused = s.refused := rfl

@[simp] theorem State.retire_prog (s : State) (next : Word) (e : Effect) : (s.retire next e).prog = s.prog := rfl
@[simp] theorem State.retire_params (s : State) (next : Word) (e : Effect) : (s.retire next e).params = s.params := rfl
@[simp] theorem State.retire_x (s : State) (next : Word) (e : Effect) : (s.retire next e).x = s.x := rfl
@[simp] theorem State.retire_pc (s : State) (next : Word) (e : Effect) : (s.retire next e).pc = next := rfl
@[simp] theorem State.retire_mem (s : State) (next : Word) (e : Effect) : (s.retire next e).mem = s.mem := rfl
@[simp] theorem State.retire_pages (s : State) (next : Word) (e : Effect) : (s.retire next e).pages = s.pages := rfl
@[simp] theorem State.retire_status (s : State) (next : Word) (e : Effect) : (s.retire next e).status = s.status := rfl
@[simp] theorem State.retire_timedOut (s : State) (next : Word) (e : Effect) : (s.retire next e).timedOut = s.timedOut := rfl
@[simp] theorem State.retire_loadFailed (s : State) (next : Word) (e : Effect) : (s.retire next e).loadFailed = s.loadFailed := rfl
@[simp] theorem State.retire_lastEffect (s : State) (next : Word) (e : Effect) : (s.retire next e).lastEffect = some e := rfl
@[simp] theorem State.retire_refused (s : State) (next : Word) (e : Effect) : (s.retire next e).refused = s.refused := rfl

@[simp] theorem State.refuse_prog (s : State) (r : Refusal) : (s.refuse r).prog = s.prog := rfl
@[simp] theorem State.refuse_params (s : State) (r : Refusal) : (s.refuse r).params = s.params := rfl
@[simp] theorem State.refuse_x (s : State) (r : Refusal) : (s.refuse r).x = s.x := rfl
@[simp] theorem State.refuse_pc (s : State) (r : Refusal) : (s.refuse r).pc = s.pc := rfl
@[simp] theorem State.refuse_mem (s : State) (r : Refusal) : (s.refuse r).mem = s.mem := rfl
@[simp] theorem State.refuse_pages (s : State) (r : Refusal) : (s.refuse r).pages = s.pages := rfl
@[simp] theorem State.refuse_status (s : State) (r : Refusal) : (s.refuse r).status = s.status := rfl
@[simp] theorem State.refuse_timedOut (s : State) (r : Refusal) : (s.refuse r).timedOut = s.timedOut := rfl
@[simp] theorem State.refuse_loadFailed (s : State) (r : Refusal) : (s.refuse r).loadFailed = s.loadFailed := rfl
@[simp] theorem State.refuse_lastEffect (s : State) (r : Refusal) : (s.refuse r).lastEffect = s.lastEffect := rfl
@[simp] theorem State.refuse_refused (s : State) (r : Refusal) : (s.refuse r).refused = some r := rfl

@[simp] theorem State.settle_prog (s : State) : (s.settle).prog = s.prog := rfl
@[simp] theorem State.settle_params (s : State) : (s.settle).params = s.params := rfl
@[simp] theorem State.settle_x (s : State) : (s.settle).x = s.x := rfl
@[simp] theorem State.settle_pc (s : State) : (s.settle).pc = s.pc := rfl
@[simp] theorem State.settle_mem (s : State) : (s.settle).mem = s.mem := rfl
@[simp] theorem State.settle_pages (s : State) : (s.settle).pages = s.pages := rfl
@[simp] theorem State.settle_status (s : State) : (s.settle).status = if s.canStep then .running else .executed := rfl
@[simp] theorem State.settle_timedOut (s : State) : (s.settle).timedOut = s.timedOut := rfl
@[simp] theorem State.settle_loadFailed (s : State) : (s.settle).loadFailed = s.loadFailed := rfl
@[simp] theorem State.settle_lastEffect (s : State) : (s.settle).lastEffect = s.lastEffect := rfl
@[simp] theorem State.settle_refused (s : State) : (s.settle).refused = s.refused := rfl

@[simp] theorem State.terminate_prog (s : State) : (s.terminate).prog = s.prog := rfl
@[simp] theorem State.terminate_params (s : State) : (s.terminate).params = s.params := rfl
@[simp] theorem State.terminate_x (s : State) : (s.terminate).x = s.x := rfl
@[simp] theorem State.terminate_pc (s : State) : (s.terminate).pc = s.pc := rfl
@[simp] theorem State.terminate_mem (s : State) : (s.terminate).mem = s.mem := rfl
@[simp] theorem State.terminate_pages (s : State) : (s.terminate).pages = s.pages := rfl
@[simp] theorem State.terminate_status (s : State) : (s.terminate).status = .executed := rfl
@[simp] theorem State.terminate_timedOut (s : State) : (s.terminate).timedOut = s.timedOut := rfl
@[simp] theorem State.terminate_loadFailed (s : State) : (s.terminate).loadFailed = s.loadFailed := rfl
@[simp] theorem State.terminate_lastEffect (s : State) : (s.terminate).lastEffect = s.lastEffect.map Effect.cleared := rfl
@[simp] theorem State.terminate_refused (s : State) : (s.terminate).refused = s.refused := rfl

@[simp] theorem State.resetSequence_prog (s : State) : (s.resetSequence).prog = s.prog := rfl
@[simp] theorem State.resetSequence_params (s : State) : (s.resetSequence).params = s.params := rfl
@[simp] theorem State.resetSequence_x (s : State) : (s.resetSequence).x = Vector.replicate 32 0 := rfl
@[simp] theorem State.resetSequence_pc (s : State) : (s.resetSequence).pc = s.prog.entry := rfl
@[simp] theorem State.resetSequence_mem (s : State) : (s.resetSequence).mem = [] := rfl
@[simp] theorem State.resetSequence_pages (s : State) : (s.resetSequence).pages = [] := rfl
@[simp] theorem State.resetSequence_status (s : State) : (s.resetSequence).status = s.status := rfl
@[simp] theorem State.resetSequence_timedOut (s : State) : (s.resetSequence).timedOut = false := rfl
@[simp] theorem State.resetSequence_loadFailed (s : State) : (s.resetSequence).loadFailed = s.loadFailed := rfl
@[simp] theorem State.resetSequence_lastEffect (s : State) : (s.resetSequence).lastEffect = none := rfl
@[simp] theorem State.resetSequence_refused (s : State) : (s.resetSequence).refused = none := rfl

/-! ### `setReg` -/

@[simp] theorem State.setReg_prog (s : State) (r : RegIdx) (v : Word) : (s.setReg r v).prog = s.prog := by
  unfold State.setReg; split <;> rfl
@[simp] theorem State.setReg_params (s : State) (r : RegIdx) (v : Word) : (s.setReg r v).params = s.params := by
  unfold State.setReg; split <;> rfl
@[simp] theorem State.setReg_pc (s : State) (r : RegIdx) (v : Word) : (s.setReg r v).pc = s.pc := by
  unfold State.setReg; split <;> rfl
@[simp] theorem State.setReg_mem (s : State) (r : RegIdx) (v : Word) : (s.setReg r v).mem = s.mem := by
  unfold State.setReg; split <;> rfl
@[simp] theorem State.setReg_pages (s : State) (r : RegIdx) (v : Word) : (s.setReg r v).pages = s.pages := by
  unfold State.setReg; split <;> rfl
@[simp] theorem State.setReg_status (s : State) (r : RegIdx) (v : Word) : (s.setReg r v).status = s.status := by
  unfold State.setReg; split <;> rfl
@[simp] theorem State.setReg_timedOut (s : State) (r : RegIdx) (v : Word) : (s.setReg r v).timedOut = s.timedOut := by
  unfold State.setReg; split <;> rfl
@[simp] theorem State.setReg_loadFailed (s : State) (r : RegIdx) (v : Word) : (s.setReg r v).loadFailed = s.loadFailed := by
  unfold State.setReg; split <;> rfl
@[simp] theorem State.setReg_lastEffect (s : State) (r : RegIdx) (v : Word) : (s.setReg r v).lastEffect = s.lastEffect := by
  unfold State.setReg; split <;> rfl
@[simp] theorem State.setReg_refused (s : State) (r : RegIdx) (v : Word) : (s.setReg r v).refused = s.refused := by
  unfold State.setReg; split <;> rfl

/-- `canStep` and `index` read the Program and the pc alone. -/
theorem State.canStep_congr {s t : State} (hp : t.prog = s.prog) (hpc : t.pc = s.pc) : t.canStep = s.canStep := by
  simp [State.canStep, hp, hpc]

theorem State.index_congr {s t : State} (hp : t.prog = s.prog) (hpc : t.pc = s.pc) : t.index = s.index := by
  simp [State.index, hp, hpc]

theorem State.reg_congr {s t : State} (h : t.x = s.x) (r : RegIdx) : t.reg r = s.reg r := by
  simp [State.reg, h]

theorem State.byteAt_congr {s t : State} (h : t.mem = s.mem) (a : Word) : t.byteAt a = s.byteAt a := by
  simp [State.byteAt, h]

@[simp] theorem State.setReg_canStep (s : State) (r : RegIdx) (v : Word) : (s.setReg r v).canStep = s.canStep :=
  State.canStep_congr (by simp) (by simp)

@[simp] theorem State.setReg_byteAt (s : State) (r : RegIdx) (v : Word) (a : Word) :
    (s.setReg r v).byteAt a = s.byteAt a :=
  State.byteAt_congr (by simp) a

@[simp] theorem State.retire_reg (s : State) (next : Word) (e : Effect) (r : RegIdx) :
    (s.retire next e).reg r = s.reg r := rfl

@[simp] theorem State.retire_byteAt (s : State) (next : Word) (e : Effect) (a : Word) :
    (s.retire next e).byteAt a = s.byteAt a := rfl

/-! ### The parameters (R7, R55) -/

/-- An instance with the default parameters marks its Effects as the default table says. -/
theorem Params.markers_default (m : Mnemonic) : Params.default.markers m = defaultMarkers m := by cases m <;> rfl

/-- Every table is a parameter: listing all its entries gives it, less the markers no table may set. -/
theorem Params.markers_of_table (hex : Bool) (f : Mnemonic → Markers) (m : Mnemonic) :
    Params.markers { acceptHexImm := hex, signedness := opcodeTable.map fun r => (r.mnemonic, f r.mnemonic) } m =
      (settableMarkers m).both (f m) := by
  cases m <;> rfl

/-! ### The register file (R32, R33) -/

/-- Register 0 reads 0 in every state (R32). -/
@[simp] theorem State.reg_zero (s : State) : s.reg 0 = 0#32 := by simp [State.reg]

/-- What a register reads after a write: the written register, unless it is register 0, and no other (R32, R33). -/
theorem State.reg_setReg (s : State) (rd r : RegIdx) (v : Word) :
    (s.setReg rd v).reg r = if r = rd ∧ r ≠ 0 then v else s.reg r := by
  by_cases hd : rd = 0
  · subst hd
    by_cases hr : r = 0 <;> simp [State.setReg, hr]
  · by_cases hr : r = 0
    · simp [hr]
    · by_cases h : r = rd
      · subst h; simp [State.setReg, State.reg, hr]
      · have h' : ¬ (rd : Nat) = (r : Nat) := fun e => h (Fin.ext e.symm)
        simp [State.setReg, State.reg, hr, hd, h, h']

/-- Register 0's own cell is never written (R33). -/
@[simp] theorem State.setReg_cell_zero (s : State) (rd : RegIdx) (v : Word) : (s.setReg rd v).x[0] = s.x[0] := by
  unfold State.setReg
  split
  · rfl
  · rename_i h
    have h' : ¬ (rd : Nat) = 0 := fun e => h (Fin.ext e)
    simp [h']

end Sys2Proof.Machine
end

