-- ==== Sys2Proof/Laws/Encoding.lean ====
section
/-! SUPPORT. The reference words: a word of each format, masked by its rows' mask, keeps its fixed bits alone; the
rows of the opcode table are pairwise disjoint (30_encoding.md R107). -/

namespace Sys2Proof

/-! ### The fixed bits of a word, by format -/

theorem wordR_masked (f7 : BitVec 7) (f3 : BitVec 3) (op : BitVec 7) (rd : RegIdx) (rs1 : RegIdx) (rs2 : RegIdx) :
    wordR f7 f3 op rd rs1 rs2 &&& 0xFE00707F#32 = wordR f7 f3 op 0 0 0 := by
  unfold wordR
  ext k hk
  simp only [BitVec.getElem_and, BitVec.getElem_or, placed, BitVec.getElem_shiftLeft, BitVec.getElem_setWidth]
  interval_cases k <;> simp [regBits]

theorem wordI_masked (f3 : BitVec 3) (op : BitVec 7) (rd : RegIdx) (rs1 : RegIdx) (imm : BitVec 12) :
    wordI f3 op rd rs1 imm &&& 0x0000707F#32 = wordI f3 op 0 0 0 := by
  unfold wordI
  ext k hk
  simp only [BitVec.getElem_and, BitVec.getElem_or, placed, BitVec.getElem_shiftLeft, BitVec.getElem_setWidth]
  interval_cases k <;> simp [regBits]

theorem wordShift_masked (f7 : BitVec 7) (f3 : BitVec 3) (op : BitVec 7) (rd : RegIdx) (rs1 : RegIdx) (sh : BitVec 5) :
    wordShift f7 f3 op rd rs1 sh &&& 0xFE00707F#32 = wordShift f7 f3 op 0 0 0 := by
  unfold wordShift
  ext k hk
  simp only [BitVec.getElem_and, BitVec.getElem_or, placed, BitVec.getElem_shiftLeft, BitVec.getElem_setWidth]
  interval_cases k <;> simp [regBits]

theorem wordS_masked (f3 : BitVec 3) (op : BitVec 7) (rs2 : RegIdx) (rs1 : RegIdx) (imm : BitVec 12) :
    wordS f3 op rs2 rs1 imm &&& 0x0000707F#32 = wordS f3 op 0 0 0 := by
  unfold wordS
  ext k hk
  simp only [BitVec.getElem_and, BitVec.getElem_or, placed, BitVec.getElem_shiftLeft, BitVec.getElem_setWidth]
  interval_cases k <;> simp [regBits]

theorem wordB_masked (f3 : BitVec 3) (op : BitVec 7) (rs1 : RegIdx) (rs2 : RegIdx) (t : Word) :
    wordB f3 op rs1 rs2 t &&& 0x0000707F#32 = wordB f3 op 0 0 0 := by
  unfold wordB
  ext k hk
  simp only [BitVec.getElem_and, BitVec.getElem_or, placed, BitVec.getElem_shiftLeft, BitVec.getElem_setWidth]
  interval_cases k <;> simp [regBits]

theorem wordU_masked (op : BitVec 7) (rd : RegIdx) (imm : BitVec 20) :
    wordU op rd imm &&& 0x0000007F#32 = wordU op 0 0 := by
  unfold wordU
  ext k hk
  simp only [BitVec.getElem_and, BitVec.getElem_or, placed, BitVec.getElem_shiftLeft, BitVec.getElem_setWidth]
  interval_cases k <;> simp [regBits]

theorem wordJ_masked (op : BitVec 7) (rd : RegIdx) (t : Word) :
    wordJ op rd t &&& 0x0000007F#32 = wordJ op 0 0 := by
  unfold wordJ
  ext k hk
  simp only [BitVec.getElem_and, BitVec.getElem_or, placed, BitVec.getElem_shiftLeft, BitVec.getElem_setWidth]
  interval_cases k <;> simp [regBits]

/-! ### The opcode table -/

/-- Any two rows differ in a bit both fix. -/
theorem opcodeTable_disjoint :
    opcodeTable.Pairwise fun r r' => (r.mask &&& r'.mask) &&& (r.pattern ^^^ r'.pattern) ≠ 0#32 := by
  decide

/-! ### The fields of a word built by the encoder (R103, R104) -/

theorem wordR_fields (f7 : BitVec 7) (f3 : BitVec 3) (op : BitVec 7) (rd rs1 rs2 : RegIdx) :
    fieldRd (wordR f7 f3 op rd rs1 rs2) = rd ∧ fieldRs1 (wordR f7 f3 op rd rs1 rs2) = rs1 ∧ fieldRs2 (wordR f7 f3 op rd rs1 rs2) = rs2 := by
  have h0 : (wordR f7 f3 op rd rs1 rs2).extractLsb' 7 5 = regBits rd := by
    ext k hk
    unfold wordR
    simp only [BitVec.getElem_extractLsb', BitVec.getLsbD_or, placed, BitVec.getLsbD_shiftLeft, BitVec.getLsbD_setWidth]
    interval_cases k <;> simp
  have h1 : (wordR f7 f3 op rd rs1 rs2).extractLsb' 15 5 = regBits rs1 := by
    ext k hk
    unfold wordR
    simp only [BitVec.getElem_extractLsb', BitVec.getLsbD_or, placed, BitVec.getLsbD_shiftLeft, BitVec.getLsbD_setWidth]
    interval_cases k <;> simp
  have h2 : (wordR f7 f3 op rd rs1 rs2).extractLsb' 20 5 = regBits rs2 := by
    ext k hk
    unfold wordR
    simp only [BitVec.getElem_extractLsb', BitVec.getLsbD_or, placed, BitVec.getLsbD_shiftLeft, BitVec.getLsbD_setWidth]
    interval_cases k <;> simp
  simp [fieldRd, fieldRs1, fieldRs2, h0, h1, h2, regBits]

theorem wordI_fields (f3 : BitVec 3) (op : BitVec 7) (rd rs1 : RegIdx) (imm : BitVec 12) :
    fieldRd (wordI f3 op rd rs1 imm) = rd ∧ fieldRs1 (wordI f3 op rd rs1 imm) = rs1 ∧ fieldImmI (wordI f3 op rd rs1 imm) = imm := by
  have h0 : (wordI f3 op rd rs1 imm).extractLsb' 7 5 = regBits rd := by
    ext k hk
    unfold wordI
    simp only [BitVec.getElem_extractLsb', BitVec.getLsbD_or, placed, BitVec.getLsbD_shiftLeft, BitVec.getLsbD_setWidth]
    interval_cases k <;> simp
  have h1 : (wordI f3 op rd rs1 imm).extractLsb' 15 5 = regBits rs1 := by
    ext k hk
    unfold wordI
    simp only [BitVec.getElem_extractLsb', BitVec.getLsbD_or, placed, BitVec.getLsbD_shiftLeft, BitVec.getLsbD_setWidth]
    interval_cases k <;> simp
  have h2 : (wordI f3 op rd rs1 imm).extractLsb' 20 12 = imm := by
    ext k hk
    unfold wordI
    simp only [BitVec.getElem_extractLsb', BitVec.getLsbD_or, placed, BitVec.getLsbD_shiftLeft, BitVec.getLsbD_setWidth]
    interval_cases k <;> simp
  simp [fieldRd, fieldRs1, fieldImmI, h0, h1, h2, regBits]

theorem wordShift_fields (f7 : BitVec 7) (f3 : BitVec 3) (op : BitVec 7) (rd rs1 : RegIdx) (sh : BitVec 5) :
    fieldRd (wordShift f7 f3 op rd rs1 sh) = rd ∧ fieldRs1 (wordShift f7 f3 op rd rs1 sh) = rs1 ∧ fieldShamt (wordShift f7 f3 op rd rs1 sh) = sh := by
  have h0 : (wordShift f7 f3 op rd rs1 sh).extractLsb' 7 5 = regBits rd := by
    ext k hk
    unfold wordShift
    simp only [BitVec.getElem_extractLsb', BitVec.getLsbD_or, placed, BitVec.getLsbD_shiftLeft, BitVec.getLsbD_setWidth]
    interval_cases k <;> simp
  have h1 : (wordShift f7 f3 op rd rs1 sh).extractLsb' 15 5 = regBits rs1 := by
    ext k hk
    unfold wordShift
    simp only [BitVec.getElem_extractLsb', BitVec.getLsbD_or, placed, BitVec.getLsbD_shiftLeft, BitVec.getLsbD_setWidth]
    interval_cases k <;> simp
  have h2 : (wordShift f7 f3 op rd rs1 sh).extractLsb' 20 5 = sh := by
    ext k hk
    unfold wordShift
    simp only [BitVec.getElem_extractLsb', BitVec.getLsbD_or, placed, BitVec.getLsbD_shiftLeft, BitVec.getLsbD_setWidth]
    interval_cases k <;> simp
  simp [fieldRd, fieldRs1, fieldShamt, h0, h1, h2, regBits]

theorem wordS_fields (f3 : BitVec 3) (op : BitVec 7) (rs2 rs1 : RegIdx) (imm : BitVec 12) :
    fieldRs2 (wordS f3 op rs2 rs1 imm) = rs2 ∧ fieldRs1 (wordS f3 op rs2 rs1 imm) = rs1 ∧ fieldImmS (wordS f3 op rs2 rs1 imm) = imm := by
  have h0 : (wordS f3 op rs2 rs1 imm).extractLsb' 20 5 = regBits rs2 := by
    ext k hk
    unfold wordS
    simp only [BitVec.getElem_extractLsb', BitVec.getLsbD_or, placed, BitVec.getLsbD_shiftLeft, BitVec.getLsbD_setWidth]
    interval_cases k <;> simp
  have h1 : (wordS f3 op rs2 rs1 imm).extractLsb' 15 5 = regBits rs1 := by
    ext k hk
    unfold wordS
    simp only [BitVec.getElem_extractLsb', BitVec.getLsbD_or, placed, BitVec.getLsbD_shiftLeft, BitVec.getLsbD_setWidth]
    interval_cases k <;> simp
  have h2 : fieldImmS (wordS f3 op rs2 rs1 imm) = imm := by
    ext k hk
    unfold fieldImmS wordS
    simp only [BitVec.getElem_or, BitVec.getElem_shiftLeft, BitVec.getElem_setWidth, BitVec.getLsbD_extractLsb',
      BitVec.getLsbD_or, placed, BitVec.getLsbD_shiftLeft, BitVec.getLsbD_setWidth]
    interval_cases k <;> simp
  simp [fieldRs2, fieldRs1, h0, h1, h2, regBits]

theorem wordU_fields (op : BitVec 7) (rd : RegIdx) (imm : BitVec 20) :
    fieldRd (wordU op rd imm) = rd ∧ fieldImmU (wordU op rd imm) = imm := by
  have h0 : (wordU op rd imm).extractLsb' 7 5 = regBits rd := by
    ext k hk
    unfold wordU
    simp only [BitVec.getElem_extractLsb', BitVec.getLsbD_or, placed, BitVec.getLsbD_shiftLeft, BitVec.getLsbD_setWidth]
    interval_cases k <;> simp
  have h1 : (wordU op rd imm).extractLsb' 12 20 = imm := by
    ext k hk
    unfold wordU
    simp only [BitVec.getElem_extractLsb', BitVec.getLsbD_or, placed, BitVec.getLsbD_shiftLeft, BitVec.getLsbD_setWidth]
    interval_cases k <;> simp
  simp [fieldRd, fieldImmU, h0, h1, regBits]

theorem wordB_fields (f3 : BitVec 3) (op : BitVec 7) (rs1 rs2 : RegIdx) (o : Word) :
    fieldRs1 (wordB f3 op rs1 rs2 o) = rs1 ∧ fieldRs2 (wordB f3 op rs1 rs2 o) = rs2 := by
  have h0 : (wordB f3 op rs1 rs2 o).extractLsb' 15 5 = regBits rs1 := by
    ext k hk
    unfold wordB
    simp only [BitVec.getElem_extractLsb', BitVec.getLsbD_or, placed, BitVec.getLsbD_shiftLeft, BitVec.getLsbD_setWidth]
    interval_cases k <;> simp
  have h1 : (wordB f3 op rs1 rs2 o).extractLsb' 20 5 = regBits rs2 := by
    ext k hk
    unfold wordB
    simp only [BitVec.getElem_extractLsb', BitVec.getLsbD_or, placed, BitVec.getLsbD_shiftLeft, BitVec.getLsbD_setWidth]
    interval_cases k <;> simp
  simp [fieldRs1, fieldRs2, h0, h1, regBits]

theorem wordJ_fields (op : BitVec 7) (rd : RegIdx) (o : Word) :
    fieldRd (wordJ op rd o) = rd := by
  have h0 : (wordJ op rd o).extractLsb' 7 5 = regBits rd := by
    ext k hk
    unfold wordJ
    simp only [BitVec.getElem_extractLsb', BitVec.getLsbD_or, placed, BitVec.getLsbD_shiftLeft, BitVec.getLsbD_setWidth]
    interval_cases k <;> simp
  simp [fieldRd, h0, regBits]

/-- The branch immediate of an encoded word: bits 12 to 1 of the offset, sign-extended (R104). -/
theorem wordB_imm (f3 : BitVec 3) (op : BitVec 7) (rs1 rs2 : RegIdx) (o : Word) :
    immB (wordB f3 op rs1 rs2 o) = ((o.extractLsb' 1 12).setWidth 13 <<< 1).signExtend 32 := by
  unfold immB
  congr 1
  ext k hk
  unfold wordB
  simp only [BitVec.getElem_or, BitVec.getElem_shiftLeft, BitVec.getElem_setWidth, BitVec.getLsbD_extractLsb',
    BitVec.getLsbD_or, placed, BitVec.getLsbD_shiftLeft, BitVec.getLsbD_setWidth]
  interval_cases k <;> simp

/-- The jump immediate of an encoded word: bits 20 to 1 of the offset, sign-extended (R104). -/
theorem wordJ_imm (op : BitVec 7) (rd : RegIdx) (o : Word) :
    immJ (wordJ op rd o) = ((o.extractLsb' 1 20).setWidth 21 <<< 1).signExtend 32 := by
  unfold immJ
  congr 1
  ext k hk
  unfold wordJ
  simp only [BitVec.getElem_or, BitVec.getElem_shiftLeft, BitVec.getElem_setWidth, BitVec.getLsbD_extractLsb',
    BitVec.getLsbD_or, placed, BitVec.getLsbD_shiftLeft, BitVec.getLsbD_setWidth]
  interval_cases k <;> simp

/-- An even offset in the branch range is its bits 12 to 1, sign-extended (R106). -/
theorem sext_bits12 {o : Word} (h1 : -4096 ≤ o.toInt ∧ o.toInt ≤ 4094) (h2 : o.toNat % 2 = 0) :
    ((o.extractLsb' 1 12).setWidth 13 <<< 1).signExtend 32 = o := by
  apply BitVec.eq_of_toInt_eq
  have := o.isLt
  rw [BitVec.toInt_signExtend_of_le (by omega), BitVec.toInt_eq_toNat_cond, BitVec.toNat_shiftLeft,
    BitVec.toNat_setWidth, BitVec.extractLsb'_toNat, Nat.shiftLeft_eq, Nat.shiftRight_eq_div_pow]
  rw [BitVec.toInt_eq_toNat_cond] at *
  split_ifs at * <;> omega

/-- An even offset in the `jal` range is its bits 20 to 1, sign-extended (R106). -/
theorem sext_bits20 {o : Word} (h1 : -1048576 ≤ o.toInt ∧ o.toInt ≤ 1048574) (h2 : o.toNat % 2 = 0) :
    ((o.extractLsb' 1 20).setWidth 21 <<< 1).signExtend 32 = o := by
  apply BitVec.eq_of_toInt_eq
  have := o.isLt
  rw [BitVec.toInt_signExtend_of_le (by omega), BitVec.toInt_eq_toNat_cond, BitVec.toNat_shiftLeft,
    BitVec.toNat_setWidth, BitVec.extractLsb'_toNat, Nat.shiftLeft_eq, Nat.shiftRight_eq_div_pow]
  rw [BitVec.toInt_eq_toNat_cond] at *
  split_ifs at * <;> omega

/-! ### A word built from its own fields -/

/-- The fixed bits of a word that matches a row, by field. -/
theorem extract_of_match {w m p : Word} (h : w &&& m = p) (lo n : Nat) (hm : m.extractLsb' lo n = BitVec.allOnes n) :
    w.extractLsb' lo n = p.extractLsb' lo n := by
  rw [← h, BitVec.extractLsb'_and, hm, BitVec.and_allOnes]

theorem regBits_fieldRd (w : Word) : regBits (fieldRd w) = w.extractLsb' 7 5 := rfl
theorem regBits_fieldRs1 (w : Word) : regBits (fieldRs1 w) = w.extractLsb' 15 5 := rfl
theorem regBits_fieldRs2 (w : Word) : regBits (fieldRs2 w) = w.extractLsb' 20 5 := rfl

theorem wordR_of_fields (w : Word) :
    wordR (w.extractLsb' 25 7) (w.extractLsb' 12 3) (w.extractLsb' 0 7) (fieldRd w) (fieldRs1 w) (fieldRs2 w) = w := by
  unfold wordR
  simp only [regBits_fieldRd, regBits_fieldRs1, regBits_fieldRs2]
  ext k hk
  simp only [BitVec.getElem_or, placed, BitVec.getElem_shiftLeft, BitVec.getElem_setWidth, BitVec.getLsbD_extractLsb']
  interval_cases k <;> simp

theorem wordI_of_fields (w : Word) :
    wordI (w.extractLsb' 12 3) (w.extractLsb' 0 7) (fieldRd w) (fieldRs1 w) (fieldImmI w) = w := by
  unfold wordI fieldImmI
  simp only [regBits_fieldRd, regBits_fieldRs1]
  ext k hk
  simp only [BitVec.getElem_or, placed, BitVec.getElem_shiftLeft, BitVec.getElem_setWidth, BitVec.getLsbD_extractLsb']
  interval_cases k <;> simp

theorem wordShift_of_fields (w : Word) :
    wordShift (w.extractLsb' 25 7) (w.extractLsb' 12 3) (w.extractLsb' 0 7) (fieldRd w) (fieldRs1 w) (fieldShamt w) = w := by
  unfold wordShift fieldShamt
  simp only [regBits_fieldRd, regBits_fieldRs1]
  ext k hk
  simp only [BitVec.getElem_or, placed, BitVec.getElem_shiftLeft, BitVec.getElem_setWidth, BitVec.getLsbD_extractLsb']
  interval_cases k <;> simp

theorem wordS_of_fields (w : Word) :
    wordS (w.extractLsb' 12 3) (w.extractLsb' 0 7) (fieldRs2 w) (fieldRs1 w) (fieldImmS w) = w := by
  unfold wordS fieldImmS
  simp only [regBits_fieldRs2, regBits_fieldRs1]
  ext k hk
  simp only [BitVec.getElem_or, placed, BitVec.getElem_shiftLeft, BitVec.getElem_setWidth, BitVec.getLsbD_extractLsb', BitVec.getLsbD_or, BitVec.getLsbD_shiftLeft, BitVec.getLsbD_setWidth]
  interval_cases k <;> simp

theorem wordU_of_fields (w : Word) :
    wordU (w.extractLsb' 0 7) (fieldRd w) (fieldImmU w) = w := by
  unfold wordU fieldImmU
  simp only [regBits_fieldRd]
  ext k hk
  simp only [BitVec.getElem_or, placed, BitVec.getElem_shiftLeft, BitVec.getElem_setWidth, BitVec.getLsbD_extractLsb']
  interval_cases k <;> simp

theorem wordB_of_fields (w : Word) :
    wordB (w.extractLsb' 12 3) (w.extractLsb' 0 7) (fieldRs1 w) (fieldRs2 w) (immB w) = w := by
  unfold wordB immB
  simp only [regBits_fieldRs1, regBits_fieldRs2]
  ext k hk
  simp only [BitVec.getElem_or, placed, BitVec.getElem_shiftLeft, BitVec.getElem_setWidth, BitVec.getLsbD_extractLsb', BitVec.getLsbD_or, BitVec.getLsbD_shiftLeft, BitVec.getLsbD_setWidth, BitVec.getLsbD_signExtend, BitVec.msb_eq_getLsbD_last]
  interval_cases k <;> simp

theorem wordJ_of_fields (w : Word) :
    wordJ (w.extractLsb' 0 7) (fieldRd w) (immJ w) = w := by
  unfold wordJ immJ
  simp only [regBits_fieldRd]
  ext k hk
  simp only [BitVec.getElem_or, placed, BitVec.getElem_shiftLeft, BitVec.getElem_setWidth, BitVec.getLsbD_extractLsb', BitVec.getLsbD_or, BitVec.getLsbD_shiftLeft, BitVec.getLsbD_setWidth, BitVec.getLsbD_signExtend, BitVec.msb_eq_getLsbD_last]
  interval_cases k <;> simp

end Sys2Proof
end

