-- ==== Sys2Proof/Laws/Memory.lean ====
section
/-! SUPPORT. The laws of the data memory and of the touched-page set: canonical form, read after write, and what
`memRead` and `memWrite` do (20_memory.md). -/

namespace Sys2Proof.Machine

/-! ### The byte list -/

theorem Memory.wf_nil : Memory.wf [] := by simp [Memory.wf]

theorem Memory.wf_cons {c : Host.Cell} {m : List Host.Cell} :
    Memory.wf (c :: m) ↔ (∀ d ∈ m, c.1 < d.1) ∧ (c.1 < 0x100000000 ∧ c.2 ≠ 0#8) ∧ Memory.wf m := by
  simp only [Memory.wf, List.pairwise_cons, List.forall_mem_cons]
  tauto

/-- An address below every listed one reads 0. -/
theorem Memory.read_of_lt {m : List Host.Cell} {a : Nat} (h : ∀ d ∈ m, a < d.1) : Memory.read m a = 0#8 := by
  induction m with
  | nil => rfl
  | cons c m ih =>
    have hc := h c (by simp)
    simp only [Memory.read, if_neg (by omega : ¬ a = c.1)]
    exact ih fun d hd => h d (by simp [hd])

/-- An address that reads a non-zero byte is listed. -/
theorem Memory.mem_of_read_ne {m : List Host.Cell} {a : Nat} (h : Memory.read m a ≠ 0#8) : (a, Memory.read m a) ∈ m := by
  induction m with
  | nil => exact absurd rfl h
  | cons c m ih =>
    by_cases hc : a = c.1
    · simp [Memory.read, hc]
    · simp only [Memory.read, if_neg hc] at h ⊢
      exact List.mem_cons_of_mem _ (ih h)

/-- Every entry after a write was there before or is the written one. -/
theorem Memory.mem_write {m : List Host.Cell} {a : Nat} {v : Byte} {d : Host.Cell} (h : d ∈ Memory.write m a v) :
    d ∈ m ∨ (d = (a, v) ∧ v ≠ 0#8) := by
  induction m with
  | nil =>
    by_cases hv : v = 0#8
    · simp [Memory.write, hv] at h
    · simp [Memory.write, hv] at h; exact .inr ⟨h, hv⟩
  | cons c m ih =>
    simp only [Memory.write] at h
    by_cases h1 : a < c.1
    · by_cases hv : v = 0#8
      · simp [h1, hv] at h; simp [h]
      · simp [h1, hv] at h
        rcases h with h | h | h
        · exact .inr ⟨h, hv⟩
        · simp [h]
        · simp [h]
    · by_cases h2 : a = c.1
      · by_cases hv : v = 0#8
        · simp [h2, hv] at h; simp [h]
        · simp [h2, hv] at h
          rcases h with h | h
          · exact .inr ⟨by rw [h, h2], hv⟩
          · simp [h]
      · simp only [h1, h2, if_false, List.mem_cons] at h
        rcases h with h | h
        · simp [h]
        · rcases ih h with h | h
          · simp [h]
          · exact .inr h

/-- A write keeps the canonical form. -/
theorem Memory.write_wf {m : List Host.Cell} {a : Nat} {v : Byte} (hm : Memory.wf m) (ha : a < 0x100000000) :
    Memory.wf (Memory.write m a v) := by
  induction m with
  | nil =>
    by_cases hv : v = 0#8
    · simpa [Memory.write, hv] using hm
    · simp [Memory.write, Memory.wf, hv, ha]
  | cons c m ih =>
    obtain ⟨hlt, hc, hm'⟩ := Memory.wf_cons.mp hm
    simp only [Memory.write]
    by_cases h1 : a < c.1
    · by_cases hv : v = 0#8
      · simpa [h1, hv] using hm
      · simp only [h1, hv, if_true, if_false]
        refine Memory.wf_cons.mpr ⟨?_, ⟨ha, hv⟩, hm⟩
        intro d hd
        rcases List.mem_cons.mp hd with rfl | hd
        · exact h1
        · exact lt_trans h1 (hlt d hd)
    · by_cases h2 : a = c.1
      · by_cases hv : v = 0#8
        · simpa [h2, hv] using hm'
        · simp only [h2, hv, lt_irrefl, if_true, if_false]
          exact Memory.wf_cons.mpr ⟨hlt, ⟨hc.1, hv⟩, hm'⟩
      · simp only [h1, h2, if_false]
        refine Memory.wf_cons.mpr ⟨?_, hc, ih hm'⟩
        intro d hd
        rcases Memory.mem_write hd with hd | ⟨rfl, -⟩
        · exact hlt d hd
        · show c.1 < a; omega

/-- A read after a write: the written byte at its address, every other address as before (R72, R73). -/
theorem Memory.read_write {m : List Host.Cell} (hm : Memory.wf m) (a b : Nat) (v : Byte) :
    Memory.read (Memory.write m a v) b = if b = a then v else Memory.read m b := by
  induction m with
  | nil =>
    by_cases hv : v = 0#8 <;> by_cases hb : b = a <;> simp [Memory.write, Memory.read, hv, hb]
  | cons c m ih =>
    obtain ⟨hlt, hc, hm'⟩ := Memory.wf_cons.mp hm
    simp only [Memory.write]
    by_cases h1 : a < c.1
    · have hz : Memory.read (c :: m) a = 0#8 := by
        refine Memory.read_of_lt fun d hd => ?_
        rcases List.mem_cons.mp hd with rfl | hd
        · exact h1
        · exact lt_trans h1 (hlt d hd)
      by_cases hv : v = 0#8
      · simp only [h1, hv, if_true]
        by_cases hb : b = a
        · simp [hb, hz]
        · simp [hb]
      · simp only [h1, hv, if_true, if_false]
        by_cases hb : b = a <;> simp [Memory.read, hb]
    · by_cases h2 : a = c.1
      · by_cases hv : v = 0#8
        · simp only [h2, hv, lt_irrefl, if_true, if_false]
          by_cases hb : b = c.1
          · simp only [hb, if_true]; exact Memory.read_of_lt hlt
          · simp [Memory.read, hb]
        · simp only [h2, hv, lt_irrefl, if_true, if_false]
          by_cases hb : b = c.1 <;> simp [Memory.read, hb]
      · simp only [h1, h2, if_false]
        by_cases hb : b = c.1
        · have : ¬ b = a := by omega
          simp [Memory.read, hb]
          intro h; omega
        · simp [Memory.read, hb, ih hm']

/-! ### The touched-page set -/

theorem Pages.mem_insert {ps : List Nat} {b c : Nat} : c ∈ Pages.insert ps b ↔ c ∈ ps ∨ c = b := by
  induction ps with
  | nil => simp [Pages.insert]
  | cons d ps ih =>
    simp only [Pages.insert]
    by_cases h1 : b < d
    · simp only [h1, if_true, List.mem_cons]; tauto
    · by_cases h2 : b = d
      · subst h2; simp only [lt_irrefl, if_true, if_false, List.mem_cons]; tauto
      · simp only [h1, h2, if_false, List.mem_cons, ih]; tauto

theorem Pages.insert_wf {ps : List Nat} {b : Nat} (h : Pages.wf ps) (hb : b % 256 = 0 ∧ b < 0x100000000) :
    Pages.wf (Pages.insert ps b) := by
  refine ⟨?_, fun c hc => ?_⟩
  · obtain ⟨hp, -⟩ := h
    induction ps with
    | nil => simp [Pages.insert]
    | cons d ps ih =>
      obtain ⟨hd, hp'⟩ := List.pairwise_cons.mp hp
      simp only [Pages.insert]
      by_cases h1 : b < d
      · simp only [h1, if_true]
        refine List.pairwise_cons.mpr ⟨fun c hc => ?_, hp⟩
        rcases List.mem_cons.mp hc with rfl | hc
        · exact h1
        · exact lt_trans h1 (hd c hc)
      · by_cases h2 : b = d
        · simpa [h2] using hp
        · simp only [h1, h2, if_false]
          refine List.pairwise_cons.mpr ⟨fun c hc => ?_, ih hp'⟩
          rcases Pages.mem_insert.mp hc with hc | rfl
          · exact hd c hc
          · omega
  · rcases Pages.mem_insert.mp hc with hc | rfl
    · exact h.2 c hc
    · exact hb

/-- A page base is a multiple of 256 inside the address space. -/
theorem pageBase_eq (a : Word) : pageBase a = a.toNat / 256 * 256 := by
  have h : a &&& 0xFFFFFF00#32 = (a >>> 8) <<< 8 := by
    ext i hi
    simp only [BitVec.getElem_and, BitVec.getElem_shiftLeft, BitVec.getElem_ushiftRight]
    interval_cases i <;> simp [BitVec.getLsbD_eq_getElem]
  unfold pageBase
  rw [show (0xFFFFFF00 : Word) = 0xFFFFFF00#32 from rfl, h]
  simp [BitVec.toNat_shiftLeft, Nat.shiftRight_eq_div_pow, Nat.shiftLeft_eq]
  omega

theorem pageBase_wf (a : Word) : pageBase a % 256 = 0 ∧ pageBase a < 0x100000000 := by
  rw [pageBase_eq]
  have := a.isLt
  omega

/-! ### The multi-byte primitives (R75, R76) -/

section fields
variable (s : State) (A : Word) (n : Nat)

@[simp] theorem State.memRead_prog : (s.memRead A n).2.prog = s.prog := by
  induction n generalizing s A with
  | zero => rfl
  | succ n ih => simp [State.memRead, State.readByte, ih]

@[simp] theorem State.memRead_params : (s.memRead A n).2.params = s.params := by
  induction n generalizing s A with
  | zero => rfl
  | succ n ih => simp [State.memRead, State.readByte, ih]

@[simp] theorem State.memRead_x : (s.memRead A n).2.x = s.x := by
  induction n generalizing s A with
  | zero => rfl
  | succ n ih => simp [State.memRead, State.readByte, ih]

@[simp] theorem State.memRead_pc : (s.memRead A n).2.pc = s.pc := by
  induction n generalizing s A with
  | zero => rfl
  | succ n ih => simp [State.memRead, State.readByte, ih]

@[simp] theorem State.memRead_mem : (s.memRead A n).2.mem = s.mem := by
  induction n generalizing s A with
  | zero => rfl
  | succ n ih => simp [State.memRead, State.readByte, ih]

@[simp] theorem State.memRead_status : (s.memRead A n).2.status = s.status := by
  induction n generalizing s A with
  | zero => rfl
  | succ n ih => simp [State.memRead, State.readByte, ih]

@[simp] theorem State.memRead_timedOut : (s.memRead A n).2.timedOut = s.timedOut := by
  induction n generalizing s A with
  | zero => rfl
  | succ n ih => simp [State.memRead, State.readByte, ih]

@[simp] theorem State.memRead_loadFailed : (s.memRead A n).2.loadFailed = s.loadFailed := by
  induction n generalizing s A with
  | zero => rfl
  | succ n ih => simp [State.memRead, State.readByte, ih]

@[simp] theorem State.memRead_lastEffect : (s.memRead A n).2.lastEffect = s.lastEffect := by
  induction n generalizing s A with
  | zero => rfl
  | succ n ih => simp [State.memRead, State.readByte, ih]

@[simp] theorem State.memRead_refused : (s.memRead A n).2.refused = s.refused := by
  induction n generalizing s A with
  | zero => rfl
  | succ n ih => simp [State.memRead, State.readByte, ih]

@[simp] theorem State.memRead_reg (r : RegIdx) : (s.memRead A n).2.reg r = s.reg r :=
  State.reg_congr (by simp) r

variable (v : Word)

@[simp] theorem State.memWrite_prog : (s.memWrite A n v).prog = s.prog := by
  induction n generalizing s A v with
  | zero => rfl
  | succ n ih => simp [State.memWrite, ih]

@[simp] theorem State.memWrite_params : (s.memWrite A n v).params = s.params := by
  induction n generalizing s A v with
  | zero => rfl
  | succ n ih => simp [State.memWrite, ih]

@[simp] theorem State.memWrite_x : (s.memWrite A n v).x = s.x := by
  induction n generalizing s A v with
  | zero => rfl
  | succ n ih => simp [State.memWrite, ih]

@[simp] theorem State.memWrite_pc : (s.memWrite A n v).pc = s.pc := by
  induction n generalizing s A v with
  | zero => rfl
  | succ n ih => simp [State.memWrite, ih]

@[simp] theorem State.memWrite_status : (s.memWrite A n v).status = s.status := by
  induction n generalizing s A v with
  | zero => rfl
  | succ n ih => simp [State.memWrite, ih]

@[simp] theorem State.memWrite_timedOut : (s.memWrite A n v).timedOut = s.timedOut := by
  induction n generalizing s A v with
  | zero => rfl
  | succ n ih => simp [State.memWrite, ih]

@[simp] theorem State.memWrite_loadFailed : (s.memWrite A n v).loadFailed = s.loadFailed := by
  induction n generalizing s A v with
  | zero => rfl
  | succ n ih => simp [State.memWrite, ih]

@[simp] theorem State.memWrite_lastEffect : (s.memWrite A n v).lastEffect = s.lastEffect := by
  induction n generalizing s A v with
  | zero => rfl
  | succ n ih => simp [State.memWrite, ih]

@[simp] theorem State.memWrite_refused : (s.memWrite A n v).refused = s.refused := by
  induction n generalizing s A v with
  | zero => rfl
  | succ n ih => simp [State.memWrite, ih]

end fields

/-- The pages after an access: those before, and the pages of its bytes (R72, R73). -/
theorem State.mem_pages_memRead (s : State) (A : Word) (n : Nat) (b : Nat) :
    b ∈ (s.memRead A n).2.pages ↔ b ∈ s.pages ∨ ∃ a ∈ byteAddresses A n, b = pageBase a := by
  induction n generalizing s A with
  | zero => simp [State.memRead, byteAddresses]
  | succ n ih =>
    simp only [State.memRead, State.readByte, ih, State.touch_pages, Pages.mem_insert, byteAddresses,
      List.exists_mem_cons_iff]
    tauto

theorem State.mem_pages_memWrite (s : State) (A : Word) (n : Nat) (v : Word) (b : Nat) :
    b ∈ (s.memWrite A n v).pages ↔ b ∈ s.pages ∨ ∃ a ∈ byteAddresses A n, b = pageBase a := by
  induction n generalizing s A v with
  | zero => simp [State.memWrite, byteAddresses]
  | succ n ih =>
    simp only [State.memWrite, ih, State.writeByte_pages, Pages.mem_insert, byteAddresses,
      List.exists_mem_cons_iff]
    tauto

theorem State.memRead_pages_wf {s : State} (h : Pages.wf s.pages) (A : Word) (n : Nat) :
    Pages.wf (s.memRead A n).2.pages := by
  induction n generalizing s A with
  | zero => exact h
  | succ n ih =>
    simp only [State.memRead, State.readByte]
    exact ih (Pages.insert_wf h (pageBase_wf A)) _

theorem State.memWrite_pages_wf {s : State} (h : Pages.wf s.pages) (A : Word) (n : Nat) (v : Word) :
    Pages.wf (s.memWrite A n v).pages := by
  induction n generalizing s A v with
  | zero => exact h
  | succ n ih => exact ih (s := s.writeByte A (v.setWidth 8)) (Pages.insert_wf h (pageBase_wf A)) _ _

/-- `memWrite` keeps the canonical form of memory. -/
theorem State.memWrite_wf {s : State} (h : Memory.wf s.mem) (A : Word) (n : Nat) (v : Word) :
    Memory.wf (s.memWrite A n v).mem := by
  induction n generalizing s A v with
  | zero => exact h
  | succ n ih => exact ih (s := s.writeByte A (v.setWidth 8)) (Memory.write_wf h A.isLt) _ _

/-- One byte after one `write` (R73). -/
theorem State.byteAt_writeByte {s : State} (h : Memory.wf s.mem) (a b : Word) (v : Byte) :
    (s.writeByte a v).byteAt b = if b = a then v else s.byteAt b := by
  simp only [State.byteAt, State.writeByte_mem, Memory.read_write h, BitVec.toNat_inj]

/-- A byte outside the written ones reads as before (R76). -/
theorem State.byteAt_memWrite_of_notMem {s : State} (h : Memory.wf s.mem) {A : Word} {n : Nat} {v b : Word}
    (hb : b ∉ byteAddresses A n) : (s.memWrite A n v).byteAt b = s.byteAt b := by
  induction n generalizing s A v with
  | zero => rfl
  | succ n ih =>
    simp only [byteAddresses, List.mem_cons, not_or] at hb
    rw [State.memWrite, ih (s := s.writeByte A (v.setWidth 8)) (Memory.write_wf h A.isLt) hb.2,
      State.byteAt_writeByte h, if_neg hb.1]

/-- The addresses of an access, by offset (R57). -/
theorem mem_byteAddresses {A a : Word} {n : Nat} :
    a ∈ byteAddresses A n ↔ ∃ i, i < n ∧ a = A + BitVec.ofNat 32 i := by
  induction n generalizing A with
  | zero => simp [byteAddresses]
  | succ n ih =>
    simp only [byteAddresses, List.mem_cons, ih]
    constructor
    · rintro (rfl | ⟨i, hi, rfl⟩)
      · exact ⟨0, by omega, by simp⟩
      · refine ⟨i + 1, by omega, ?_⟩
        rw [BitVec.add_assoc]; congr 1
        apply BitVec.eq_of_toNat_eq; simp; omega
    · rintro ⟨i, hi, rfl⟩
      cases i with
      | zero => left; simp
      | succ i =>
        right; refine ⟨i, by omega, ?_⟩
        rw [BitVec.add_assoc]; congr 1
        apply BitVec.eq_of_toNat_eq; simp; omega

/-- The byte `MemWrite` leaves at offset `i` (R76). -/
theorem State.byteAt_memWrite {s : State} (h : Memory.wf s.mem) (A v : Word) {n i : Nat} (hn : n ≤ 4) (hi : i < n) :
    (s.memWrite A n v).byteAt (A + BitVec.ofNat 32 i) = (v >>> (8 * i)).setWidth 8 := by
  induction n generalizing s A v i with
  | zero => omega
  | succ n ih =>
    have hw : Memory.wf (s.writeByte A (v.setWidth 8)).mem := Memory.write_wf h A.isLt
    cases i with
    | zero =>
      have hb : A + BitVec.ofNat 32 0 ∉ byteAddresses (A + 1) n := by
        rw [mem_byteAddresses]
        rintro ⟨j, hj, e⟩
        have := congrArg BitVec.toNat e
        have hA := A.isLt
        simp at this; omega
      rw [State.memWrite, State.byteAt_memWrite_of_notMem hw hb, State.byteAt_writeByte h]
      simp
    | succ i =>
      have e : A + BitVec.ofNat 32 (i + 1) = A + 1 + BitVec.ofNat 32 i := by
        rw [BitVec.add_assoc]; congr 1
        apply BitVec.eq_of_toNat_eq; simp; omega
      rw [State.memWrite, e, ih hw (A + 1) (v >>> 8) (by omega) (by omega)]
      congr 1
      rw [← BitVec.shiftRight_add]
      congr 1; omega

end Sys2Proof.Machine
end

