-- ==== Sys2Proof/Laws/Exec.lean ====
section
/-! SUPPORT. One specification lemma per shared operation of the meanings (`writeResult`, `jumpTo`, `branchIf`,
`load`, `store`): everything it can do. Proofs about an instruction cite these and never unfold a meaning further. -/

namespace Sys2Proof.Machine

/-! ### `writeResult` (R151) -/

section writeResult
variable (s : State) (m : Mnemonic) (rd : RegIdx) (rs1 rs2 : Option RegIdx) (v : Word)

@[simp] theorem State.writeResult_prog : (s.writeResult m rd rs1 rs2 v).prog = s.prog := by simp [State.writeResult]
@[simp] theorem State.writeResult_pc : (s.writeResult m rd rs1 rs2 v).pc = s.pc + 4#32 := by
  simp [State.writeResult, State.nextPc]
@[simp] theorem State.writeResult_mem : (s.writeResult m rd rs1 rs2 v).mem = s.mem := by simp [State.writeResult]
@[simp] theorem State.writeResult_pages : (s.writeResult m rd rs1 rs2 v).pages = s.pages := by
  simp [State.writeResult]
@[simp] theorem State.writeResult_lastEffect :
    (s.writeResult m rd rs1 rs2 v).lastEffect = some (s.plainEffect m (some rd) rs1 rs2) := rfl
@[simp] theorem State.writeResult_cell_zero : (s.writeResult m rd rs1 rs2 v).x[0] = s.x[0] := by
  simp [State.writeResult]

theorem State.writeResult_spec : WritesRegister s (s.writeResult m rd rs1 rs2 v) rd v (s.pc + 4) := by
  refine ⟨fun r => ?_, by simp, ⟨fun a => by simp [State.byteAt], by simp⟩, by simp [State.writeResult, ControlKept]⟩
  simp [State.writeResult, State.reg_setReg]

end writeResult

/-! ### `jumpTo` (R204, R205) -/

section jumpTo
variable (s : State) (m : Mnemonic) (rd : RegIdx) (rs1 : Option RegIdx) (target : Word)

@[simp] theorem State.jumpTo_prog : (s.jumpTo m rd rs1 target).prog = s.prog := by simp [State.jumpTo]
@[simp] theorem State.jumpTo_pc : (s.jumpTo m rd rs1 target).pc = target := by simp [State.jumpTo]
@[simp] theorem State.jumpTo_mem : (s.jumpTo m rd rs1 target).mem = s.mem := by simp [State.jumpTo]
@[simp] theorem State.jumpTo_pages : (s.jumpTo m rd rs1 target).pages = s.pages := by simp [State.jumpTo]
@[simp] theorem State.jumpTo_lastEffect :
    (s.jumpTo m rd rs1 target).lastEffect = some (s.jumpEffect m (some rd) rs1 none target) := rfl
@[simp] theorem State.jumpTo_cell_zero : (s.jumpTo m rd rs1 target).x[0] = s.x[0] := by simp [State.jumpTo]

theorem State.jumpTo_spec : WritesRegister s (s.jumpTo m rd rs1 target) rd (s.pc + 4) target := by
  refine ⟨fun r => ?_, by simp, ⟨fun a => by simp [State.byteAt], by simp⟩, by simp [State.jumpTo, ControlKept]⟩
  simp [State.jumpTo, State.nextPc, State.reg_setReg]

end jumpTo

/-! ### `branchIf` (41_control_transfer.md section 3) -/

section branchIf
variable (s : State) (m : Mnemonic) (rs1 rs2 : RegIdx) (taken : Bool) (target : Word)

@[simp] theorem State.branchIf_prog : (s.branchIf m rs1 rs2 taken target).prog = s.prog := by
  cases taken <;> rfl
@[simp] theorem State.branchIf_x : (s.branchIf m rs1 rs2 taken target).x = s.x := by
  cases taken <;> rfl
@[simp] theorem State.branchIf_pc :
    (s.branchIf m rs1 rs2 taken target).pc = if taken then target else s.pc + 4#32 := by
  cases taken <;> rfl
@[simp] theorem State.branchIf_mem : (s.branchIf m rs1 rs2 taken target).mem = s.mem := by
  cases taken <;> rfl
@[simp] theorem State.branchIf_pages : (s.branchIf m rs1 rs2 taken target).pages = s.pages := by
  cases taken <;> rfl
@[simp] theorem State.branchIf_lastEffect :
    (s.branchIf m rs1 rs2 taken target).lastEffect =
      some (if taken then s.jumpEffect m none (some rs1) (some rs2) target
        else s.plainEffect m none (some rs1) (some rs2)) := by
  cases taken <;> rfl

theorem State.branchIf_spec :
    OnlyMovesPc s (s.branchIf m rs1 rs2 taken target) (if taken then target else s.pc + 4) := by
  refine ⟨fun r => by simp [State.reg], by simp, ⟨fun a => by simp [State.byteAt], by simp⟩, ?_⟩
  cases taken <;> simp [State.branchIf, ControlKept]

end branchIf

/-! ### `load` and `store` (R232) -/

section load
variable (s : State) (m : Mnemonic) (n : Nat) (extend : Word → Word) (rd rs1 : RegIdx) (imm : BitVec 12)

@[simp] theorem State.load_prog : (s.load m n extend rd rs1 imm).prog = s.prog := by simp [State.load]
@[simp] theorem State.load_pc : (s.load m n extend rd rs1 imm).pc = s.pc + 4#32 := by
  simp [State.load, State.nextPc]
@[simp] theorem State.load_mem : (s.load m n extend rd rs1 imm).mem = s.mem := by simp [State.load]
@[simp] theorem State.load_pages :
    (s.load m n extend rd rs1 imm).pages = (s.memRead (s.effectiveAddress rs1 imm) n).2.pages := by
  simp [State.load]
@[simp] theorem State.load_lastEffect :
    (s.load m n extend rd rs1 imm).lastEffect =
      some { s.plainEffect m (some rd) (some rs1) none with
        reads := byteAddresses (s.effectiveAddress rs1 imm) n } := rfl
@[simp] theorem State.load_cell_zero : (s.load m n extend rd rs1 imm).x[0] = s.x[0] := by simp [State.load]

theorem State.load_spec :
    LoadsRegister s (s.load m n extend rd rs1 imm) rd (extend (s.memRead (s.effectiveAddress rs1 imm) n).1)
      (s.effectiveAddress rs1 imm) n := by
  refine ⟨fun r => ?_, by simp, fun a => by simp [State.byteAt], fun b => ?_, by simp [State.load, ControlKept]⟩
  · simp [State.load, State.reg_setReg]
  · rw [State.load_pages, State.mem_pages_memRead]
    simp [mem_byteAddresses]

end load

section store
variable (s : State) (m : Mnemonic) (n : Nat) (rs2 rs1 : RegIdx) (imm : BitVec 12)

@[simp] theorem State.store_prog : (s.store m n rs2 rs1 imm).prog = s.prog := by simp [State.store]
@[simp] theorem State.store_x : (s.store m n rs2 rs1 imm).x = s.x := by simp [State.store]
@[simp] theorem State.store_pc : (s.store m n rs2 rs1 imm).pc = s.pc + 4#32 := by simp [State.store, State.nextPc]
@[simp] theorem State.store_mem :
    (s.store m n rs2 rs1 imm).mem = (s.memWrite (s.effectiveAddress rs1 imm) n (s.reg rs2)).mem := rfl
@[simp] theorem State.store_pages :
    (s.store m n rs2 rs1 imm).pages = (s.memWrite (s.effectiveAddress rs1 imm) n (s.reg rs2)).pages := rfl
@[simp] theorem State.store_lastEffect :
    (s.store m n rs2 rs1 imm).lastEffect =
      some { s.plainEffect m none (some rs1) (some rs2) with
        writes := byteAddresses (s.effectiveAddress rs1 imm) n } := rfl

theorem State.store_spec (hm : Memory.wf s.mem) (hn : n ≤ 4) :
    StoresBytes s (s.store m n rs2 rs1 imm) (s.reg rs2) (s.effectiveAddress rs1 imm) n := by
  refine ⟨fun i hi => ?_, fun a ha => ?_, fun r => by simp [State.reg], by simp, fun b => ?_, by simp [State.store, ControlKept]⟩
  · show ((s.memWrite (s.effectiveAddress rs1 imm) n (s.reg rs2)).byteAt _).toNat = _
    rw [State.byteAt_memWrite hm _ _ hn hi]
    simp [Nat.shiftRight_eq_div_pow, Nat.pow_mul]
  · show (s.memWrite (s.effectiveAddress rs1 imm) n (s.reg rs2)).byteAt a = _
    refine State.byteAt_memWrite_of_notMem hm fun h => ?_
    obtain ⟨i, hi, e⟩ := mem_byteAddresses.mp h
    exact ha i hi e
  · rw [State.store_pages, State.mem_pages_memWrite]
    simp [mem_byteAddresses]

end store

/-! ### Every instruction -/

/-- What one instruction can do: it answers a next state, built by one of the shared operations. -/
theorem exec_cases (i : Instr) (s : State) :
    (∃ m rd rs1 rs2 v, exec i s = .next (s.writeResult m rd rs1 rs2 v) ∧ i.destination = some rd ∧
      i.source1 = rs1 ∧ i.source2 = rs2 ∧ i.loadAccess = none ∧ i.storeAccess = none ∧
      i.transfersControl = false ∧ i.target = none) ∨
    (∃ m rd rs1 target, exec i s = .next (s.jumpTo m rd rs1 target) ∧ i.destination = some rd ∧
      i.source1 = rs1 ∧ i.source2 = none ∧ i.loadAccess = none ∧ i.storeAccess = none ∧
      i.transfersControl = true ∧ (i.target = some target ∨ i.target = none)) ∨
    (∃ m rs1 rs2 taken target, exec i s = .next (s.branchIf m rs1 rs2 taken target) ∧ i.destination = none ∧
      i.source1 = some rs1 ∧ i.source2 = some rs2 ∧ i.loadAccess = none ∧ i.storeAccess = none ∧
      i.transfersControl = true ∧ i.target = some target) ∨
    (∃ m n extend rd rs1 imm, exec i s = .next (s.load m n extend rd rs1 imm) ∧ i.destination = some rd ∧
      i.source1 = some rs1 ∧ i.source2 = none ∧ i.loadAccess = some (rs1, imm, n) ∧ i.storeAccess = none ∧
      i.transfersControl = false ∧ i.target = none) ∨
    (∃ m n rs2 rs1 imm, exec i s = .next (s.store m n rs2 rs1 imm) ∧ i.destination = none ∧
      i.source1 = some rs1 ∧ i.source2 = some rs2 ∧ i.loadAccess = none ∧
      i.storeAccess = some (rs1, imm, n) ∧ i.transfersControl = false ∧ i.target = none ∧ n ≤ 4) := by
  cases i
  case lb | lh | lw | lbu | lhu =>
    exact .inr (.inr (.inr (.inl ⟨_, _, _, _, _, _, rfl, rfl, rfl, rfl, rfl, rfl, rfl, rfl⟩)))
  case sb | sh | sw =>
    exact .inr (.inr (.inr (.inr ⟨_, _, _, _, _, rfl, rfl, rfl, rfl, rfl, rfl, rfl, rfl, by omega⟩)))
  case beq | bne | blt | bge | bltu | bgeu =>
    exact .inr (.inr (.inl ⟨_, _, _, _, _, rfl, rfl, rfl, rfl, rfl, rfl, rfl, rfl⟩))
  case jal => exact .inr (.inl ⟨_, _, _, _, rfl, rfl, rfl, rfl, rfl, rfl, rfl, .inl rfl⟩)
  case jalr => exact .inr (.inl ⟨_, _, _, _, rfl, rfl, rfl, rfl, rfl, rfl, rfl, .inr rfl⟩)
  all_goals exact .inl ⟨_, _, _, _, _, rfl, rfl, rfl, rfl, rfl, rfl, rfl, rfl⟩

end Sys2Proof.Machine
end

