-- ==== Sys2Proof/Laws/Operands.lean ====
section
/-! SUPPORT. The operand forms and the multi-byte reads as integers (30_encoding.md R116; 40_integer.md R152; 20_memory.md
R75). -/

namespace Sys2Proof.Machine

/-- `sext_32(imm12)` as a signed integer. -/
theorem sext12_toInt (imm : BitVec 12) : (sext12 imm).toInt = imm.toInt := by
  rw [sext12, BitVec.toInt_signExtend_of_le (by omega)]

/-- `sext_32(imm12)` as an unsigned integer. -/
theorem sext12_toNat (imm : BitVec 12) : ((sext12 imm).toNat : Int) = imm.toInt % 2 ^ 32 := by
  have h : sext12 imm = BitVec.ofInt 32 imm.toInt := by simp [sext12, BitVec.signExtend]
  rw [h, BitVec.toNat_ofInt]; omega

/-- `sext_32(imm12)` bit by bit. -/
theorem sext12_bit (imm : BitVec 12) {k : Nat} (hk : k < 32) :
    (sext12 imm).getLsbD k = imm.getLsbD (min k 11) := by
  simp only [sext12, BitVec.getLsbD_signExtend, BitVec.msb_eq_getLsbD_last]
  by_cases h : k < 12
  · simp [hk, h, Nat.min_eq_left (by omega : k ≤ 11)]
  · simp [hk, h, Nat.min_eq_right (by omega : 11 ≤ k)]

/-- The low five bits of a shift amount register (R152). -/
theorem shiftAmount_eq (v : Word) : shiftAmount v = v.toNat % 32 := by
  simp [shiftAmount, BitVec.extractLsb'_toNat]

/-- `imm20 << 12` loses no bit (R172). -/
theorem upper20_toNat (imm : BitVec 20) : (upper20 imm).toNat = imm.toNat * 4096 := by
  have := imm.isLt
  rw [upper20, BitVec.toNat_shiftLeft, BitVec.toNat_setWidth, Nat.shiftLeft_eq]; omega

/-! ### `memRead` (R75) -/

@[simp] theorem State.touch_byteAt (s : State) (a b : Word) : (s.touch a).byteAt b = s.byteAt b := rfl

theorem State.memRead_zero (s : State) (A : Word) : (s.memRead A 0).1 = 0#32 := rfl

theorem State.memRead_succ (s : State) (A : Word) (n : Nat) :
    (s.memRead A (n + 1)).1 = (s.byteAt A).setWidth 32 ||| (((s.touch A).memRead (A + 1) n).1 <<< 8) := rfl

/-- A byte below a word shifted left by 8. -/
theorem toNat_byte_or_shift (b : Byte) (h : Word) (hh : h.toNat < 2 ^ 24) :
    (b.setWidth 32 ||| (h <<< 8) : Word).toNat = b.toNat + 256 * h.toNat := by
  have hb := b.isLt
  rw [BitVec.toNat_or, BitVec.toNat_shiftLeft, BitVec.toNat_setWidth, Nat.mod_eq_of_lt (by omega : b.toNat < 2 ^ 32),
    Nat.shiftLeft_eq, Nat.mod_eq_of_lt (by omega : h.toNat * 2 ^ 8 < 2 ^ 32), ← Nat.shiftLeft_eq, Nat.or_comm,
    ← Nat.shiftLeft_add_eq_or_of_lt hb, Nat.shiftLeft_eq]
  omega

theorem State.memRead_one (s : State) (A : Word) : (s.memRead A 1).1.toNat = (s.byteAt A).toNat := by
  rw [State.memRead_succ, toNat_byte_or_shift _ _ (by simp [State.memRead_zero]), State.memRead_zero]; simp

theorem State.memRead_two (s : State) (A : Word) :
    (s.memRead A 2).1.toNat = (s.byteAt A).toNat + 256 * (s.byteAt (A + 1)).toNat := by
  have h := (s.byteAt (A + 1)).isLt
  rw [State.memRead_succ, toNat_byte_or_shift _ _ (by rw [State.memRead_one]; simp; omega), State.memRead_one]; simp

theorem State.memRead_three (s : State) (A : Word) :
    (s.memRead A 3).1.toNat =
      (s.byteAt A).toNat + 256 * (s.byteAt (A + 1)).toNat + 65536 * (s.byteAt (A + 2)).toNat := by
  have h := (s.byteAt (A + 1)).isLt
  have h2 := (s.byteAt (A + 1 + 1)).isLt
  rw [State.memRead_succ, toNat_byte_or_shift _ _ (by rw [State.memRead_two]; simp only [State.touch_byteAt]; omega),
    State.memRead_two]
  simp only [State.touch_byteAt, BitVec.add_assoc]
  rw [show (1 + 1 : Word) = 2 from rfl]; omega

theorem State.memRead_four (s : State) (A : Word) :
    (s.memRead A 4).1.toNat =
      (s.byteAt A).toNat + 256 * (s.byteAt (A + 1)).toNat + 65536 * (s.byteAt (A + 2)).toNat +
        16777216 * (s.byteAt (A + 3)).toNat := by
  have h := (s.byteAt (A + 1)).isLt
  have h2 := (s.byteAt (A + 1 + 1)).isLt
  have h3 := (s.byteAt (A + 1 + 2)).isLt
  rw [State.memRead_succ, toNat_byte_or_shift _ _ (by rw [State.memRead_three]; simp only [State.touch_byteAt]; omega),
    State.memRead_three]
  simp only [State.touch_byteAt, BitVec.add_assoc]
  rw [show (1 + 1 : Word) = 2 from rfl, show (1 + 2 : Word) = 3 from rfl]; omega

/-- The addresses of an access as a list by offset (R57). -/
theorem byteAddresses_eq (A : Word) (n : Nat) :
    byteAddresses A n = (List.range n).map fun k => A + BitVec.ofNat 32 k := by
  induction n generalizing A with
  | zero => rfl
  | succ n ih =>
    rw [byteAddresses, ih, List.range_succ_eq_map]
    simp [BitVec.add_assoc]
    intro a _
    apply BitVec.eq_of_toNat_eq; simp; omega

end Sys2Proof.Machine
end

