-- ==== Sys2Proof/Laws/PerInstr.lean ====
section
/-! SUPPORT. Laws stated of each instruction as syntax, one lemma per constructor. -/

namespace Sys2Proof

/-- The word the encoder writes for a record, at any address, matches the opcode table's row of the record's own
mnemonic (30_encoding.md R107, R108). -/
def Laws.EncodesInRow.Statement (i : Instr) : Prop :=
  ∃ r ∈ opcodeTable, r.mnemonic = i.mnemonic ∧ ∀ p, encode p i &&& r.mask = r.pattern

theorem Laws.EncodesInRow.add (rd rs1 rs2 : RegIdx) : Laws.EncodesInRow.Statement (.add rd rs1 rs2) :=
  ⟨⟨.add, 0x00000033, 0xFE00707F⟩, by decide, rfl, fun _ => (wordR_masked ..).trans (by decide)⟩

theorem Laws.EncodesInRow.sub (rd rs1 rs2 : RegIdx) : Laws.EncodesInRow.Statement (.sub rd rs1 rs2) :=
  ⟨⟨.sub, 0x40000033, 0xFE00707F⟩, by decide, rfl, fun _ => (wordR_masked ..).trans (by decide)⟩

theorem Laws.EncodesInRow.and (rd rs1 rs2 : RegIdx) : Laws.EncodesInRow.Statement (.and rd rs1 rs2) :=
  ⟨⟨.and, 0x00007033, 0xFE00707F⟩, by decide, rfl, fun _ => (wordR_masked ..).trans (by decide)⟩

theorem Laws.EncodesInRow.or (rd rs1 rs2 : RegIdx) : Laws.EncodesInRow.Statement (.or rd rs1 rs2) :=
  ⟨⟨.or, 0x00006033, 0xFE00707F⟩, by decide, rfl, fun _ => (wordR_masked ..).trans (by decide)⟩

theorem Laws.EncodesInRow.xor (rd rs1 rs2 : RegIdx) : Laws.EncodesInRow.Statement (.xor rd rs1 rs2) :=
  ⟨⟨.xor, 0x00004033, 0xFE00707F⟩, by decide, rfl, fun _ => (wordR_masked ..).trans (by decide)⟩

theorem Laws.EncodesInRow.sll (rd rs1 rs2 : RegIdx) : Laws.EncodesInRow.Statement (.sll rd rs1 rs2) :=
  ⟨⟨.sll, 0x00001033, 0xFE00707F⟩, by decide, rfl, fun _ => (wordR_masked ..).trans (by decide)⟩

theorem Laws.EncodesInRow.srl (rd rs1 rs2 : RegIdx) : Laws.EncodesInRow.Statement (.srl rd rs1 rs2) :=
  ⟨⟨.srl, 0x00005033, 0xFE00707F⟩, by decide, rfl, fun _ => (wordR_masked ..).trans (by decide)⟩

theorem Laws.EncodesInRow.sra (rd rs1 rs2 : RegIdx) : Laws.EncodesInRow.Statement (.sra rd rs1 rs2) :=
  ⟨⟨.sra, 0x40005033, 0xFE00707F⟩, by decide, rfl, fun _ => (wordR_masked ..).trans (by decide)⟩

theorem Laws.EncodesInRow.slt (rd rs1 rs2 : RegIdx) : Laws.EncodesInRow.Statement (.slt rd rs1 rs2) :=
  ⟨⟨.slt, 0x00002033, 0xFE00707F⟩, by decide, rfl, fun _ => (wordR_masked ..).trans (by decide)⟩

theorem Laws.EncodesInRow.sltu (rd rs1 rs2 : RegIdx) : Laws.EncodesInRow.Statement (.sltu rd rs1 rs2) :=
  ⟨⟨.sltu, 0x00003033, 0xFE00707F⟩, by decide, rfl, fun _ => (wordR_masked ..).trans (by decide)⟩

theorem Laws.EncodesInRow.addi (rd rs1 : RegIdx) (imm : BitVec 12) : Laws.EncodesInRow.Statement (.addi rd rs1 imm) :=
  ⟨⟨.addi, 0x00000013, 0x0000707F⟩, by decide, rfl, fun _ => (wordI_masked ..).trans (by decide)⟩

theorem Laws.EncodesInRow.andi (rd rs1 : RegIdx) (imm : BitVec 12) : Laws.EncodesInRow.Statement (.andi rd rs1 imm) :=
  ⟨⟨.andi, 0x00007013, 0x0000707F⟩, by decide, rfl, fun _ => (wordI_masked ..).trans (by decide)⟩

theorem Laws.EncodesInRow.ori (rd rs1 : RegIdx) (imm : BitVec 12) : Laws.EncodesInRow.Statement (.ori rd rs1 imm) :=
  ⟨⟨.ori, 0x00006013, 0x0000707F⟩, by decide, rfl, fun _ => (wordI_masked ..).trans (by decide)⟩

theorem Laws.EncodesInRow.xori (rd rs1 : RegIdx) (imm : BitVec 12) : Laws.EncodesInRow.Statement (.xori rd rs1 imm) :=
  ⟨⟨.xori, 0x00004013, 0x0000707F⟩, by decide, rfl, fun _ => (wordI_masked ..).trans (by decide)⟩

theorem Laws.EncodesInRow.slti (rd rs1 : RegIdx) (imm : BitVec 12) : Laws.EncodesInRow.Statement (.slti rd rs1 imm) :=
  ⟨⟨.slti, 0x00002013, 0x0000707F⟩, by decide, rfl, fun _ => (wordI_masked ..).trans (by decide)⟩

theorem Laws.EncodesInRow.sltiu (rd rs1 : RegIdx) (imm : BitVec 12) : Laws.EncodesInRow.Statement (.sltiu rd rs1 imm) :=
  ⟨⟨.sltiu, 0x00003013, 0x0000707F⟩, by decide, rfl, fun _ => (wordI_masked ..).trans (by decide)⟩

theorem Laws.EncodesInRow.slli (rd rs1 : RegIdx) (shamt : BitVec 5) : Laws.EncodesInRow.Statement (.slli rd rs1 shamt) :=
  ⟨⟨.slli, 0x00001013, 0xFE00707F⟩, by decide, rfl, fun _ => (wordShift_masked ..).trans (by decide)⟩

theorem Laws.EncodesInRow.srli (rd rs1 : RegIdx) (shamt : BitVec 5) : Laws.EncodesInRow.Statement (.srli rd rs1 shamt) :=
  ⟨⟨.srli, 0x00005013, 0xFE00707F⟩, by decide, rfl, fun _ => (wordShift_masked ..).trans (by decide)⟩

theorem Laws.EncodesInRow.srai (rd rs1 : RegIdx) (shamt : BitVec 5) : Laws.EncodesInRow.Statement (.srai rd rs1 shamt) :=
  ⟨⟨.srai, 0x40005013, 0xFE00707F⟩, by decide, rfl, fun _ => (wordShift_masked ..).trans (by decide)⟩

theorem Laws.EncodesInRow.lui (rd : RegIdx) (imm : BitVec 20) : Laws.EncodesInRow.Statement (.lui rd imm) :=
  ⟨⟨.lui, 0x00000037, 0x0000007F⟩, by decide, rfl, fun _ => (wordU_masked ..).trans (by decide)⟩

theorem Laws.EncodesInRow.auipc (rd : RegIdx) (imm : BitVec 20) : Laws.EncodesInRow.Statement (.auipc rd imm) :=
  ⟨⟨.auipc, 0x00000017, 0x0000007F⟩, by decide, rfl, fun _ => (wordU_masked ..).trans (by decide)⟩

theorem Laws.EncodesInRow.lb (rd rs1 : RegIdx) (imm : BitVec 12) : Laws.EncodesInRow.Statement (.lb rd rs1 imm) :=
  ⟨⟨.lb, 0x00000003, 0x0000707F⟩, by decide, rfl, fun _ => (wordI_masked ..).trans (by decide)⟩

theorem Laws.EncodesInRow.lh (rd rs1 : RegIdx) (imm : BitVec 12) : Laws.EncodesInRow.Statement (.lh rd rs1 imm) :=
  ⟨⟨.lh, 0x00001003, 0x0000707F⟩, by decide, rfl, fun _ => (wordI_masked ..).trans (by decide)⟩

theorem Laws.EncodesInRow.lw (rd rs1 : RegIdx) (imm : BitVec 12) : Laws.EncodesInRow.Statement (.lw rd rs1 imm) :=
  ⟨⟨.lw, 0x00002003, 0x0000707F⟩, by decide, rfl, fun _ => (wordI_masked ..).trans (by decide)⟩

theorem Laws.EncodesInRow.lbu (rd rs1 : RegIdx) (imm : BitVec 12) : Laws.EncodesInRow.Statement (.lbu rd rs1 imm) :=
  ⟨⟨.lbu, 0x00004003, 0x0000707F⟩, by decide, rfl, fun _ => (wordI_masked ..).trans (by decide)⟩

theorem Laws.EncodesInRow.lhu (rd rs1 : RegIdx) (imm : BitVec 12) : Laws.EncodesInRow.Statement (.lhu rd rs1 imm) :=
  ⟨⟨.lhu, 0x00005003, 0x0000707F⟩, by decide, rfl, fun _ => (wordI_masked ..).trans (by decide)⟩

theorem Laws.EncodesInRow.sb (rs2 rs1 : RegIdx) (imm : BitVec 12) : Laws.EncodesInRow.Statement (.sb rs2 rs1 imm) :=
  ⟨⟨.sb, 0x00000023, 0x0000707F⟩, by decide, rfl, fun _ => (wordS_masked ..).trans (by decide)⟩

theorem Laws.EncodesInRow.sh (rs2 rs1 : RegIdx) (imm : BitVec 12) : Laws.EncodesInRow.Statement (.sh rs2 rs1 imm) :=
  ⟨⟨.sh, 0x00001023, 0x0000707F⟩, by decide, rfl, fun _ => (wordS_masked ..).trans (by decide)⟩

theorem Laws.EncodesInRow.sw (rs2 rs1 : RegIdx) (imm : BitVec 12) : Laws.EncodesInRow.Statement (.sw rs2 rs1 imm) :=
  ⟨⟨.sw, 0x00002023, 0x0000707F⟩, by decide, rfl, fun _ => (wordS_masked ..).trans (by decide)⟩

theorem Laws.EncodesInRow.jal (rd : RegIdx) (target : Word) : Laws.EncodesInRow.Statement (.jal rd target) :=
  ⟨⟨.jal, 0x0000006F, 0x0000007F⟩, by decide, rfl, fun _ => (wordJ_masked ..).trans (by decide)⟩

theorem Laws.EncodesInRow.jalr (rd rs1 : RegIdx) (imm : BitVec 12) : Laws.EncodesInRow.Statement (.jalr rd rs1 imm) :=
  ⟨⟨.jalr, 0x00000067, 0x0000707F⟩, by decide, rfl, fun _ => (wordI_masked ..).trans (by decide)⟩

theorem Laws.EncodesInRow.beq (rs1 rs2 : RegIdx) (target : Word) : Laws.EncodesInRow.Statement (.beq rs1 rs2 target) :=
  ⟨⟨.beq, 0x00000063, 0x0000707F⟩, by decide, rfl, fun _ => (wordB_masked ..).trans (by decide)⟩

theorem Laws.EncodesInRow.bne (rs1 rs2 : RegIdx) (target : Word) : Laws.EncodesInRow.Statement (.bne rs1 rs2 target) :=
  ⟨⟨.bne, 0x00001063, 0x0000707F⟩, by decide, rfl, fun _ => (wordB_masked ..).trans (by decide)⟩

theorem Laws.EncodesInRow.blt (rs1 rs2 : RegIdx) (target : Word) : Laws.EncodesInRow.Statement (.blt rs1 rs2 target) :=
  ⟨⟨.blt, 0x00004063, 0x0000707F⟩, by decide, rfl, fun _ => (wordB_masked ..).trans (by decide)⟩

theorem Laws.EncodesInRow.bge (rs1 rs2 : RegIdx) (target : Word) : Laws.EncodesInRow.Statement (.bge rs1 rs2 target) :=
  ⟨⟨.bge, 0x00005063, 0x0000707F⟩, by decide, rfl, fun _ => (wordB_masked ..).trans (by decide)⟩

theorem Laws.EncodesInRow.bltu (rs1 rs2 : RegIdx) (target : Word) : Laws.EncodesInRow.Statement (.bltu rs1 rs2 target) :=
  ⟨⟨.bltu, 0x00006063, 0x0000707F⟩, by decide, rfl, fun _ => (wordB_masked ..).trans (by decide)⟩

theorem Laws.EncodesInRow.bgeu (rs1 rs2 : RegIdx) (target : Word) : Laws.EncodesInRow.Statement (.bgeu rs1 rs2 target) :=
  ⟨⟨.bgeu, 0x00007063, 0x0000707F⟩, by decide, rfl, fun _ => (wordB_masked ..).trans (by decide)⟩

end Sys2Proof
end

