-- ==== Sys2Proof/Laws/Step.lean ====
section
/-! SUPPORT. The continuation predicate as arithmetic, what one engine step, one step and the loop of RUN can do, and
the data invariant under one instruction. -/

namespace Sys2Proof

/-! ### Addresses and slots (10_state.md R39, R43, R46) -/

/-- Forcing an address to a 4-byte boundary (70_reset_and_hazards.md R341). -/
theorem aligned_toNat (w : Word) : (w &&& 0xFFFFFFFC#32).toNat = w.toNat / 4 * 4 := by
  have e : w &&& 0xFFFFFFFC#32 = (w >>> 2) <<< 2 := by
    ext k hk
    interval_cases k <;> simp
  have := w.isLt
  rw [e, BitVec.toNat_shiftLeft, BitVec.toNat_ushiftRight, Nat.shiftLeft_eq, Nat.shiftRight_eq_div_pow]; omega

/-- R39 in a Program whose `end` does not wrap. -/
theorem Program.contains_iff {p : Program} (h : p.entry.toNat + 4 * p.count ≤ 2 ^ 32) (a : Word) :
    p.contains a = true ↔
      a.toNat % 4 = 0 ∧ p.entry.toNat ≤ a.toNat ∧ a.toNat + 4 ≤ p.entry.toNat + 4 * p.count := by
  have he := p.entry.isLt
  have ha := a.isLt
  simp only [Program.contains, Program.endAddress, Bool.and_eq_true, decide_eq_true_eq, BitVec.toNat_sub,
    BitVec.toNat_add, BitVec.toNat_ofNat, show (4 : Word).toNat = 4 from rfl]
  constructor
  · rintro ⟨⟨⟨h0, h1⟩, h2⟩, h3⟩; refine ⟨h1, h2, ?_⟩; omega
  · rintro ⟨h1, h2, h3⟩; refine ⟨⟨⟨?_, h1⟩, h2⟩, ?_⟩ <;> omega

/-- R39 in any Program: what follows from it. -/
theorem Program.contains_bound {p : Program} {a : Word} (h : p.contains a = true) :
    p.count ≠ 0 ∧ a.toNat % 4 = 0 ∧ p.entry.toNat ≤ a.toNat ∧ a.toNat - p.entry.toNat + 4 ≤ 4 * p.count := by
  have he := p.entry.isLt
  have ha := a.isLt
  simp only [Program.contains, Program.endAddress, Bool.and_eq_true, decide_eq_true_eq, BitVec.toNat_sub,
    BitVec.toNat_add, BitVec.toNat_ofNat, show (4 : Word).toNat = 4 from rfl] at h
  obtain ⟨⟨⟨h0, h1⟩, h2⟩, h3⟩ := h
  refine ⟨h0, h1, h2, ?_⟩; omega

/-- The index as arithmetic (R46). -/
theorem Program.slotNumber_eq {p : Program} {a : Word} (h : p.entry.toNat ≤ a.toNat) :
    p.slotNumber a = (a.toNat - p.entry.toNat) / 4 := by
  have he := p.entry.isLt
  have ha := a.isLt
  simp only [Program.slotNumber, BitVec.toNat_ushiftRight, BitVec.toNat_sub, Nat.shiftRight_eq_div_pow]; omega

/-- The entry of a well-formed Program with a slot satisfies R39 (R345). -/
theorem Program.contains_entry {p : Program} (hp : p.wf) (hc : p.count ≠ 0) : p.contains p.entry = true := by
  rw [Program.contains_iff hp.2.1]; have := hp.1; exact ⟨this, le_refl _, by omega⟩

namespace Machine

/-- While `canStep` holds the index is in range. -/
theorem State.index_lt {s : State} (h : s.canStep = true) : s.index < s.prog.count := by
  have := Program.contains_bound h
  rw [State.index, Program.slotNumber_eq this.2.2.1]; omega

/-- While `canStep` holds the fetched slot is a slot of the Program. -/
theorem State.getElem?_index {s : State} (h : s.canStep = true) : s.prog.instrs[s.index]? = some s.fetch := by
  have := State.index_lt h
  simp [State.fetch, List.getD_eq_getElem?_getD, List.getElem?_eq_getElem this]

/-! ### One instruction -/

theorem exec_next (i : Instr) (s : State) : ∃ t, exec i s = .next t := by
  cases i <;> exact ⟨_, rfl⟩

theorem exec_controlKept {i : Instr} {s t : State} (h : exec i s = .next t) : ControlKept s t := by
  rcases exec_cases i s with ⟨m, rd, a, b, v, he, -⟩ | ⟨m, rd, a, b, he, -⟩ | ⟨m, rd, a, b, c, he, -⟩ |
    ⟨m, n, ex, rd, a, b, he, -⟩ | ⟨m, n, a, b, c, he, -⟩ <;> (rw [he] at h; cases h)
  · exact (State.writeResult_spec ..).2.2.2
  · exact (State.jumpTo_spec ..).2.2.2
  · exact (State.branchIf_spec ..).2.2.2
  · exact (State.load_spec ..).2.2.2.2
  · simp [State.store, ControlKept]

/-! ### The data invariant -/

theorem DataInv.congr {s t : State} (h : DataInv s) (hm : t.mem = s.mem) (hp : t.pages = s.pages)
    (hx : t.x[0] = s.x[0]) : DataInv t :=
  ⟨by rw [hm]; exact h.mem, by rw [hp]; exact h.pages, by rw [hm, hp]; exact h.memInPages, by rw [hx]; exact h.zero⟩

theorem DataInv.of_cleared {s : State} (hm : s.mem = []) (hp : s.pages = []) (hx : s.x = Vector.replicate 32 0) :
    DataInv s :=
  ⟨by rw [hm]; exact Memory.wf_nil, by simp [hp, Pages.wf], by simp [hm], by simp [hx]⟩

/-- Every entry after a store was there before or is at one of its addresses. -/
theorem State.mem_memWrite {s : State} {A v : Word} {n : Nat} {c : Host.Cell} (h : c ∈ (s.memWrite A n v).mem) :
    c ∈ s.mem ∨ ∃ a ∈ byteAddresses A n, c.1 = a.toNat := by
  induction n generalizing s A v with
  | zero => exact .inl h
  | succ n ih =>
    rcases ih (s := s.writeByte A (v.setWidth 8)) h with h | ⟨a, ha, e⟩
    · rcases Memory.mem_write h with h | ⟨e, -⟩
      · exact .inl h
      · exact .inr ⟨A, by simp [byteAddresses], by rw [e]⟩
    · exact .inr ⟨a, List.mem_cons_of_mem _ ha, e⟩

theorem exec_dataInv {i : Instr} {s t : State} (h : DataInv s) (ht : exec i s = .next t) : DataInv t := by
  rcases exec_cases i s with ⟨m, rd, a, b, v, he, -⟩ | ⟨m, rd, a, b, he, -⟩ | ⟨m, rd, a, b, c, he, -⟩ |
    ⟨m, n, ex, rd, a, b, he, -⟩ | ⟨m, n, a, b, c, he, -⟩ <;> (rw [he] at ht; cases ht)
  · exact h.congr (by simp) (by simp) (by simp)
  · exact h.congr (by simp) (by simp) (by simp)
  · exact h.congr (by simp) (by simp) (by simp)
  · refine ⟨by simpa using h.mem, ?_, fun c hc => ?_, by simpa using h.zero⟩
    · rw [State.load_pages]; exact State.memRead_pages_wf h.pages _ _
    · rw [State.load_pages, State.mem_pages_memRead]; exact .inl (h.memInPages c (by simpa using hc))
  · refine ⟨State.memWrite_wf h.mem _ _ _, State.memWrite_pages_wf h.pages _ _ _, fun c hc => ?_, by
      simpa using h.zero⟩
    rw [State.store_pages, State.mem_pages_memWrite]
    rcases State.mem_memWrite hc with hc | ⟨a, ha, e⟩
    · exact .inl (h.memInPages c hc)
    · exact .inr ⟨a, ha, by rw [e, pageBase_eq]⟩

/-! ### The engine step, and one step -/

/-- What the engine step can do where the continuation predicate holds. -/
theorem State.engineStep_cases {s : State} (h : s.canStep = true) :
    (∃ i t, s.fetch = .instr i ∧ exec i s = .next t ∧ s.engineStep = .next t) ∨
    (s.fetch = .pad ∧ s.engineStep = .refused .paddingSlot) := by
  cases hf : s.fetch with
  | instr i =>
    obtain ⟨t, ht⟩ := exec_next i s
    exact .inl ⟨i, t, rfl, ht, by simp [State.engineStep, h, hf, ht]⟩
  | pad => exact .inr ⟨rfl, by simp [State.engineStep, h, hf]⟩

/-- What a step that answers a next state can be: an instruction and the settling of the status, or nothing at all
(in a status that disables STEP, or, in a state no run reaches, a settling without an instruction). -/
theorem step_cases {s t : State} (h : step s = .next t) :
    s.refused = none ∧
    ((s.status.runs = true ∧ s.canStep = true ∧ ∃ i u, s.fetch = .instr i ∧ exec i s = .next u ∧ t = u.settle) ∨
     (s.status.runs = true ∧ s.canStep = false ∧ t = s.settle) ∨
     (s.status.runs = false ∧ t = s)) := by
  unfold step State.stepOnce at h
  cases hr : s.refused with
  | some r => rw [hr] at h; cases h
  | none =>
    rw [hr] at h
    refine ⟨rfl, ?_⟩
    cases hs : s.status.runs
    · simp only [hs] at h; cases h; exact .inr (.inr ⟨rfl, rfl⟩)
    · simp only [hs, if_true] at h
      cases hc : s.canStep
      · rw [show s.engineStep = .next s by simp [State.engineStep, hc]] at h
        cases h; exact .inr (.inl ⟨rfl, rfl, rfl⟩)
      · rcases State.engineStep_cases hc with ⟨i, u, hf, he, hu⟩ | ⟨-, hu⟩ <;> rw [hu] at h <;> cases h
        exact .inl ⟨rfl, rfl, i, u, hf, he, rfl⟩

/-- One turn of RUN's loop while a next instruction exists (R348). -/
theorem State.runLoop_succ {s t : State} {i : Instr} (k : Nat) (hc : s.canStep = true) (hf : s.fetch = .instr i)
    (he : exec i s = .next t) : State.runLoop (k + 1) s = State.runLoop k { t with status := .running } := by
  simp [State.runLoop, State.engineStep, hc, hf, he]

/-- RUN's loop at a state where no next instruction exists (R348). -/
theorem State.runLoop_ended {s : State} (k : Nat) (hc : s.canStep = false) :
    State.runLoop k s = ⟨s.terminate, .effect s.terminate.lastEffect, none⟩ := by
  cases k <;> simp [State.runLoop, hc]

/-- RUN's loop at the padding slot (R304). -/
theorem State.runLoop_pad {s : State} (k : Nat) (hc : s.canStep = true) (hf : s.fetch = .pad) :
    State.runLoop (k + 1) s = ⟨s.refuse .paddingSlot, .refusal .paddingSlot, none⟩ := by
  simp [State.runLoop, State.engineStep, hc, hf]

/-- RUN with no refusal mark set is its loop. -/
theorem State.handle_run {s : State} (k : Nat) (hr : s.refused = none) (hs : s.status.runs = true) :
    s.handle (.run k) = State.runLoop k { s with timedOut := false } := by
  have : enabled s.status .run = true := hs
  simp [State.handle, Action.kind, this, State.runAction, hr]

/-- RUN with the refusal mark set clears `timedOut` and returns the refusal (R347, R348). -/
theorem State.handle_run_refused {s : State} {r : Refusal} (k : Nat) (hr : s.refused = some r)
    (hs : s.status.runs = true) : s.handle (.run k) = ⟨{ s with timedOut := false }, .refusal r, none⟩ := by
  have : enabled s.status .run = true := hs
  simp [State.handle, Action.kind, this, State.runAction, hr]

/-- RELOAD is enabled in every status (R347). -/
theorem State.handle_reload (s : State) (src : Source) : s.handle (.reload src) = s.reloadAction src := by
  cases h : s.status <;> simp [State.handle, Action.kind, h, enabled]

/-- REFRESH is enabled in every status (R347). -/
theorem State.handle_refresh (s : State) : s.handle .refresh = s.refreshAction := by
  cases h : s.status <;> simp [State.handle, Action.kind, h, enabled]

end Machine

/-! ### Words and bytes (20_memory.md R77) -/

theorem wordOfBytes_bytesOfWord (w : Word) :
    wordOfBytes (w.extractLsb' 0 8) (w.extractLsb' 8 8) (w.extractLsb' 16 8) (w.extractLsb' 24 8) = w := by
  unfold wordOfBytes
  ext k hk
  simp only [BitVec.getElem_or, placed, BitVec.getElem_shiftLeft, BitVec.getElem_setWidth, BitVec.getLsbD_extractLsb']
  interval_cases k <;> simp

theorem decodeBytes_bytesOfWord {p w : Word} {i : Instr} (h : decode p w = .ok i) :
    decodeBytes p (bytesOfWord w) = .ok (i, []) := by
  simp [decodeBytes, bytesOfWord, wordOfBytes_bytesOfWord, h]

end Sys2Proof
end

