-- ==== Sys2Proof/Tests/Slice0.lean ====
section
/-! SUPPORT. Small tests. Expected results are the spec's: the encodings of 30_encoding.md R103, the vectors of
95_test_vectors.md (named I1, J1, M1, A1, S1 ... there), or the rule named beside them. Below them, one witness for
each statement that has hypotheses. -/

namespace Sys2Proof.Tests

open Sys2Proof.Machine

/-! ### Helpers -/

/-- A running instance at `pc`: eight slots from entry 0, the registers given, memory empty. -/
def at8 (pc : Word) (rs : List (RegIdx × Word)) : State :=
  rs.foldl (fun s (r, v) => s.setReg r v)
    { State.reset with
      prog := { instrs := List.replicate 8 (.instr (.addi 0 0 0)), entry := 0, labels := [(['L'], 8)] }
      pc := pc
      status := .running }

/-- The same with bytes stored from an address upwards. -/
def withBytes (a : Nat) (bs : List Byte) (s : State) : State :=
  { s with mem := (bs.zipIdx a).foldl (fun m (b, i) => Memory.write m i b) s.mem }

/-- The state after one instruction (the state before, if it stops). -/
def after (i : Instr) (s : State) : State :=
  match exec i s with
  | .next t => t
  | .fault _ => s
  | .refused _ => s

/-- A register after one instruction. -/
def regAfter (i : Instr) (s : State) (r : RegIdx) : Word := (after i s).reg r

/-- The pc after one instruction. -/
def pcAfter (i : Instr) (s : State) : Word := (after i s).pc

/-- Source lines, from the source named `f`. -/
def source (ls : List String) : Source := { identifier := ['f'], lines := ls.map String.toList }

/-- What assembling at entry 0 gives: the slots, or the defects with their lines. -/
def slotsOf (ls : List String) : Except (List Diagnostic) (List Slot) := (assemble false 0 (source ls)).map (·.instrs)

/-- A Program at entry 0, just loaded. -/
def loaded (slots : List Slot) (labels : List (Text × Word)) : State :=
  { State.reset with prog := { instrs := slots, entry := 0, labels := labels }, status := .ready }

/-- Program P1 of 95_test_vectors.md, loaded at entry 0. -/
def p1 : State := loaded
  [.instr (.addi 5 0 0), .instr (.addi 6 0 1), .instr (.addi 7 0 11), .instr (.add 5 5 6), .instr (.addi 6 6 1),
   .instr (.blt 6 7 0xC)] [("loop".toList, 0xC)]

/-- One label and nothing else: one padding slot (R124). -/
def padOnly : State := loaded [.pad] [("end".toList, 0)]

/-- A one-instruction Program. -/
def oneSlot : State := loaded [.instr (.addi 1 0 5)] []

/-- The instruction that jumps to itself (S9). -/
def selfLoop : State := loaded [.instr (.jal 0 0)] [(['l'], 0)]

theorem test_load_p1 : (State.reset.loadSource (source
    ["addi t0, zero, 0", "addi t1, zero, 1", "addi t2, zero, 11",
     "loop:   add  t0, t0, t1", "addi t1, t1, 1", "blt  t1, t2, loop"])).1 = p1 := by decide

theorem test_load_small : (State.reset.loadSource (source ["end:"])).1 = padOnly ∧
    (State.reset.loadSource (source ["addi x1, x0, 5"])).1 = oneSlot ∧
    (State.reset.loadSource (source ["l: jal x0, l"])).1 = selfLoop := by decide

/-! ### Well-formedness: each check refuses an ill-formed term -/

theorem test_wf_target_aligned : (Instr.jal 1 0x10).wf = true ∧ (Instr.jal 1 0x12).wf = false ∧
    (Instr.beq 1 2 0x11).wf = false ∧ (Instr.add 1 2 3).wf = true := by decide

theorem test_hasWord_branch_range : (Instr.beq 1 2 0x1000).hasWord 0x2000 = true ∧
    (Instr.beq 1 2 0x0FFC).hasWord 0x2000 = false ∧ (Instr.beq 1 2 0x2FFE).hasWord 0x2000 = true ∧
    (Instr.beq 1 2 0x3000).hasWord 0x2000 = false ∧ (Instr.beq 1 2 0x2001).hasWord 0x2000 = false := by decide

theorem test_hasWord_jal_range : (Instr.jal 1 0x100000).hasWord 0x200000 = true ∧
    (Instr.jal 1 0x0FFFFC).hasWord 0x200000 = false ∧ (Instr.jal 1 0x2FFFFE).hasWord 0x200000 = true ∧
    (Instr.jal 1 0x300000).hasWord 0x200000 = false ∧ (Instr.jal 1 0x200001).hasWord 0x200000 = false := by decide

theorem test_program_wf : ¬ Program.wf ⟨[.instr (.add 1 2 3)], 2, []⟩ ∧
    ¬ Program.wf ⟨[.instr (.add 1 2 3), .pad], 0xFFFFFFFC, []⟩ ∧
    Program.wf ⟨[.instr (.add 1 2 3)], 0xFFFFFFFC, []⟩ ∧
    ¬ Program.wf ⟨[.instr (.jal 1 0)], 0, []⟩ ∧
    ¬ Program.wf ⟨[.pad, .instr (.add 1 2 3)], 0, []⟩ := by
  refine ⟨?_, ?_, ?_, ?_, ?_⟩
  · rintro ⟨h, -⟩; revert h; decide
  · rintro ⟨-, h, -⟩; revert h; decide
  · exact ⟨by decide, by decide, by decide, by simp, by decide, by decide⟩
  · rintro ⟨-, -, -, -, h, -⟩; revert h; decide
  · rintro ⟨-, -, -, -, -, h⟩; revert h; decide

theorem test_program_labels : ¬ Program.wf ⟨[.instr (.add 1 2 3)], 0, [(['a'], 0), (['a'], 0)]⟩ ∧
    ¬ Program.wf ⟨[.instr (.add 1 2 3)], 0, [(['a'], 4)]⟩ ∧
    Program.wf ⟨[.instr (.jal 1 0)], 0, [(['a'], 0)]⟩ := by
  refine ⟨?_, ?_, by decide, by decide, by decide, ?_, by decide, by decide⟩
  · rintro ⟨-, -, h, -⟩; revert h; decide
  · rintro ⟨-, -, -, h, -⟩
    obtain ⟨i, hi, e⟩ := h _ List.mem_cons_self
    obtain rfl : i = 0 := by simpa [Program.count] using hi
    revert e; decide
  · intro l hl
    obtain rfl : l = (['a'], 0) := by simpa using hl
    exact ⟨0, by decide, by decide⟩

theorem test_memory_wf : Memory.wf [(4, 1), (5, 2)] ∧ ¬ Memory.wf [(5, 1), (4, 2)] ∧ ¬ Memory.wf [(4, 0)] ∧
    ¬ Memory.wf [(0x100000000, 1)] := by decide

/-! ### Decoding: words written out field by field (R103) -/

theorem test_decode_register_register :
    decode 0 (0b0000000#7 ++ 0b11110#5 ++ 0b10001#5 ++ 0b000#3 ++ 0b00001#5 ++ 0b0110011#7) = .ok (.add 1 17 30) ∧
    decode 0 (0b0100000#7 ++ 0b11100#5 ++ 0b10110#5 ++ 0b000#3 ++ 0b00100#5 ++ 0b0110011#7) = .ok (.sub 4 22 28) ∧
    decode 0 (0b0000000#7 ++ 0b11010#5 ++ 0b11011#5 ++ 0b001#3 ++ 0b00111#5 ++ 0b0110011#7) = .ok (.sll 7 27 26) ∧
    decode 0 (0b0000000#7 ++ 0b11000#5 ++ 0b00000#5 ++ 0b010#3 ++ 0b01010#5 ++ 0b0110011#7) = .ok (.slt 10 0 24) ∧
    decode 0 (0b0000000#7 ++ 0b10110#5 ++ 0b00101#5 ++ 0b011#3 ++ 0b01101#5 ++ 0b0110011#7) = .ok (.sltu 13 5 22) ∧
    decode 0 (0b0000000#7 ++ 0b10100#5 ++ 0b01010#5 ++ 0b100#3 ++ 0b10000#5 ++ 0b0110011#7) = .ok (.xor 16 10 20) ∧
    decode 0 (0b0000000#7 ++ 0b10010#5 ++ 0b01111#5 ++ 0b101#3 ++ 0b10011#5 ++ 0b0110011#7) = .ok (.srl 19 15 18) ∧
    decode 0 (0b0100000#7 ++ 0b10000#5 ++ 0b10100#5 ++ 0b101#3 ++ 0b10110#5 ++ 0b0110011#7) = .ok (.sra 22 20 16) ∧
    decode 0 (0b0000000#7 ++ 0b01110#5 ++ 0b11001#5 ++ 0b110#3 ++ 0b11001#5 ++ 0b0110011#7) = .ok (.or 25 25 14) ∧
    decode 0 (0b0000000#7 ++ 0b01100#5 ++ 0b11110#5 ++ 0b111#3 ++ 0b11100#5 ++ 0b0110011#7) = .ok (.and 28 30 12) := by decide

theorem test_decode_register_immediate :
    decode 0 (0b111111111111#12 ++ 0b00010#5 ++ 0b000#3 ++ 0b11111#5 ++ 0b0010011#7) = .ok (.addi 31 2 (-1)) ∧
    decode 0 (0b100000000000#12 ++ 0b01001#5 ++ 0b010#3 ++ 0b11110#5 ++ 0b0010011#7) = .ok (.slti 30 9 (-2048)) ∧
    decode 0 (0b011111111111#12 ++ 0b10000#5 ++ 0b011#3 ++ 0b11101#5 ++ 0b0010011#7) = .ok (.sltiu 29 16 (2047)) ∧
    decode 0 (0b010101010101#12 ++ 0b10111#5 ++ 0b100#3 ++ 0b11100#5 ++ 0b0010011#7) = .ok (.xori 28 23 (1365)) ∧
    decode 0 (0b101010101010#12 ++ 0b11110#5 ++ 0b110#3 ++ 0b11011#5 ++ 0b0010011#7) = .ok (.ori 27 30 (-1366)) ∧
    decode 0 (0b000000000001#12 ++ 0b00101#5 ++ 0b111#3 ++ 0b11010#5 ++ 0b0010011#7) = .ok (.andi 26 5 (1)) := by decide

theorem test_decode_shift_immediate :
    decode 0 (0b0000000#7 ++ 0b11111#5 ++ 0b01001#5 ++ 0b001#3 ++ 0b10110#5 ++ 0b0010011#7) = .ok (.slli 22 9 31) ∧
    decode 0 (0b0000000#7 ++ 0b00001#5 ++ 0b01001#5 ++ 0b101#3 ++ 0b10110#5 ++ 0b0010011#7) = .ok (.srli 22 9 1) ∧
    decode 0 (0b0100000#7 ++ 0b10101#5 ++ 0b01001#5 ++ 0b101#3 ++ 0b10110#5 ++ 0b0010011#7) = .ok (.srai 22 9 21) := by decide

theorem test_decode_upper_immediate :
    decode 0 (0b10101011110011011110#20 ++ 0b01101#5 ++ 0b0110111#7) = .ok (.lui 13 0xABCDE) ∧
    decode 0 (0b10000000000000000001#20 ++ 0b11010#5 ++ 0b0010111#7) = .ok (.auipc 26 0x80001) := by decide

theorem test_decode_loads :
    decode 0 (0b111111111111#12 ++ 0b01011#5 ++ 0b000#3 ++ 0b10100#5 ++ 0b0000011#7) = .ok (.lb 20 11 (-1)) ∧
    decode 0 (0b000000000010#12 ++ 0b01100#5 ++ 0b001#3 ++ 0b10101#5 ++ 0b0000011#7) = .ok (.lh 21 12 (2)) ∧
    decode 0 (0b100000000000#12 ++ 0b01101#5 ++ 0b010#3 ++ 0b10110#5 ++ 0b0000011#7) = .ok (.lw 22 13 (-2048)) ∧
    decode 0 (0b011111111111#12 ++ 0b01110#5 ++ 0b100#3 ++ 0b10111#5 ++ 0b0000011#7) = .ok (.lbu 23 14 (2047)) ∧
    decode 0 (0b111111111010#12 ++ 0b01111#5 ++ 0b101#3 ++ 0b11000#5 ++ 0b0000011#7) = .ok (.lhu 24 15 (-6)) := by decide

theorem test_decode_stores :
    decode 0 (0b1111111#7 ++ 0b00011#5 ++ 0b11100#5 ++ 0b000#3 ++ 0b00001#5 ++ 0b0100011#7) = .ok (.sb 3 28 (-31)) ∧
    decode 0 (0b0111111#7 ++ 0b00100#5 ++ 0b11101#5 ++ 0b001#3 ++ 0b00001#5 ++ 0b0100011#7) = .ok (.sh 4 29 (2017)) ∧
    decode 0 (0b1000000#7 ++ 0b00101#5 ++ 0b11110#5 ++ 0b010#3 ++ 0b00000#5 ++ 0b0100011#7) = .ok (.sw 5 30 (-2048)) := by decide

theorem test_decode_jumps :
    decode 0x00100000 (0b0#1 ++ 0b0001100110#10 ++ 0b1#1 ++ 0b10101011#8 ++ 0b00101#5 ++ 0b1101111#7) = .ok (.jal 5 0x1AB8CC) ∧
    decode 0x00100000 (0b1#1 ++ 0b0000000010#10 ++ 0b1#1 ++ 0b00000000#8 ++ 0b00101#5 ++ 0b1101111#7) = .ok (.jal 5 0x804) ∧
    decode 0 (0b111111111000#12 ++ 0b00110#5 ++ 0b000#3 ++ 0b00111#5 ++ 0b1100111#7) = .ok (.jalr 7 6 (-8)) := by decide

theorem test_decode_branches :
    decode 0x00002000 (0b1#1 ++ 0b111111#6 ++ 0b01001#5 ++ 0b00010#5 ++ 0b000#3 ++ 0b1100#4 ++ 0b1#1 ++ 0b1100011#7) = .ok (.beq 2 9 0x1FF8) ∧
    decode 0x00002000 (0b0#1 ++ 0b111111#6 ++ 0b01010#5 ++ 0b00011#5 ++ 0b001#3 ++ 0b1111#4 ++ 0b0#1 ++ 0b1100011#7) = .ok (.bne 3 10 0x27FE) ∧
    decode 0x00002000 (0b1#1 ++ 0b000000#6 ++ 0b01011#5 ++ 0b00100#5 ++ 0b100#3 ++ 0b0000#4 ++ 0b0#1 ++ 0b1100011#7) = .ok (.blt 4 11 0x1000) ∧
    decode 0x00002000 (0b0#1 ++ 0b000000#6 ++ 0b01100#5 ++ 0b00101#5 ++ 0b101#3 ++ 0b0000#4 ++ 0b1#1 ++ 0b1100011#7) = .ok (.bge 5 12 0x2800) ∧
    decode 0x00002000 (0b0#1 ++ 0b100000#6 ++ 0b01101#5 ++ 0b00110#5 ++ 0b110#3 ++ 0b1111#4 ++ 0b0#1 ++ 0b1100011#7) = .ok (.bltu 6 13 0x241E) ∧
    decode 0x00002000 (0b1#1 ++ 0b111111#6 ++ 0b01110#5 ++ 0b00111#5 ++ 0b111#3 ++ 0b1111#4 ++ 0b0#1 ++ 0b1100011#7) = .ok (.bgeu 7 14 0x17FE) := by decide

/-- `fence`, `ecall`, `mul`, an I-shift with a bad funct7, a load with a reserved funct3, and 0 (R107, R108). -/
theorem test_decode_illegal :
    decode 0 0x0000000F = .error .illegalWord ∧ decode 0 0x00000073 = .error .illegalWord ∧
    decode 0 0x023100B3 = .error .illegalWord ∧ decode 0 0x02009093 = .error .illegalWord ∧
    decode 0 0x00003003 = .error .illegalWord ∧ decode 0 0 = .error .illegalWord := by decide

/-- Bytes: little-endian, the rest returned; three bytes are no word (R77). -/
theorem test_decodeBytes : decodeBytes 0 [0x93, 0x02, 0x00, 0x00, 0xAA] = .ok (.addi 5 0 0, [0xAA]) ∧
    decodeBytes 0 [0x93, 0x02, 0x00] = .error .truncated := by decide

theorem test_decodeTableWord : decodeTableWord 32 0x006282B3 = some (.add 5 5 6) ∧
    decodeTableWord 32 0 = none := by decide

/-- Reference words of programs P1, P2, P3 and P5 of 95_test_vectors.md. -/
theorem test_encode : encode 0x14 (.blt 6 7 0x0C) = 0xFE734CE3 ∧ encode 0x0C (.jal 0 0x20) = 0x0140006F ∧
    encode 0x08 (.sw 5 2 (-4)) = 0xFE512E23 ∧ encode 0x30 (.lhu 18 0 (-2)) = 0xFFE05903 ∧
    encode 0x10 (.srai 11 10 2) = 0x40255593 ∧ encode 0 (.lui 10 74565) = 0x12345537 ∧
    encode 0x10 (.sub 7 0 6) = 0x406003B3 := by decide

/-! ### One instruction each (95_test_vectors.md section 2; 40, 41, 42) -/

/-- The bytes of M1 to M5. -/
def m2 : State := withBytes 0x100 [0x78, 0x56, 0x34, 0x12, 0xAB] (at8 0 [(3, 0x100)])

theorem test_add_wraps : regAfter (.add 3 1 2) (at8 0 [(1, 0xFFFFFFFF), (2, 1)]) 3 = 0 ∧
    regAfter (.add 3 1 2) (at8 0 [(1, 0x7FFFFFFF), (2, 1)]) 3 = 0x80000000 := by decide

theorem test_add_into_zero : regAfter (.add 0 1 2) (at8 0 [(1, 5), (2, 7)]) 0 = 0 ∧
    (after (.add 0 1 2) (at8 0 [])).lastEffect.map (·.rd) = some (some 0) := by decide

theorem test_sub_borrows : regAfter (.sub 3 1 2) (at8 0 [(1, 0x80000000), (2, 1)]) 3 = 0x7FFFFFFF ∧
    regAfter (.sub 3 1 2) (at8 0 [(1, 0), (2, 0x80000000)]) 3 = 0x80000000 := by decide

theorem test_sub_same_register : regAfter (.sub 1 1 1) (at8 0 [(1, 9)]) 1 = 0 := by decide

theorem test_and : regAfter (.and 3 1 2) (at8 0 [(1, 0xF0F0F0F0), (2, 0x0FF00FF0)]) 3 = 0x00F000F0 := by decide

theorem test_or : regAfter (.or 3 1 2) (at8 0 [(1, 0xF0F0F0F0), (2, 0x0F0F0F0F)]) 3 = 0xFFFFFFFF := by decide

theorem test_xor : regAfter (.xor 3 1 2) (at8 0 [(1, 0xFFFF0000), (2, 0x0F0F0F0F)]) 3 = 0xF0F00F0F := by decide

theorem test_sll_low_five_bits : regAfter (.sll 3 1 2) (at8 0 [(1, 0x80000001), (2, 33)]) 3 = 0x00000002 ∧
    regAfter (.sll 3 1 2) (at8 0 [(1, 0x80000001), (2, 0xFFFFFFFF)]) 3 = 0x80000000 := by decide

theorem test_srl_low_five_bits : regAfter (.srl 3 1 2) (at8 0 [(1, 0x80000001), (2, 33)]) 3 = 0x40000000 ∧
    regAfter (.srl 3 1 2) (at8 0 [(1, 0x80000001), (2, 0xFFFFFFFF)]) 3 = 0x00000001 := by decide

theorem test_sra_low_five_bits : regAfter (.sra 3 1 2) (at8 0 [(1, 0x80000001), (2, 33)]) 3 = 0xC0000000 ∧
    regAfter (.sra 3 1 2) (at8 0 [(1, 0x80000001), (2, 0xFFFFFFFF)]) 3 = 0xFFFFFFFF := by decide

theorem test_slt : regAfter (.slt 3 1 2) (at8 0 [(1, 0x80000000), (2, 0x7FFFFFFF)]) 3 = 1 ∧
    regAfter (.slt 3 1 2) (at8 0 [(1, 0), (2, 0xFFFFFFFF)]) 3 = 0 := by decide

theorem test_sltu : regAfter (.sltu 3 1 2) (at8 0 [(1, 0x80000000), (2, 0x7FFFFFFF)]) 3 = 0 ∧
    regAfter (.sltu 3 1 2) (at8 0 [(1, 0), (2, 0xFFFFFFFF)]) 3 = 1 := by decide

theorem test_addi : regAfter (.addi 1 1 1) (at8 0 [(1, 41)]) 1 = 42 ∧
    regAfter (.addi 2 1 (-6)) (at8 0 [(1, 5)]) 2 = 0xFFFFFFFF := by decide

theorem test_slti : regAfter (.slti 2 1 (-1)) (at8 0 [(1, 0xFFFFFFFE)]) 2 = 1 ∧
    regAfter (.slti 2 1 (-2048)) (at8 0 [(1, 0x7FFFFFFF)]) 2 = 0 := by decide

theorem test_sltiu : regAfter (.sltiu 2 1 (-1)) (at8 0 [(1, 0)]) 2 = 1 ∧
    regAfter (.sltiu 2 1 2047) (at8 0 [(1, 0x80000000)]) 2 = 0 := by decide

theorem test_andi : regAfter (.andi 2 1 (-2048)) (at8 0 [(1, 0x7FFFFFFF)]) 2 = 0x7FFFF800 ∧
    regAfter (.andi 2 1 2047) (at8 0 [(1, 0x12345678)]) 2 = 0x00000678 := by decide

theorem test_ori : regAfter (.ori 2 1 2047) (at8 0 [(1, 0x80000000)]) 2 = 0x800007FF ∧
    regAfter (.ori 2 1 (-2048)) (at8 0 [(1, 0x12340000)]) 2 = 0xFFFFF800 := by decide

theorem test_xori : regAfter (.xori 2 1 (-2048)) (at8 0 [(1, 0x7FFFFFFF)]) 2 = 0x800007FF ∧
    regAfter (.xori 2 1 (-1)) (at8 0 [(1, 0x0000FFFF)]) 2 = 0xFFFF0000 := by decide

theorem test_slli : regAfter (.slli 3 1 1) (at8 0 [(1, 0x80000001)]) 3 = 2 ∧
    regAfter (.slli 3 1 31) (at8 0 [(1, 0x80000001)]) 3 = 0x80000000 := by decide

theorem test_srli : regAfter (.srli 3 1 0) (at8 0 [(1, 0x80000001)]) 3 = 0x80000001 ∧
    regAfter (.srli 3 1 31) (at8 0 [(1, 0x80000001)]) 3 = 1 := by decide

theorem test_srai : regAfter (.srai 3 1 1) (at8 0 [(1, 0x80000001)]) 3 = 0xC0000000 ∧
    regAfter (.srai 3 1 31) (at8 0 [(1, 0x80000001)]) 3 = 0xFFFFFFFF := by decide

theorem test_lui : regAfter (.lui 1 1048575) (at8 0 []) 1 = 0xFFFFF000 := by decide

theorem test_auipc : regAfter (.auipc 1 1048575) (at8 0x1000 []) 1 = 0 ∧
    regAfter (.auipc 1 524288) (at8 0x10 []) 1 = 0x80000010 := by decide

theorem test_lb : regAfter (.lb 2 1 0) (withBytes 0x80 [0x81] (at8 0 [(1, 0x80)])) 2 = 0xFFFFFF81 := by decide

theorem test_lbu : regAfter (.lbu 3 1 0) (withBytes 0x80 [0x81] (at8 0 [(1, 0x80)])) 3 = 0x81 := by decide

theorem test_lh_misaligned : regAfter (.lh 6 3 3) m2 6 = 0xFFFFAB12 ∧
    (after (.lh 6 3 3) m2).lastEffect.map (·.reads) = some [0x103, 0x104] := by decide

theorem test_lhu_misaligned : regAfter (.lhu 6 3 3) m2 6 = 0x0000AB12 := by decide

theorem test_lw_misaligned : regAfter (.lw 5 3 1) m2 5 = 0xAB123456 ∧ (after (.lw 5 3 1) m2).pages = [0x100] := by decide

theorem test_lw_untouched : regAfter (.lw 9 10 0) (at8 0 [(10, 0x12345678)]) 9 = 0 ∧
    (after (.lw 9 10 0) (at8 0 [(10, 0x12345678)])).pages = [0x12345600] := by decide

theorem test_lw_into_zero : regAfter (.lw 0 3 0) m2 0 = 0 ∧ (after (.lw 0 3 0) m2).pages = [0x100] ∧
    (after (.lw 0 0 0) m2).lastEffect.map (·.reads) = some [0, 1, 2, 3] := by decide

theorem test_sb : (after (.sb 4 3 4) (at8 0 [(3, 0x100), (4, 0x1AB)])).mem = [(0x104, 0xAB)] := by decide

theorem test_sh_wraps : (after (.sh 2 1 0) (at8 0 [(2, 0x12345678), (1, 0xFFFFFFFF)])).mem = [(0, 0x56), (0xFFFFFFFF, 0x78)] ∧
    (after (.sh 2 1 0) (at8 0 [(2, 0x12345678), (1, 0xFFFFFFFF)])).pages = [0, 0xFFFFFF00] := by decide

theorem test_sw : (after (.sw 1 3 0) (at8 0 [(3, 0x100), (1, 0x12345678)])).mem =
    [(0x100, 0x78), (0x101, 0x56), (0x102, 0x34), (0x103, 0x12)] := by decide

theorem test_sw_wraps : (after (.sw 6 0 (-2)) (at8 0 [(6, 0x11123344)])).mem =
    [(0, 0x12), (1, 0x11), (0xFFFFFFFE, 0x44), (0xFFFFFFFF, 0x33)] ∧
    (after (.sw 6 0 (-2)) (at8 0 [(6, 0x11123344)])).lastEffect.map (·.writes) = some [0xFFFFFFFE, 0xFFFFFFFF, 0, 1] := by decide

theorem test_jal : pcAfter (.jal 1 8) (at8 0 []) = 8 ∧ regAfter (.jal 1 8) (at8 0 []) 1 = 4 ∧
    (after (.jal 1 8) (at8 0 [])).lastEffect.map (fun e => (e.index, e.jump, e.jumpTarget)) = some (0, true, some 2) := by decide

theorem test_jal_self_loop : pcAfter (.jal 0 0xC) (at8 0xC []) = 0xC ∧ (after (.jal 0 0xC) (at8 0xC [])).x = (at8 0xC []).x := by decide

theorem test_jalr_same_register : pcAfter (.jalr 1 1 4) (at8 4 [(1, 0x10)]) = 0x14 ∧ regAfter (.jalr 1 1 4) (at8 4 [(1, 0x10)]) 1 = 8 := by decide

theorem test_jalr_misaligned : pcAfter (.jalr 0 5 0) (at8 8 [(5, 0x12)]) = 0x12 ∧
    (after (.jalr 0 5 0) (at8 8 [(5, 0x12)])).canStep = false ∧
    (after (.jalr 0 5 0) (at8 8 [(5, 0x12)])).lastEffect.map (·.jumpTarget) = some none := by decide

theorem test_beq : pcAfter (.beq 6 7 0) (at8 0x10 [(6, 0x7FFFFFFF), (7, 0x80000000)]) = 0x14 ∧
    pcAfter (.beq 6 7 0) (at8 0x10 [(6, 0x80000000), (7, 0x80000000)]) = 0 := by decide

theorem test_bne : pcAfter (.bne 6 7 0) (at8 0x10 [(6, 0x7FFFFFFF), (7, 0x80000000)]) = 0 ∧
    pcAfter (.bne 6 7 0) (at8 0x10 [(6, 0x80000000), (7, 0x80000000)]) = 0x14 := by decide

theorem test_blt : pcAfter (.blt 6 7 0) (at8 0x10 [(6, 0x80000000), (7, 0x7FFFFFFF)]) = 0 ∧
    pcAfter (.blt 6 7 0) (at8 0x10 [(6, 0), (7, 0xFFFFFFFF)]) = 0x14 := by decide

theorem test_bge : pcAfter (.bge 6 7 0) (at8 0x10 [(6, 0x80000000), (7, 0x7FFFFFFF)]) = 0x14 ∧
    pcAfter (.bge 6 7 0) (at8 0x10 [(6, 0x80000000), (7, 0x80000000)]) = 0 := by decide

theorem test_bltu : pcAfter (.bltu 6 7 0) (at8 0x10 [(6, 0x80000000), (7, 0x7FFFFFFF)]) = 0x14 ∧
    pcAfter (.bltu 6 7 0) (at8 0x10 [(6, 0), (7, 0xFFFFFFFF)]) = 0 := by decide

theorem test_bgeu : pcAfter (.bgeu 6 7 0) (at8 0x10 [(6, 0x80000000), (7, 0x7FFFFFFF)]) = 0 ∧
    pcAfter (.bgeu 6 7 0) (at8 0x10 [(6, 0), (7, 0xFFFFFFFF)]) = 0x14 := by decide

theorem test_beq_effect : (after (.beq 6 7 0) (at8 0x10 [(6, 3), (7, 3)])).lastEffect.map (fun e => (e.index, e.jump, e.jumpTarget)) = some (4, true, some 0) ∧
    (after (.beq 6 7 0) (at8 0x10 [(6, 3), (7, 3)])).lastEffect.map (fun e => (e.rd, e.rs1, e.rs2)) = some (none, some 6, some 7) := by decide

theorem test_fall_through_ends : (after (.bne 6 6 0) (at8 0x1C [])).canStep = false ∧ pcAfter (.bne 6 6 0) (at8 0x1C []) = 0x20 := by decide

/-! ### Assembly (95_test_vectors.md section 2.6) -/

theorem test_asm_a1_immediate_range : slotsOf ["addi x1, x0, 2047", "addi x1, x0, -2048", "addi x1, x0, 2048", "addi x1, x0, -2049"] =
    .error [⟨['f'], 3, .immediateOutOfRange⟩, ⟨['f'], 4, .immediateOutOfRange⟩] := by decide

theorem test_asm_a2_shamt_range : slotsOf ["slli x1, x1, 31", "slli x1, x1, 32", "slli x1, x1, -1"] =
    .error [⟨['f'], 2, .immediateOutOfRange⟩, ⟨['f'], 3, .immediateOutOfRange⟩] := by decide

theorem test_asm_a3_upper_range : slotsOf ["lui x1, 1048575", "lui x1, 1048576", "lui x1, -1"] =
    .error [⟨['f'], 2, .immediateOutOfRange⟩, ⟨['f'], 3, .immediateOutOfRange⟩] := by decide

theorem test_asm_a4_duplicate_label : slotsOf ["l1: addi x1, x0, 1", "l1: addi x2, x0, 2"] =
    .error [⟨['f'], 2, .duplicateLabel⟩] := by decide

theorem test_asm_a6_label_syntax : slotsOf ["_a.$9: addi x1, x0, 1", "9abc: addi x1, x0, 1"] =
    .error [⟨['f'], 2, .invalidLabelSyntax⟩] := by decide

theorem test_asm_a8_two_defects : slotsOf ["beq x1, x2, nowhere", "add x1, q1, x32"] =
    .error [⟨['f'], 1, .undefinedLabel⟩, ⟨['f'], 2, .unknownRegister⟩, ⟨['f'], 2, .unknownRegister⟩] := by decide

theorem test_asm_a9_unsupported : slotsOf ["ecall", "csrrw x1, mstatus, x2", "mul x1, x2, x3", "nop"] =
    .error [⟨['f'], 1, .unsupportedInstruction true⟩, ⟨['f'], 2, .unsupportedInstruction true⟩,
      ⟨['f'], 3, .unsupportedInstruction false⟩, ⟨['f'], 4, .unsupportedInstruction false⟩] := by decide

theorem test_asm_a10_case : slotsOf ["ADD x1, x2, x3", "add X1, x2, x3"] = .error [⟨['f'], 2, .unknownRegister⟩] := by decide

theorem test_asm_a11_spaces_and_comment : slotsOf ["add  x1 , x2 ,x3   # sum ; more"] = .ok [.instr (.add 1 2 3)] := by
  decide

theorem test_asm_a12_labels : (assemble false 0 (source ["a:", "b:  # note", "addi x1, x0, 1", ".text"])).map (·.labels) =
    .ok [(['a'], 0), (['b'], 0)] := by decide

theorem test_asm_a13_default_rd : slotsOf ["loop: jal loop", "jalr 0(t0)"] = .ok [.instr (.jal 1 0), .instr (.jalr 1 5 0)] := by
  decide

theorem test_asm_a14_to_a16 : slotsOf ["lw x1, (x2)", "a: b: addi x1, x0, 1", "beq x1, x2, 8"] =
    .error [⟨['f'], 1, .syntaxError⟩, ⟨['f'], 2, .unsupportedInstruction false⟩, ⟨['f'], 3, .undefinedLabel⟩] := by decide

theorem test_asm_a17_empty : slotsOf ["# only", "", "  ", ".data", "; x"] = .ok [] ∧
    (State.reset.loadSource (source [".data"])).1.status = .standby := by decide

/-- R117 with ACCEPT_HEX_IMM: accepted only when the parameter says so. -/
theorem test_asm_hex : imm12Operand true "-0x10".toList = .ok (-16) ∧ imm12Operand false "0x10".toList = .error [.syntaxError] := by
  decide

/-- A load admits the hexadecimal form exactly when the instance was created so (R117). -/
theorem test_load_hex : (State.loadSource { State.reset with params := { acceptHexImm := true, signedness := [] } }
      (source ["addi x1, x0, 0X1f"])).1.prog.instrs = [.instr (.addi 1 0 31)] ∧
    (State.reset.loadSource (source ["addi x1, x0, 0X1f"])).2 = some (.invalid [⟨['f'], 1, .syntaxError⟩]) := by decide

/-- An instance's own `EFFECT_SIGNEDNESS` entry is its Effect's, less those the source fixes for `sltu`; the other
mnemonics keep the default table (R55). -/
theorem test_signedness_parameter : (Params.mk false [(.add, ⟨true, false, true, false, true, false⟩)]).markers .add =
      ⟨true, false, true, false, true, false⟩ ∧
    (Params.mk false [(.sltu, ⟨true, true, true, true, true, true⟩)]).markers .sltu = ⟨true, true, false, true, false, true⟩ ∧
    (Params.mk false [(.add, ⟨true, true, true, true, true, true⟩)]).markers .lw = ⟨true, true, false, true, false, false⟩ := by
  decide

/-- The mnemonic ends at the first whitespace (log entry 14): a comma or a parenthesis does not end it. -/
theorem test_mnemonic_end : slotsOf ["lw,x1", "jalr(x1)"] =
    .error [⟨['f'], 1, .unsupportedInstruction false⟩, ⟨['f'], 2, .unsupportedInstruction false⟩] := by decide

/-- R341 (S11), and the clamp. -/
theorem test_normaliseEntry : normaliseEntry 0x1000 0x1003 = 0x1000 ∧ normaliseEntry 0xFFE 0x1003 = 0xFFC := by decide

/-- R107: words loaded at the entry; an illegal one is refused. -/
theorem test_loadWords : (State.reset.loadWords [0x00000293, 0x0000006F]).prog.instrs = [.instr (.addi 5 0 0), .instr (.jal 0 4)] ∧
    (State.reset.loadWords [0x00000293, 0]).refused = some .illegalWord := by decide

/-! ### Actions (95_test_vectors.md section 2.7) -/

theorem test_s2_step : (p1.handle .step).state.status = .running ∧ (p1.handle .step).state.pc = 4 ∧
    (p1.handle .step).state.lastEffect.map (fun e => (e.index, e.jump, e.rd, e.rs1)) = some (0, false, some 5, some 0) := by
  decide

theorem test_s6_deadline_at_once : (p1.handle (.run 0)).state = { p1 with timedOut := true } ∧
    (p1.handle (.run 0)).reply = .effect none := by decide

theorem test_s7_failed_reload : (p1.handle (.reload (source ["addi t0, zero, 2048"]))).state.status = .standby ∧
    (p1.handle (.reload (source ["addi t0, zero, 2048"]))).state.loadFailed = true ∧
    (p1.handle (.reload (source ["addi t0, zero, 2048"]))).failure = some (.invalid [⟨['f'], 1, .immediateOutOfRange⟩]) ∧
    (p1.handle (.reload (source ["addi t0, zero, 2048"]))).state.statusSurface.enabledActions = [.reload, .refresh] := by
  decide

theorem test_s9_self_loop : (selfLoop.handle (.run 2)).state.pc = 0 ∧ (selfLoop.handle (.run 2)).state.status = .running ∧
    (selfLoop.handle (.run 2)).state.timedOut = true := by decide

theorem test_s10_padding : (padOnly.handle (.run 3)).reply = .refusal .paddingSlot ∧
    (padOnly.handle (.run 3)).state.refused = some .paddingSlot ∧
    ((padOnly.handle (.run 3)).state.handle .stop).state.refused = none := by decide

/-- RUN clears `timedOut` at its start with the refusal mark set too (R348, D12). -/
theorem test_run_clears_timedOut : (padOnly.handle (.run 0)).state.timedOut = true ∧
    ((padOnly.handle (.run 0)).state.handle .step).state.timedOut = true ∧
    ((((padOnly.handle (.run 0)).state.handle .step).state.handle (.run 0)).state.timedOut = false) := by decide

/-- Natural termination clears the terminal Effect (R58); STEP does not (R351). -/
theorem test_terminal_effect : (oneSlot.handle (.run 9)).state.lastEffect =
      some ⟨0, false, none, none, none, none, Markers.none, [], []⟩ ∧
    (oneSlot.handle .step).state.lastEffect.map (fun e => (e.rd, e.rs1)) = some (some 1, some 0) ∧
    (oneSlot.handle .step).state.status = .executed := by decide

theorem test_disabled : (State.reset.handle .step).reply = .rejected ∧ (State.reset.handle .stop).reply = .rejected := by
  decide

/-- The word placed for the next step runs from reset. -/
theorem test_withFetchWord : ∃ t, step (State.reset.withFetchWord 32 0x00500093) = .next t ∧ t.reg 1 = 5 ∧ t.pc = 4 :=
  ⟨_, rfl, by decide, by decide⟩

theorem test_withFetchWord_illegal : step (State.reset.withFetchWord 32 0) = .refused .illegalWord := rfl

/-! ### Witnesses: for each statement with hypotheses, values that meet them -/

theorem witness_ImmediateShiftsAreArithmetic : integerLiteral false "32".toList = some 32 := by decide

theorem witness_LoadIntoZeroStillReads : (Instr.lhu 0 3 3).loadAccess = some (3, 3, 2) ∧
    (Instr.lhu 0 3 3).destination = some 0 := by decide

theorem witness_StoresWriteLowBytes : Memory.wf m2.mem := by decide

/-- At the top of the address space, where the word wraps. -/
theorem witness_StoredWordLoadsBack : Memory.wf (at8 0 [(6, 0x11123344)]).mem ∧ (7 : RegIdx) ≠ 0 ∧
    ∃ t, exec (.sw 6 0 (-2)) (at8 0 [(6, 0x11123344)]) = .next t := ⟨by decide, by decide, _, rfl⟩

theorem witness_JumpsLinkAndGoToTarget : (at8 0 []).prog.labels.lookup ['L'] = some 8 ∧
    memoryOperand false "-4(ra)".toList = .ok (-4, 1) ∧ fitsJal 0x100000 0 = true ∧ fitsJal 0 0x100000 = false ∧
    (at8 0 []).prog.contains 0x20 = false ∧ (at8 0 []).prog.contains 0x1C = true ∧ (after (.jal 1 0) padOnly).canStep = true ∧
    (after (.jal 1 0) padOnly).fetch = .pad := by decide

/-- One instruction of each class answers a next state: the premise of the statements over all instructions. -/
theorem witness_all_instructions : (∃ t, exec (.add 1 2 3) m2 = .next t) ∧ (∃ t, exec (.lw 1 3 0) m2 = .next t) ∧
    (∃ t, exec (.sb 3 3 0) m2 = .next t) ∧ (∃ t, exec (.jal 1 8) m2 = .next t) ∧
    (∃ t, exec (.jalr 1 3 0) m2 = .next t) ∧ (∃ t, exec (.beq 1 2 8) m2 = .next t) :=
  ⟨⟨_, rfl⟩, ⟨_, rfl⟩, ⟨_, rfl⟩, ⟨_, rfl⟩, ⟨_, rfl⟩, ⟨_, rfl⟩⟩

theorem witness_OnlyTheDestinationIsWritten : (Instr.add 1 2 3).destination ≠ some 2 ∧ (Instr.sw 1 2 3).destination ≠ some 1 := by
  decide

theorem witness_OnlyAccessesReachMemory : Memory.wf m2.mem ∧ (after (.sb 3 3 0) m2).byteAt 0x100 ≠ m2.byteAt 0x100 ∧
    (Instr.add 1 2 3).loadAccess = none ∧ (Instr.add 1 2 3).storeAccess = none := by decide

theorem witness_NextPcByClass : (Instr.add 1 2 3).transfersControl = false ∧
    (Instr.jal 1 8).target = some (pcAfter (.jal 1 8) m2) ∧ (Instr.beq 1 2 8).target = some (pcAfter (.beq 1 2 8) m2) := by
  decide

/-- A jump that stays, a `jalr` that leaves, and the instruction at `end`. -/
theorem witness_OnlyJalrAndTheLastSlotLeaveTheProgram : selfLoop.prog.wf ∧ selfLoop.canStep = true ∧
    selfLoop.fetch = .instr (.jal 0 0) ∧ (Instr.jal 0 0).target = some (pcAfter (.jal 0 0) selfLoop) ∧
    oneSlot.prog.wf ∧ oneSlot.canStep = true ∧ oneSlot.fetch = .instr (.addi 1 0 5) ∧
    (after (.addi 1 0 5) oneSlot).canStep = false := by
  refine ⟨⟨by decide, by decide, by decide, ?_, by decide, by decide⟩, by decide, by decide, by decide,
    ⟨by decide, by decide, by decide, ?_, by decide, by decide⟩, by decide, by decide, by decide⟩
  · intro l hl
    obtain rfl : l = (['l'], 0) := by simpa [selfLoop] using (show l ∈ [(['l'], (0 : Word))] from hl)
    exact ⟨0, by decide, by decide⟩
  · intro l hl; exact absurd (show l ∈ ([] : List (Text × Word)) from hl) (by simp)

theorem witness_NoInstructionReadsHostState : m2 ≠ { m2 with timedOut := true, pages := [0x100] } := by decide

/-- Absent operands, the two fixed entries, the default parameters and others. -/
theorem witness_EffectMarkers : (Instr.sltu 1 2 3).mnemonic = .sltu ∧ (Instr.lb 1 2 3).mnemonic = .lb ∧
    (after (.sw 1 2 3) m2).lastEffect.map (·.rd) = some none ∧ (after (.lui 1 2) m2).lastEffect.map (·.rs1) = some none ∧
    m2.params = Params.default ∧
    (Params.mk true [(.add, Markers.none)]).signedness.lookup (Instr.add 1 2 3).mnemonic = some Markers.none := by decide

theorem witness_EffectJumpFields : (Instr.jal 1 8).transfersControl = true ∧ (Instr.jal 1 8).source2 = none ∧
    (after (.bne 1 1 8) m2).lastEffect.map (·.jump) = some false := by decide

theorem witness_CanonicalMemoryIsDetermined : Memory.wf [(5, 1)] ∧ Memory.wf [] := by decide

theorem witness_ContinuationPredicate : (at8 0x1C []).prog.entry.toNat + 4 * (at8 0x1C []).prog.count ≤ 2 ^ 32 ∧
    (at8 0x1C []).canStep = true ∧ (at8 0x20 []).canStep = false ∧ (at8 0x12 []).canStep = false ∧
    State.reset.prog.count = 0 := by decide

theorem witness_ContinuationFindsItsSlot : (at8 0x1C []).prog.entry.toNat % 4 = 0 ∧ (at8 0x1C []).canStep = true := by decide

theorem witness_StepRunsTheFetchedInstruction : p1.refused = none ∧ p1.status.runs = true ∧ p1.canStep = true ∧
    p1.prog.instrs[(p1.pc.toNat - p1.prog.entry.toNat) / 4]? = some (.instr (.addi 5 0 0)) := by decide

/-- With a slot at the program counter, and without. -/
theorem witness_StepRunsTheDecodedWord : 0xFE734CE3 < 2 ^ 32 ∧ (at8 0x14 []).canStep = true ∧
    decode (at8 0x14 []).pc (BitVec.ofNat 32 0xFE734CE3) = .ok (.blt 6 7 0x0C) ∧ State.reset.canStep = false ∧
    decode (State.reset.pc &&& 0xFFFFFFFC) (BitVec.ofNat 32 0x006282B3) = .ok (.add 5 5 6) := by decide

theorem witness_StepActionExecutesOnce : p1.refused = none ∧ p1.status.runs = true ∧ p1.canStep = true ∧
    p1.fetch = .instr (.addi 5 0 0) := by decide

theorem witness_PaddingSlotIsRefused : padOnly.refused = none ∧ padOnly.status.runs = true ∧ padOnly.canStep = true ∧
    padOnly.fetch = .pad := by decide

theorem witness_EnabledActionTable : enabled State.reset.status Action.step.kind = false ∧
    (padOnly.handle .step).state.refused = some .paddingSlot ∧ (padOnly.handle .step).state.status.runs = true := by decide

/-- A state for each clause: no next instruction, an instruction, the padding slot. -/
theorem witness_RunIsItsLoop : (at8 0x20 []).refused = none ∧ (at8 0x20 []).status.runs = true ∧ (at8 0x20 []).canStep = false ∧
    p1.refused = none ∧ p1.status.runs = true ∧ p1.canStep = true ∧ p1.fetch = .instr (.addi 5 0 0) ∧
    padOnly.status.runs = true ∧ padOnly.canStep = true ∧ padOnly.fetch = .pad ∧ ∃ t, exec (.addi 5 0 0) p1 = .next t :=
  ⟨by decide, by decide, by decide, by decide, by decide, by decide, by decide, by decide, by decide, by decide, _, rfl⟩

/-- Each of the three ends of a RUN. -/
theorem witness_RunEndsOrTimesOut : (padOnly.handle (.run 1)).state.refused = some .paddingSlot ∧
    (p1.handle (.run 1)).state.timedOut = true ∧ (oneSlot.handle (.run 1)).state.status = .executed := by decide

theorem witness_TimedOutRunIsResumed : p1.refused = none ∧ p1.status.runs = true ∧
    (p1.handle (.run 1)).state.timedOut = true ∧ (p1.handle (.run 1)).state.refused = none := by decide

/-- The invariant at a loaded Program, before and after its one step. -/
theorem witness_Inv : Inv oneSlot := by
  refine ⟨⟨by decide, by decide, by decide, by decide⟩, ⟨by decide, by decide, by decide, ?_, by decide, by decide⟩, by decide,
    by decide, by decide, by decide, ?_⟩
  · intro l hl; exact absurd (show l ∈ ([] : List (Text × Word)) from hl) (by simp)
  · intro r hr; exact absurd (show (none : Option Refusal) = some r from hr) (by simp)

theorem witness_StraightLineRunEnds : Inv oneSlot ∧ oneSlot.status = .ready ∧ oneSlot.refused = none ∧
    oneSlot.prog.count < 2 ^ 30 ∧ oneSlot.prog.instrs = [.instr (.addi 1 0 5)] ∧
    (Instr.addi 1 0 5).transfersControl = false :=
  ⟨witness_Inv, by decide, by decide, by decide, by decide, by decide⟩

theorem witness_StepKeepsTheInvariant : Inv oneSlot ∧ ∃ t, step oneSlot = .next t ∧ t.status = .executed :=
  ⟨witness_Inv, _, rfl, by decide⟩

theorem witness_StopResets : p1.status ≠ .standby ∧ (p1.handle .step).state.status ≠ .standby := by decide

theorem witness_RefreshReplaysTheEffect : (∃ e, (p1.handle .step).reply = .effect e) ∧ (p1.handle .stop).reply = .nothing :=
  ⟨⟨_, rfl⟩, rfl⟩

/-- A failing source, a good one, and one that does not fit below the top of the address space. -/
theorem witness_ReloadLoadsAllOrNothing : assemble false 0 (source ["nop"]) = .error [⟨['f'], 1, .unsupportedInstruction false⟩] ∧
    (∃ p, assemble false 0 (source ["addi x1, x0, 5"]) = .ok p ∧ p.entry.toNat + 4 * p.count ≤ 2 ^ 32) ∧
    (∃ p, assemble false 0xFFFFFFFC (source ["addi x1, x0, 5", "add x1, x1, x1"]) = .ok p ∧
      p.entry.toNat + 4 * p.count > 2 ^ 32) :=
  ⟨by decide, ⟨⟨[.instr (.addi 1 0 5)], 0, []⟩, by decide, by decide⟩,
    ⟨⟨[.instr (.addi 1 0 5), .instr (.add 1 1 1)], 0xFFFFFFFC, []⟩, by decide, by decide⟩⟩

/-- A Program that just fits below the top of the address space. -/
theorem witness_AssembledProgramIsWellFormed : ∃ p, assemble false 0xFFFFFFFC (source ["l: jal x0, l"]) = .ok p ∧
    (0xFFFFFFFC : Word).toNat % 4 = 0 ∧ p.entry.toNat + 4 * p.count ≤ 2 ^ 32 :=
  ⟨⟨[.instr (.jal 0 0xFFFFFFFC)], 0xFFFFFFFC, [(['l'], 0xFFFFFFFC)]⟩, by decide, by decide, by decide⟩

theorem witness_DanglingLabelTakesPaddingSlot : (parseLine "end:".toList).label = some "end".toList ∧
    (parseLine "end:".toList).body = none ∧ ∃ p, assemble false 0 ⟨['f'], ["addi x1, x0, 5".toList] ++ ["end:".toList]⟩ = .ok p :=
  ⟨by decide, by decide, ⟨[.instr (.addi 1 0 5), .pad], 0, [("end".toList, 4)]⟩, by decide⟩

theorem witness_UnadmittedMnemonicFailsTheLoad : (parseLine "fence".toList).body = some ("fence".toList, []) ∧
    mnemonicNames.lookup "fence".toList = none ∧ recognisedUnsupported.contains "fence".toList = true ∧
    (parseLine "mul x1,x2,x3".toList).body = some ("mul".toList, "x1,x2,x3".toList) ∧
    mnemonicNames.lookup "mul".toList = none := by decide

theorem witness_ImmediatesAreAdmittedInRange : integerLiteral false "-2048".toList = some (-2048) ∧
    integerLiteral false "2047".toList = some 2047 ∧ integerLiteral false "2048".toList = some 2048 ∧
    integerLiteral false "-2049".toList = some (-2049) ∧ integerLiteral false "0".toList = some 0 ∧
    integerLiteral false "-1".toList = some (-1) ∧ integerLiteral false "31".toList = some 31 ∧
    integerLiteral false "1048575".toList = some 1048575 ∧ integerLiteral false "1048576".toList = some 1048576 ∧
    hexValue "0xFF".toList = some 255 := by decide

/-- The ends of the two offset ranges (R106). -/
theorem witness_EncodedRecordDecodesBack : (Instr.add 1 2 3).hasWord 0 = true ∧ (Instr.beq 1 2 0x1000).hasWord 0x2000 = true ∧
    (Instr.bgeu 1 2 0x2FFE).hasWord 0x2000 = true ∧ (Instr.jal 1 0x100000).hasWord 0x200000 = true ∧
    (Instr.jal 1 0x2FFFFE).hasWord 0x200000 = true := by decide

theorem witness_DecodedWordEncodesBack : decode 0x14 0xFE734CE3 = .ok (.blt 6 7 0x0C) := by decide

theorem witness_WordsMatchAtMostOneRow : (∃ r ∈ opcodeTable, (0x006282B3 : Word) &&& r.mask = r.pattern) ∧
    ∀ r ∈ opcodeTable, (0x00000073 : Word) &&& r.mask ≠ r.pattern := by decide

theorem witness_ExcludedWordsAreIllegal : (0x0FF0000F : Word).extractLsb' 0 7 = 0b0001111#7 ∧
    (0x00000073 : Word).extractLsb' 0 7 = 0b1110011#7 ∧ (0x023100B3 : Word).extractLsb' 0 7 = 0b0110011#7 ∧
    (0x023100B3 : Word).extractLsb' 25 7 = 0b0000001#7 := by decide

/-- A slot, and a touched page. -/
theorem witness_HostReadsTheState : oneSlot.prog.instrs.head? = some (.instr (.addi 1 0 5)) ∧
    ({ oneSlot with pages := [0x100] } : State).touchedPages.map Prod.fst = [0x100] := ⟨rfl, rfl⟩

/-- The status surface tells `Ready` from `Running`, whose enabled actions are the same (R49, R347). -/
theorem test_surface_status : p1.statusSurface.status = .ready ∧ (p1.handle .step).state.statusSurface.status = .running ∧
    p1.statusSurface.enabledActions = (p1.handle .step).state.statusSurface.enabledActions := by decide

theorem witness_CreateEstablishesTheInvariant : (State.reset.loadSource (source ["nop"])).1.loadFailed = true := by decide

end Sys2Proof.Tests
end

/-! PROOFS. The statements about the state (10_state.md): what every step keeps, the continuation predicate, what an
instruction writes and reads, the Effect it emits, and what the host reads. -/

namespace Sys2Proof

/-! ### Slots and labels of a Program (R38, R43, R56, R357) -/

/-- The slot a control transfer reaches, as arithmetic (R56). -/
theorem Program.jumpTarget_eq (p : Program) (a : Word) :
    p.jumpTarget a = if p.contains a then some ((a.toNat - p.entry.toNat) / 4) else none := by
  unfold Program.jumpTarget
  split
  case isTrue h => rw [Program.slotNumber_eq (Program.contains_bound h).2.2.1]
  case isFalse => rfl

/-- An aligned address in a Program with an aligned entry is its slot's address. -/
theorem Program.slotAddress_slotNumber {p : Program} {a : Word} (hentry : p.entry.toNat % 4 = 0)
    (h : p.contains a = true) : p.slotAddress (p.slotNumber a) = a := by
  obtain ⟨-, halign, hle, -⟩ := Program.contains_bound h
  rw [Program.slotNumber_eq hle]
  have ha := a.isLt
  apply BitVec.eq_of_toNat_eq
  rw [Program.slotAddress, BitVec.toNat_add, BitVec.toNat_ofNat]
  omega

/-- The labels a listing shows at an address. -/
theorem Program.mem_labels_at (p : Program) (a : Word) (n : Text) :
    n ∈ (p.labels.filter fun l => l.2 == a).map Prod.fst ↔ (n, a) ∈ p.labels := by
  simp

theorem Program.listing_getElem? {p : Program} {i : Nat} {slot : Slot} (h : p.instrs[i]? = some slot) :
    p.listing[i]? = some (p.slotAddress i,
      (p.labels.filter fun l => l.2 == p.slotAddress i).map Prod.fst, slot) := by
  simp [Program.listing, List.getElem?_zipIdx, h]

namespace Machine

/-! ### The settling of the status, and the invariant (R49, R351) -/

@[simp] theorem State.settle_canStep (s : State) : s.settle.canStep = s.canStep := State.canStep_congr rfl rfl

theorem DataInv.settle {s : State} (h : DataInv s) : DataInv s.settle := h.congr rfl rfl rfl

/-- Settling the status gives it the agreement the invariant asks for: all else is what the settling does not touch. -/
theorem Inv.of_settle {s : State} (hdata : DataInv s) (hprog : s.prog.wf) (hcount : s.prog.count ≠ 0)
    (hrefused : s.refused = none) : Inv s.settle where
  data := hdata.settle
  prog := hprog
  standby := by cases h : s.canStep <;> simp [h, hcount]
  runs := by cases h : s.canStep <;> simp [h, Status.runs]
  executed := by cases h : s.canStep <;> simp [h]
  ready := by cases h : s.canStep <;> simp [h]
  refused := by simp [hrefused]

/-- Settles O58: an instruction keeps the data invariant, the Program and the absent mark, and the settling of the
status gives the rest. -/
theorem stepKeepsTheInvariant : Obligations.StepKeepsTheInvariant := by
  intro s t hs hstep
  obtain ⟨hmark, ⟨-, hcan, i, u, -, hexec, rfl⟩ | ⟨hruns, hcan, -⟩ | ⟨-, rfl⟩⟩ := step_cases hstep
  · obtain ⟨hprog, -, -, -, hrefused, -⟩ := exec_controlKept hexec
    have hcount : s.prog.count ≠ 0 := (Program.contains_bound hcan).1
    exact .of_settle (exec_dataInv hs.data hexec) (hprog ▸ hs.prog) (hprog ▸ hcount) (hrefused.trans hmark)
  · exact absurd (hs.runs hruns) (by simp [hcan])
  · exact hs

/-! ### What an instruction writes, and where it goes (R34, R40, R43) -/

/-- Settles O20: each of the five shared operations keeps the Program and the control state. -/
theorem noInstructionChangesProgramOrControl : Obligations.NoInstructionChangesProgramOrControl :=
  fun _ _ _ h => exec_controlKept h

/-- A write to `rd` leaves every other register as it was. -/
theorem RegsAfterWrite.reg_of_ne {s t : State} {rd r : RegIdx} {v : Word} (h : RegsAfterWrite s t rd v)
    (hr : some rd ≠ some r) : t.reg r = s.reg r := by
  rw [h r, if_neg fun hrd => hr (congrArg some hrd.1.symm)]

/-- Settles O21: by the shared operation the instruction is; branches and stores keep the whole register file. -/
theorem onlyTheDestinationIsWritten : Obligations.OnlyTheDestinationIsWritten := by
  intro i s t h r hr
  rcases exec_cases i s with ⟨m, rd, a, b, v, he, hd, -⟩ | ⟨m, rd, a, b, he, hd, -⟩ | ⟨m, a, b, c, d, he, -⟩ |
    ⟨m, n, ex, rd, a, b, he, hd, -⟩ | ⟨m, n, a, b, c, he, -⟩ <;> (rw [he] at h; cases h)
  · exact RegsAfterWrite.reg_of_ne (State.writeResult_spec ..).1 (hd ▸ hr)
  · exact RegsAfterWrite.reg_of_ne (State.jumpTo_spec ..).1 (hd ▸ hr)
  · exact (State.branchIf_spec ..).1 r
  · exact RegsAfterWrite.reg_of_ne (State.load_spec ..).1 (hd ▸ hr)
  · exact State.reg_congr (State.store_x ..) r

/-- An instruction outside 41_control_transfer.md goes to `pc + 4` (R40). -/
theorem exec_pc_of_not_transfersControl {i : Instr} {s t : State} (h : exec i s = .next t)
    (hi : i.transfersControl = false) : t.pc = s.pc + 4 := by
  rcases exec_cases i s with ⟨m, rd, a, b, v, he, -⟩ | ⟨m, rd, a, b, -, -, -, -, -, -, hc, -⟩ |
    ⟨m, a, b, c, d, -, -, -, -, -, -, hc, -⟩ | ⟨m, n, ex, rd, a, b, he, -⟩ | ⟨m, n, a, b, c, he, -⟩
  · rw [he] at h; cases h; exact State.writeResult_pc ..
  · rw [hi] at hc; cases hc
  · rw [hi] at hc; cases hc
  · rw [he] at h; cases h; exact State.load_pc ..
  · rw [he] at h; cases h; exact State.store_pc ..

/-- A branch goes to `pc + 4` or to its target. -/
theorem State.branchIf_pc_cases (s : State) (m : Mnemonic) (rs1 rs2 : RegIdx) (taken : Bool) (target : Word) :
    (s.branchIf m rs1 rs2 taken target).pc = s.pc + 4 ∨ target = (s.branchIf m rs1 rs2 taken target).pc := by
  cases taken
  · exact .inl rfl
  · exact .inr rfl

/-- Settles O23: the control transfer instructions one by one, every other by its class. -/
theorem nextPcByClass : Obligations.NextPcByClass := by
  intro i s t h
  refine ⟨exec_pc_of_not_transfersControl h, ?_⟩
  cases i
  case jal rd target => cases h; exact .inr (.inl (congrArg some (State.jumpTo_pc ..).symm))
  case jalr rd rs1 imm => cases h; exact .inr (.inr ⟨rd, rs1, imm, rfl, State.jumpTo_pc ..⟩)
  case beq | bne | blt | bge | bltu | bgeu =>
    cases h
    exact (State.branchIf_pc_cases ..).imp_right fun e => .inl (congrArg some e)
  all_goals exact .inl (exec_pc_of_not_transfersControl h rfl)

/-! ### What an instruction reads (R49, R52, R55) -/

/-- Two states hold the same Program, registers, program counter and data memory: all an instruction reads. -/
structure SameMachine (s s' : State) : Prop where
  prog : s.prog = s'.prog
  x    : s.x = s'.x
  pc   : s.pc = s'.pc
  mem  : s.mem = s'.mem

/-- Two states that hold the same machine, and the same Effect where `s` and `s'` have one EFFECT_SIGNEDNESS. -/
structure SameResult (s s' t t' : State) : Prop where
  machine : SameMachine t t'
  effect  : s.params.signedness = s'.params.signedness → t.lastEffect = t'.lastEffect

namespace SameMachine

variable {s s' : State} (h : SameMachine s s')
include h

theorem reg (r : RegIdx) : s.reg r = s'.reg r := State.reg_congr h.x r

theorem byteAt (a : Word) : s.byteAt a = s'.byteAt a := State.byteAt_congr h.mem a

theorem effectiveAddress (rs1 : RegIdx) (imm : BitVec 12) :
    s.effectiveAddress rs1 imm = s'.effectiveAddress rs1 imm := by
  rw [State.effectiveAddress, State.effectiveAddress, h.reg]

theorem setReg (rd : RegIdx) (v : Word) : SameMachine (s.setReg rd v) (s'.setReg rd v) where
  prog := by simp [h.prog]
  x := by
    by_cases hrd : rd = 0 <;> simp [State.setReg, hrd, h.x]
  pc := by simp [h.pc]
  mem := by simp [h.mem]

theorem retire (next : Word) (e e' : Effect) : SameMachine (s.retire next e) (s'.retire next e') :=
  ⟨h.prog, h.x, rfl, h.mem⟩

theorem touch (a : Word) : SameMachine (s.touch a) (s'.touch a) := ⟨h.prog, h.x, h.pc, h.mem⟩

theorem writeByte (a : Word) (b : Byte) : SameMachine (s.writeByte a b) (s'.writeByte a b) :=
  ⟨h.prog, h.x, h.pc, by simp [h.mem]⟩

theorem memRead_value (A : Word) (n : Nat) : (s.memRead A n).1 = (s'.memRead A n).1 := by
  induction n generalizing s s' A with
  | zero => rfl
  | succ n ih => rw [State.memRead_succ, State.memRead_succ, h.byteAt, ih (h.touch A)]

theorem memRead_state (A : Word) (n : Nat) : SameMachine (s.memRead A n).2 (s'.memRead A n).2 :=
  ⟨by simp [h.prog], by simp [h.x], by simp [h.pc], by simp [h.mem]⟩

theorem memWrite (A : Word) (n : Nat) (v : Word) : SameMachine (s.memWrite A n v) (s'.memWrite A n v) := by
  induction n generalizing s s' A v with
  | zero => exact h
  | succ n ih => exact ih (h.writeByte A _) _ _

theorem plainEffect (m : Mnemonic) (rd rs1 rs2 : Option RegIdx) (hp : s.params.signedness = s'.params.signedness) :
    s.plainEffect m rd rs1 rs2 = s'.plainEffect m rd rs1 rs2 := by
  simp [State.plainEffect, Params.markers, hp, State.index_congr h.prog h.pc]

theorem jumpEffect (m : Mnemonic) (rd rs1 rs2 : Option RegIdx) (target : Word)
    (hp : s.params.signedness = s'.params.signedness) :
    s.jumpEffect m rd rs1 rs2 target = s'.jumpEffect m rd rs1 rs2 target := by
  rw [State.jumpEffect, State.jumpEffect, h.plainEffect m rd rs1 rs2 hp, h.prog]

/-! The five shared operations, given the same operands. -/

theorem writeResult {m : Mnemonic} {rd : RegIdx} {rs1 rs2 : Option RegIdx} {v v' : Word} (hv : v = v') :
    SameResult s s' (s.writeResult m rd rs1 rs2 v) (s'.writeResult m rd rs1 rs2 v') := by
  subst hv
  refine ⟨?_, fun hp => congrArg some (h.plainEffect _ _ _ _ hp)⟩
  rw [State.writeResult, State.writeResult, State.nextPc, State.nextPc, h.pc]
  exact (h.setReg _ _).retire _ _ _

theorem jumpTo {m : Mnemonic} {rd : RegIdx} {rs1 : Option RegIdx} {target target' : Word} (ht : target = target') :
    SameResult s s' (s.jumpTo m rd rs1 target) (s'.jumpTo m rd rs1 target') := by
  subst ht
  refine ⟨?_, fun hp => congrArg some (h.jumpEffect _ _ _ _ _ hp)⟩
  rw [State.jumpTo, State.jumpTo, State.nextPc, State.nextPc, h.pc]
  exact (h.setReg _ _).retire _ _ _

theorem branchIf {m : Mnemonic} {rs1 rs2 : RegIdx} {taken taken' : Bool} {target : Word} (ht : taken = taken') :
    SameResult s s' (s.branchIf m rs1 rs2 taken target) (s'.branchIf m rs1 rs2 taken' target) := by
  subst ht
  refine ⟨⟨by simp [h.prog], by simp [h.x], by simp [h.pc], by simp [h.mem]⟩, fun hp => ?_⟩
  rw [State.branchIf_lastEffect, State.branchIf_lastEffect, h.jumpEffect _ _ _ _ _ hp, h.plainEffect _ _ _ _ hp]

theorem load {m : Mnemonic} {n : Nat} {extend : Word → Word} {rd rs1 : RegIdx} {imm : BitVec 12} :
    SameResult s s' (s.load m n extend rd rs1 imm) (s'.load m n extend rd rs1 imm) := by
  refine ⟨?_, fun hp => ?_⟩
  · rw [State.load, State.load, State.nextPc, State.nextPc, h.pc, h.effectiveAddress]
    simp only [h.memRead_value]
    exact ((h.memRead_state _ _).setReg _ _).retire _ _ _
  · rw [State.load_lastEffect, State.load_lastEffect, h.plainEffect _ _ _ _ hp, h.effectiveAddress]

theorem store {m : Mnemonic} {n : Nat} {rs2 rs1 : RegIdx} {imm : BitVec 12} :
    SameResult s s' (s.store m n rs2 rs1 imm) (s'.store m n rs2 rs1 imm) := by
  refine ⟨?_, fun hp => ?_⟩
  · rw [State.store, State.store, State.nextPc, State.nextPc, h.pc, h.effectiveAddress, h.reg]
    exact (h.memWrite _ _ _).retire _ _ _
  · rw [State.store_lastEffect, State.store_lastEffect, h.plainEffect _ _ _ _ hp, h.effectiveAddress]

/-- An instruction gives the same result on two states that hold the same machine. -/
theorem exec {i : Instr} {t t' : State} (ht : exec i s = .next t) (ht' : exec i s' = .next t') :
    SameResult s s' t t' := by
  cases i <;> cases ht <;> cases ht'
  case jal => exact h.jumpTo rfl
  case jalr => exact h.jumpTo (h.effectiveAddress ..)
  case beq | bne | blt | bge | bltu | bgeu => exact h.branchIf (by simp only [h.reg])
  case lb | lh | lw | lbu | lhu => exact h.load
  case sb | sh | sw => exact h.store
  case lui => exact h.writeResult rfl
  case auipc => exact h.writeResult (by rw [h.pc])
  all_goals exact h.writeResult (by simp only [h.reg])

end SameMachine

/-- Settles O25: the two states hold the same machine, so every shared operation gives the same result. -/
theorem noInstructionReadsHostState : Obligations.NoInstructionReadsHostState := by
  intro i s s' t t' hprog hx hpc hmem ht ht'
  obtain ⟨hmachine, heffect⟩ := SameMachine.exec ⟨hprog, hx, hpc, hmem⟩ ht ht'
  exact ⟨hmachine.prog, hmachine.x, hmachine.pc, hmachine.mem, heffect⟩

/-! ### The Effect an instruction emits (R53 to R57) -/

/-- The byte addresses of an access (base register, offset, width), ascending, and none where there is no access. -/
def State.accessAddresses (s : State) : Option (RegIdx × BitVec 12 × Nat) → List Word
  | some (rs1, imm, n) => byteAddresses (s.effectiveAddress rs1 imm) n
  | none => []

/-- The Effect `e` of an instruction that led from `s` to `t`, the markers aside: its register fields and lists are
those of the instruction's class, its jump fields those of the way the program counter went. -/
structure EffectOf (i : Instr) (s t : State) (e : Effect) : Prop where
  index      : e.index = s.index
  rd         : e.rd = i.destination
  rs1        : e.rs1 = i.source1
  rs2        : e.rs2 = i.source2
  reads      : e.reads = s.accessAddresses i.loadAccess
  writes     : e.writes = s.accessAddresses i.storeAccess
  noTransfer : i.transfersControl = false → e.jump = false
  transfer   : i.transfersControl = true → i.source2 = none → e.jump = true
  noJump     : e.jump = false → t.pc = s.pc + 4
  jumpTarget : e.jumpTarget = if e.jump then s.prog.jumpTarget t.pc else none

/-- Every instruction emits the Effect of its class. -/
theorem exec_effect {i : Instr} {s t : State} (h : exec i s = .next t) : EffectIs t (EffectOf i s t) := by
  rcases exec_cases i s with ⟨m, rd, a, b, v, he, hd, h1, h2, hl, hs, hc, -⟩ |
    ⟨m, rd, a, b, he, hd, h1, h2, hl, hs, hc, -⟩ | ⟨m, a, b, taken, c, he, hd, h1, h2, hl, hs, hc, -⟩ |
    ⟨m, n, ex, rd, a, b, he, hd, h1, h2, hl, hs, hc, -⟩ | ⟨m, n, a, b, c, he, hd, h1, h2, hl, hs, hc, -⟩ <;>
    (rw [he] at h; cases h)
  · refine ⟨_, State.writeResult_lastEffect .., ?_⟩
    constructor <;> simp [*, State.plainEffect, State.accessAddresses]
  · refine ⟨_, State.jumpTo_lastEffect .., ?_⟩
    constructor <;> simp [*, State.jumpEffect, State.plainEffect, State.accessAddresses]
  · refine ⟨_, State.branchIf_lastEffect .., ?_⟩
    cases taken <;> constructor <;> simp [*, State.jumpEffect, State.plainEffect, State.accessAddresses]
  · refine ⟨_, State.load_lastEffect .., ?_⟩
    constructor <;> simp [*, State.plainEffect, State.accessAddresses]
  · refine ⟨_, State.store_lastEffect .., ?_⟩
    constructor <;> simp [*, State.plainEffect, State.accessAddresses]

/-- The markers of an instruction's Effect are its mnemonic's entry (R55). -/
theorem exec_markers {i : Instr} {s t : State} (h : exec i s = .next t) :
    EffectIs t fun e => e.markers = s.params.markers i.mnemonic := by
  cases i <;> cases h
  case beq | bne | blt | bge | bltu | bgeu => exact ⟨_, State.branchIf_lastEffect .., by split <;> rfl⟩
  all_goals exact ⟨_, rfl, rfl⟩

/-- Settles O26: the register fields of the Effect of its class. -/
theorem effectRegisterFields : Obligations.EffectRegisterFields := by
  intro i s t h
  obtain ⟨e, he, hclass⟩ := exec_effect h
  exact ⟨e, he, hclass.rd, hclass.rs1, hclass.rs2⟩

/-! No table sets a marker of an operand the instruction does not have. -/

theorem Params.markers_of_no_destination (p : Params) {i : Instr} (h : i.destination = none) :
    (p.markers i.mnemonic).rdS = false ∧ (p.markers i.mnemonic).rdU = false := by
  cases i
  case sb | sh | sw | beq | bne | blt | bge | bltu | bgeu => exact ⟨rfl, rfl⟩
  all_goals cases h

theorem Params.markers_of_no_source1 (p : Params) {i : Instr} (h : i.source1 = none) :
    (p.markers i.mnemonic).rs1S = false ∧ (p.markers i.mnemonic).rs1U = false := by
  cases i
  case lui | auipc | jal => exact ⟨rfl, rfl⟩
  all_goals cases h

theorem Params.markers_of_no_source2 (p : Params) {i : Instr} (h : i.source2 = none) :
    (p.markers i.mnemonic).rs2S = false ∧ (p.markers i.mnemonic).rs2U = false := by
  cases i
  case add | sub | and | or | xor | sll | srl | sra | slt | sltu => cases h
  case sb | sh | sw | beq | bne | blt | bge | bltu | bgeu => cases h
  all_goals exact ⟨rfl, rfl⟩

/-- Settles O27: the markers are the mnemonic's entry, which the settable markers bound. -/
theorem effectMarkers : Obligations.EffectMarkers := by
  intro i s t h
  obtain ⟨e, he, hclass⟩ := exec_effect h
  obtain ⟨e', he', hm⟩ := exec_markers h
  obtain rfl : e = e' := Option.some.inj (he.symm.trans he')
  refine ⟨e, he, ?_⟩
  simp only [hclass.rd, hclass.rs1, hclass.rs2, hm]
  refine ⟨Params.markers_of_no_destination _, Params.markers_of_no_source1 _, Params.markers_of_no_source2 _,
    fun hi => ?_, fun hi => ?_, fun hp => ?_, fun m hlookup => ?_⟩
  · rw [hi]; exact ⟨rfl, rfl⟩
  · rw [hi]; rfl
  · rw [hp, Params.markers_default]
  · rw [Params.markers, hlookup, Option.getD_some]

/-- Settles O28: the jump fields of the Effect of its class, the target's slot as arithmetic. -/
theorem effectJumpFields : Obligations.EffectJumpFields := by
  intro i s t h
  obtain ⟨e, he, hclass⟩ := exec_effect h
  refine ⟨e, he, hclass.noTransfer, hclass.transfer, hclass.noJump, ?_⟩
  rw [hclass.jumpTarget, Program.jumpTarget_eq]
  cases e.jump
  · rfl
  · rw [Bool.true_and, if_pos rfl]

/-- Settles O29: the lists of the Effect of its class, which go through the access by offset. -/
theorem effectTouchedAddresses : Obligations.EffectTouchedAddresses := by
  intro i s t h
  obtain ⟨e, he, hclass⟩ := exec_effect h
  refine ⟨e, he, ?_, ?_⟩
  · rw [hclass.reads]
    cases i.loadAccess with
    | none => rfl
    | some access => exact byteAddresses_eq ..
  · rw [hclass.writes]
    cases i.storeAccess with
    | none => rfl
    | some access => exact byteAddresses_eq ..

/-! ### The continuation predicate and the step (R38, R39, R46, R351) -/

/-- Settles O32: R39 as arithmetic, and a Program that contains an address has a slot. -/
theorem continuationPredicate : Obligations.ContinuationPredicate := by
  intro s hend
  refine ⟨Program.contains_iff hend s.pc, fun hcount => ?_⟩
  by_contra hcan
  exact (Program.contains_bound (Bool.not_eq_false _ ▸ hcan)).1 hcount

/-- Settles O33: the index is the one whose slot's address is the program counter. -/
theorem continuationFindsItsSlot : Obligations.ContinuationFindsItsSlot :=
  fun _ hentry hcan =>
    ⟨State.index_lt hcan, (Program.slotAddress_slotNumber hentry hcan).symm, State.getElem?_index hcan⟩

/-- The slot at the program counter, its index as arithmetic, is the one fetched (R46). -/
theorem State.fetch_of_getElem? {s : State} {slot : Slot} (hcan : s.canStep = true)
    (hslot : s.prog.instrs[(s.pc.toNat - s.prog.entry.toNat) / 4]? = some slot) : s.fetch = slot := by
  rw [← Program.slotNumber_eq (Program.contains_bound hcan).2.2.1] at hslot
  exact Option.some.inj ((State.getElem?_index hcan).symm.trans hslot)

/-- A step in a status that enables STEP, with no refusal mark set, runs the fetched instruction and settles the
status (R351). -/
theorem step_of_fetch_instr {s t : State} {i : Instr} (hmark : s.refused = none) (hruns : s.status.runs = true)
    (hcan : s.canStep = true) (hfetch : s.fetch = .instr i) (hexec : exec i s = .next t) :
    step s = .next t.settle := by
  simp [step, State.stepOnce, State.engineStep, hmark, hruns, hcan, hfetch, hexec]

/-- Settles O34: the slot at the program counter is the one fetched, and every instruction completes. -/
theorem stepRunsTheFetchedInstruction : Obligations.StepRunsTheFetchedInstruction := by
  intro s i hmark hruns hcan hslot
  obtain ⟨t, hexec⟩ := exec_next i s
  exact ⟨t, hexec, step_of_fetch_instr hmark hruns hcan (State.fetch_of_getElem? hcan hslot) hexec⟩

/-! ### What the host reads (R356, R357) -/

theorem mem_enabledActions {st : Status} {k : ActionKind} : k ∈ enabledActions st ↔ enabled st k = true := by
  rw [enabledActions, List.mem_filter]
  exact and_iff_right (by cases k <;> decide)

theorem State.registers_getElem? (s : State) (r : RegIdx) : s.registers[r.val]? = some (s.reg r) := by
  simp [State.registers]

theorem State.touchedPages_bases (s : State) : s.touchedPages.map Prod.fst = s.pages := by
  simp [State.touchedPages, Function.comp_def]

theorem State.mem_touchedPages {s : State} {b : Nat} {bytes : List Byte} (h : (b, bytes) ∈ s.touchedPages) :
    bytes = s.pageBytes b := by
  obtain ⟨c, -, hc⟩ := List.mem_map.mp h
  cases hc
  rfl

theorem State.pageBytes_getElem? (s : State) (b : Nat) {k : Nat} (hk : k < 256) :
    (s.pageBytes b)[k]? = some (Memory.read s.mem (b + k)) := by
  simp [State.pageBytes, hk]

/-- Settles O45: each part of the two surfaces reads the field it shows. -/
theorem hostReadsTheState : Obligations.HostReadsTheState := by
  intro s
  refine ⟨fun k => mem_enabledActions, rfl, rfl, rfl, rfl, s.registers_getElem?, s.touchedPages_bases,
    fun b bytes h => ?_, fun i slot h => ⟨_, Program.listing_getElem? h, s.prog.mem_labels_at _⟩⟩
  obtain rfl := State.mem_touchedPages h
  exact ⟨by simp [State.pageBytes], fun k hk => s.pageBytes_getElem? b hk⟩

end Machine

end Sys2Proof

section
/-! PROOFS. The statements about the data memory (20_memory.md): the canonical byte list is determined by what it reads,
an instruction reaches memory through the access of its class alone, and the pages follow the addresses it lists. -/

namespace Sys2Proof.Machine

/-! ### The canonical byte list (R51, R72) -/

/-- An entry of a canonical list is what its address reads. -/
theorem Memory.read_of_mem {m : List Host.Cell} {c : Host.Cell} (hm : Memory.wf m) (hc : c ∈ m) :
    Memory.read m c.1 = c.2 := by
  induction m with
  | nil => cases hc
  | cons d m ih =>
    obtain ⟨hlt, -, hm'⟩ := Memory.wf_cons.mp hm
    rcases List.mem_cons.mp hc with rfl | hc
    · exact if_pos rfl
    · exact (if_neg (hlt c hc).ne').trans (ih hm' hc)

/-- The entries of a canonical list are the non-zero bytes it reads. -/
theorem Memory.mem_iff_read {m : List Host.Cell} (hm : Memory.wf m) (c : Host.Cell) :
    c ∈ m ↔ Memory.read m c.1 = c.2 ∧ c.2 ≠ 0#8 := by
  refine ⟨fun hc => ⟨Memory.read_of_mem hm hc, (hm.2 c hc).2⟩, fun ⟨hread, hne⟩ => ?_⟩
  have hlisted := Memory.mem_of_read_ne (hread ▸ hne)
  rwa [hread] at hlisted

/-- Settles O31: both lists have as entries the non-zero bytes they read, in rising order. -/
theorem canonicalMemoryIsDetermined : Obligations.CanonicalMemoryIsDetermined := by
  intro m m' hm hm' hread
  have : Std.Asymm fun c d : Host.Cell => c.1 < d.1 := ⟨fun _ _ => Nat.lt_asymm⟩
  refine hm.1.eq_of_mem_iff hm'.1 fun c => ?_
  rw [Memory.mem_iff_read hm, Memory.mem_iff_read hm', hread]

/-! ### What an instruction does to memory and pages (R72 to R74, R81, R83) -/

/-- What one instruction can do to the data memory and the pages: nothing, the read of its load access, or the write of
its store access. -/
theorem exec_memory_cases {i : Instr} {s t : State} (h : exec i s = .next t) :
    (i.loadAccess = none ∧ i.storeAccess = none ∧ t.mem = s.mem ∧ t.pages = s.pages) ∨
    (∃ rs1 imm n, i.loadAccess = some (rs1, imm, n) ∧ i.storeAccess = none ∧ t.mem = s.mem ∧
      t.pages = (s.memRead (s.effectiveAddress rs1 imm) n).2.pages) ∨
    (∃ rs1 imm n v, i.loadAccess = none ∧ i.storeAccess = some (rs1, imm, n) ∧
      t.mem = (s.memWrite (s.effectiveAddress rs1 imm) n v).mem ∧
      t.pages = (s.memWrite (s.effectiveAddress rs1 imm) n v).pages) := by
  rcases exec_cases i s with ⟨m, rd, a, b, v, he, -, -, -, hl, hs, -⟩ | ⟨m, rd, a, b, he, -, -, -, hl, hs, -⟩ |
    ⟨m, a, b, taken, c, he, -, -, -, hl, hs, -⟩ | ⟨m, n, ex, rd, rs1, imm, he, -, -, -, hl, hs, -⟩ |
    ⟨m, n, rs2, rs1, imm, he, -, -, -, hl, hs, -⟩ <;> (rw [he] at h; cases h)
  · exact .inl ⟨hl, hs, State.writeResult_mem .., State.writeResult_pages ..⟩
  · exact .inl ⟨hl, hs, State.jumpTo_mem .., State.jumpTo_pages ..⟩
  · exact .inl ⟨hl, hs, State.branchIf_mem .., State.branchIf_pages ..⟩
  · exact .inr (.inl ⟨rs1, imm, n, hl, hs, State.load_mem .., State.load_pages ..⟩)
  · exact .inr (.inr ⟨rs1, imm, n, s.reg rs2, hl, hs, State.store_mem .., State.store_pages ..⟩)

/-- The addresses of an access, by its base register, offset and width. -/
theorem State.mem_accessAddresses {s : State} {access : Option (RegIdx × BitVec 12 × Nat)} {a : Word} :
    a ∈ s.accessAddresses access ↔ ∃ rs1 imm n k, access = some (rs1, imm, n) ∧ k < n ∧
      a = s.effectiveAddress rs1 imm + BitVec.ofNat 32 k := by
  cases access with
  | none => simp [State.accessAddresses]
  | some access =>
    obtain ⟨rs1, imm, n⟩ := access
    simp only [State.accessAddresses, mem_byteAddresses]
    constructor
    · rintro ⟨k, hk, ha⟩
      exact ⟨rs1, imm, n, k, rfl, hk, ha⟩
    · rintro ⟨_, _, _, k, heq, hk, ha⟩
      cases heq
      exact ⟨k, hk, ha⟩

/-- A byte outside an instruction's store access reads as before (R81, R83). -/
theorem exec_byteAt_of_notMem {i : Instr} {s t : State} (hm : Memory.wf s.mem) (h : exec i s = .next t) {a : Word}
    (ha : a ∉ s.accessAddresses i.storeAccess) : t.byteAt a = s.byteAt a := by
  rcases exec_memory_cases h with ⟨-, -, hmem, -⟩ | ⟨rs1, imm, n, -, -, hmem, -⟩ | ⟨rs1, imm, n, v, -, hs, hmem, -⟩
  · exact State.byteAt_congr hmem a
  · exact State.byteAt_congr hmem a
  · rw [hs] at ha
    exact (State.byteAt_congr hmem a).trans (State.byteAt_memWrite_of_notMem hm ha)

/-- An instruction that is no load and no store leaves the pages (R83). -/
theorem exec_pages_of_no_access {i : Instr} {s t : State} (h : exec i s = .next t) (hl : i.loadAccess = none)
    (hs : i.storeAccess = none) : t.pages = s.pages := by
  rcases exec_memory_cases h with ⟨-, -, -, hpages⟩ | ⟨rs1, imm, n, hl', -⟩ | ⟨rs1, imm, n, v, -, hs', -⟩
  · exact hpages
  · rw [hl] at hl'; cases hl'
  · rw [hs] at hs'; cases hs'

/-- The pages after an instruction: those before and those of the bytes of its accesses (R72, R73). -/
theorem exec_mem_pages_iff {i : Instr} {s t : State} (h : exec i s = .next t) (b : Nat) :
    b ∈ t.pages ↔ b ∈ s.pages ∨
      ∃ a ∈ s.accessAddresses i.loadAccess ++ s.accessAddresses i.storeAccess, b = pageBase a := by
  rcases exec_memory_cases h with ⟨hl, hs, -, hpages⟩ | ⟨rs1, imm, n, hl, hs, -, hpages⟩ |
    ⟨rs1, imm, n, v, hl, hs, -, hpages⟩ <;> rw [hpages, hl, hs]
  · simp [State.accessAddresses]
  · rw [State.mem_pages_memRead]; simp [State.accessAddresses]
  · rw [State.mem_pages_memWrite]; simp [State.accessAddresses]

/-- Settles O22: a byte that reads differently is not outside the instruction's store access. -/
theorem onlyAccessesReachMemory : Obligations.OnlyAccessesReachMemory := by
  refine fun i s t hm h => ⟨fun a hne => State.mem_accessAddresses.mp ?_, exec_pages_of_no_access h⟩
  by_contra ha
  exact hne (exec_byteAt_of_notMem hm h ha)

/-- Settles O30: the lists of the Effect are the addresses of the instruction's accesses. -/
theorem pagesFollowTouchedAddresses : Obligations.PagesFollowTouchedAddresses := by
  intro i s t h
  obtain ⟨e, he, hclass⟩ := exec_effect h
  refine ⟨e, he, fun b => ?_⟩
  simp only [hclass.reads, hclass.writes, ← pageBase_eq]
  exact exec_mem_pages_iff h b

end Sys2Proof.Machine
end

section
/-! PROOFS. The statements about the reference word form (30_encoding.md section 2): a word matches at most one row of
the opcode table, and the encoder and the decoder are inverse to each other. -/

namespace Sys2Proof

/-! ### The row of a word (R107) -/

/-- Two patterns that one word shows agree in every bit both masks fix. -/
theorem patterns_agree_of_match {w m m' p p' : Word} (h : w &&& m = p) (h' : w &&& m' = p') :
    (m &&& m') &&& (p ^^^ p') = 0#32 := by
  subst h h'
  ext k hk
  cases hm : m[k] <;> cases hm' : m'[k] <;> simp [hm, hm']

/-- A word matches at most one row. -/
theorem row_unique {w : Word} {r r' : OpcodeRow} (hr : r ∈ opcodeTable) (hr' : r' ∈ opcodeTable)
    (h : w &&& r.mask = r.pattern) (h' : w &&& r'.mask = r'.pattern) : r = r' := by
  by_contra hne
  have hsymm : Std.Symm fun r r' : OpcodeRow => (r.mask &&& r'.mask) &&& (r.pattern ^^^ r'.pattern) ≠ 0#32 :=
    ⟨fun r r' => by rw [BitVec.and_comm r.mask, BitVec.xor_comm r.pattern]; exact id⟩
  exact opcodeTable_disjoint.forall hr hr' hne (patterns_agree_of_match h h')

theorem OpcodeRow.admits_iff {r : OpcodeRow} {w : Word} : r.admits w = true ↔ w &&& r.mask = r.pattern := by
  simp [OpcodeRow.admits]

/-- The row the decoder finds is the one row the word matches. -/
theorem rowOf_eq_some_iff {w : Word} {r : OpcodeRow} :
    rowOf w = some r ↔ r ∈ opcodeTable ∧ w &&& r.mask = r.pattern := by
  have found {r : OpcodeRow} (h : rowOf w = some r) : r ∈ opcodeTable ∧ w &&& r.mask = r.pattern :=
    ⟨List.mem_of_find?_eq_some h,
      OpcodeRow.admits_iff.mp (List.find?_some (p := fun r : OpcodeRow => r.admits w) (l := opcodeTable) h)⟩
  refine ⟨found, fun ⟨hr, h⟩ => ?_⟩
  have hsome : (rowOf w).isSome = true := List.find?_isSome.mpr ⟨r, hr, OpcodeRow.admits_iff.mpr h⟩
  obtain ⟨r', h'⟩ := Option.isSome_iff_exists.mp hsome
  rw [h', row_unique hr (found h').1 h (found h').2]

theorem rowOf_eq_none_iff {w : Word} : rowOf w = none ↔ ∀ r ∈ opcodeTable, w &&& r.mask ≠ r.pattern := by
  simp [rowOf, OpcodeRow.admits]

theorem decode_eq_ok_iff {p w : Word} {i : Instr} :
    decode p w = .ok i ↔ ∃ r ∈ opcodeTable, w &&& r.mask = r.pattern ∧ recordOf r.mnemonic p w = i := by
  constructor
  · intro h
    cases hrow : rowOf w with
    | none => simp [decode, hrow] at h
    | some r =>
      obtain ⟨hr, hmatch⟩ := rowOf_eq_some_iff.mp hrow
      exact ⟨r, hr, hmatch, by simpa [decode, hrow] using h⟩
  · rintro ⟨r, hr, hmatch, rfl⟩
    rw [decode, rowOf_eq_some_iff.mpr ⟨hr, hmatch⟩]

/-- A word that matches no row is illegal. -/
theorem decode_illegal {p w : Word} (h : ∀ r ∈ opcodeTable, w &&& r.mask ≠ r.pattern) :
    decode p w = .error .illegalWord := by
  rw [decode, rowOf_eq_none_iff.mpr h]

/-! ### Decoding an encoded record (R103 to R106) -/

open Laws.EncodesInRow in
/-- The word of every record matches the row of the record's mnemonic. -/
theorem encode_inRow : ∀ i : Instr, Statement i
  | .add .. => add .. | .sub .. => sub .. | .and .. => and .. | .or .. => or .. | .xor .. => xor ..
  | .sll .. => sll .. | .srl .. => srl .. | .sra .. => sra .. | .slt .. => slt .. | .sltu .. => sltu ..
  | .addi .. => addi .. | .andi .. => andi .. | .ori .. => ori .. | .xori .. => xori ..
  | .slti .. => slti .. | .sltiu .. => sltiu ..
  | .slli .. => slli .. | .srli .. => srli .. | .srai .. => srai ..
  | .lui .. => lui .. | .auipc .. => auipc ..
  | .lb .. => lb .. | .lh .. => lh .. | .lw .. => lw .. | .lbu .. => lbu .. | .lhu .. => lhu ..
  | .sb .. => sb .. | .sh .. => sh .. | .sw .. => sw ..
  | .jal .. => jal .. | .jalr .. => jalr ..
  | .beq .. => beq .. | .bne .. => bne .. | .blt .. => blt .. | .bge .. => bge ..
  | .bltu .. => bltu .. | .bgeu .. => bgeu ..

theorem fitsBranch_iff {p t : Word} : fitsBranch p t = true ↔
    (-4096 ≤ (t - p).toInt ∧ (t - p).toInt ≤ 4094) ∧ (t - p).toNat % 2 = 0 := by
  simp [fitsBranch, branchOffset]

theorem fitsJal_iff {p t : Word} : fitsJal p t = true ↔
    (-1048576 ≤ (t - p).toInt ∧ (t - p).toInt ≤ 1048574) ∧ (t - p).toNat % 2 = 0 := by
  simp [fitsJal, branchOffset]

/-- The target a branch word gives back is the one it was written for, when the offset fits. -/
theorem add_immB_wordB {p t : Word} (h : fitsBranch p t = true) (f3 : BitVec 3) (op : BitVec 7) (rs1 rs2 : RegIdx) :
    p + immB (wordB f3 op rs1 rs2 (t - p)) = t := by
  obtain ⟨hrange, heven⟩ := fitsBranch_iff.mp h
  rw [wordB_imm, sext_bits12 hrange heven, add_sub_cancel]

/-- The target a `jal` word gives back is the one it was written for, when the offset fits. -/
theorem add_immJ_wordJ {p t : Word} (h : fitsJal p t = true) (op : BitVec 7) (rd : RegIdx) :
    p + immJ (wordJ op rd (t - p)) = t := by
  obtain ⟨hrange, heven⟩ := fitsJal_iff.mp h
  rw [wordJ_imm, sext_bits20 hrange heven, add_sub_cancel]

/-- The fields of a record's word are the record's operands. -/
theorem recordOf_encode {p : Word} {i : Instr} (h : i.hasWord p = true) : recordOf i.mnemonic p (encode p i) = i := by
  cases i
  case add | sub | and | or | xor | sll | srl | sra | slt | sltu =>
    simp only [Instr.mnemonic, recordOf, encode, wordR_fields]
  case addi | andi | ori | xori | slti | sltiu | lb | lh | lw | lbu | lhu | jalr =>
    simp only [Instr.mnemonic, recordOf, encode, wordI_fields]
  case slli | srli | srai => simp only [Instr.mnemonic, recordOf, encode, wordShift_fields]
  case lui | auipc => simp only [Instr.mnemonic, recordOf, encode, wordU_fields]
  case sb | sh | sw => simp only [Instr.mnemonic, recordOf, encode, wordS_fields]
  case jal => simp only [Instr.mnemonic, recordOf, encode, wordJ_fields, add_immJ_wordJ h]
  case beq | bne | blt | bge | bltu | bgeu =>
    simp only [Instr.mnemonic, recordOf, encode, wordB_fields, add_immB_wordB h]

/-- Settles O52: the word matches its own mnemonic's row, so the decoder reads the record's own operands back. -/
theorem encodedRecordDecodesBack : Obligations.EncodedRecordDecodesBack := by
  intro p i h
  obtain ⟨r, hr, hm, hmatch⟩ := encode_inRow i
  exact decode_eq_ok_iff.mpr ⟨r, hr, hmatch p, hm ▸ recordOf_encode h⟩

/-! ### Encoding a decoded word (R103 to R106) -/

theorem immB_even (w : Word) : (immB w).toNat % 2 = 0 :=
  Nat.mod_two_eq_zero_iff_testBit_zero.mpr
    (show (immB w).getLsbD 0 = false by simp [immB, placed, BitVec.getElem_signExtend])

theorem immJ_even (w : Word) : (immJ w).toNat % 2 = 0 :=
  Nat.mod_two_eq_zero_iff_testBit_zero.mpr
    (show (immJ w).getLsbD 0 = false by simp [immJ, placed, BitVec.getElem_signExtend])

/-- An `n`-bit value sign-extended to a word keeps its signed range. -/
theorem toInt_signExtend_range {n : Nat} (hn : n ≤ 32) (v : BitVec n) :
    -2 ^ n ≤ 2 * (v.signExtend 32).toInt ∧ 2 * (v.signExtend 32).toInt < 2 ^ n := by
  rw [BitVec.toInt_signExtend_of_le hn]
  exact ⟨BitVec.le_two_mul_toInt, BitVec.two_mul_toInt_lt⟩

/-- Every branch immediate fits a branch word. -/
theorem fitsBranch_add_immB (p w : Word) : fitsBranch p (p + immB w) = true := by
  have hrange : -2 ^ 13 ≤ 2 * (immB w).toInt ∧ 2 * (immB w).toInt < 2 ^ 13 := toInt_signExtend_range (by omega) _
  have heven := immB_even w
  have hint := BitVec.toInt_eq_toNat_cond (immB w)
  rw [fitsBranch_iff, add_sub_cancel_left]
  split at hint <;> omega

theorem fitsJal_add_immJ (p w : Word) : fitsJal p (p + immJ w) = true := by
  have hrange : -2 ^ 21 ≤ 2 * (immJ w).toInt ∧ 2 * (immJ w).toInt < 2 ^ 21 := toInt_signExtend_range (by omega) _
  have heven := immJ_even w
  have hint := BitVec.toInt_eq_toNat_cond (immJ w)
  rw [fitsJal_iff, add_sub_cancel_left]
  split at hint <;> omega

/-- The record read from a word has a word. -/
theorem hasWord_recordOf (m : Mnemonic) (p w : Word) : (recordOf m p w).hasWord p = true := by
  cases m
  case jal => exact fitsJal_add_immJ p w
  case beq | bne | blt | bge | bltu | bgeu => exact fitsBranch_add_immB p w
  all_goals rfl

/-! One lemma per format: a word that shows a row's pattern under its mask is the encoder's word of its own fields, with
the pattern's fixed bits. -/

theorem wordR_of_match {w pattern : Word} {f7 : BitVec 7} {f3 : BitVec 3} {op : BitVec 7}
    (h : w &&& 0xFE00707F#32 = pattern) (h7 : pattern.extractLsb' 25 7 = f7) (h3 : pattern.extractLsb' 12 3 = f3)
    (hop : pattern.extractLsb' 0 7 = op) : wordR f7 f3 op (fieldRd w) (fieldRs1 w) (fieldRs2 w) = w := by
  rw [← h7, ← h3, ← hop, ← extract_of_match h 25 7 (by decide), ← extract_of_match h 12 3 (by decide),
    ← extract_of_match h 0 7 (by decide), wordR_of_fields]

theorem wordShift_of_match {w pattern : Word} {f7 : BitVec 7} {f3 : BitVec 3} {op : BitVec 7}
    (h : w &&& 0xFE00707F#32 = pattern) (h7 : pattern.extractLsb' 25 7 = f7) (h3 : pattern.extractLsb' 12 3 = f3)
    (hop : pattern.extractLsb' 0 7 = op) : wordShift f7 f3 op (fieldRd w) (fieldRs1 w) (fieldShamt w) = w := by
  rw [← h7, ← h3, ← hop, ← extract_of_match h 25 7 (by decide), ← extract_of_match h 12 3 (by decide),
    ← extract_of_match h 0 7 (by decide), wordShift_of_fields]

theorem wordI_of_match {w pattern : Word} {f3 : BitVec 3} {op : BitVec 7} (h : w &&& 0x0000707F#32 = pattern)
    (h3 : pattern.extractLsb' 12 3 = f3) (hop : pattern.extractLsb' 0 7 = op) :
    wordI f3 op (fieldRd w) (fieldRs1 w) (fieldImmI w) = w := by
  rw [← h3, ← hop, ← extract_of_match h 12 3 (by decide), ← extract_of_match h 0 7 (by decide), wordI_of_fields]

theorem wordS_of_match {w pattern : Word} {f3 : BitVec 3} {op : BitVec 7} (h : w &&& 0x0000707F#32 = pattern)
    (h3 : pattern.extractLsb' 12 3 = f3) (hop : pattern.extractLsb' 0 7 = op) :
    wordS f3 op (fieldRs2 w) (fieldRs1 w) (fieldImmS w) = w := by
  rw [← h3, ← hop, ← extract_of_match h 12 3 (by decide), ← extract_of_match h 0 7 (by decide), wordS_of_fields]

theorem wordB_of_match {w pattern : Word} {f3 : BitVec 3} {op : BitVec 7} (h : w &&& 0x0000707F#32 = pattern)
    (h3 : pattern.extractLsb' 12 3 = f3) (hop : pattern.extractLsb' 0 7 = op) (p : Word) :
    wordB f3 op (fieldRs1 w) (fieldRs2 w) (p + immB w - p) = w := by
  rw [← h3, ← hop, ← extract_of_match h 12 3 (by decide), ← extract_of_match h 0 7 (by decide), add_sub_cancel_left,
    wordB_of_fields]

theorem wordU_of_match {w pattern : Word} {op : BitVec 7} (h : w &&& 0x0000007F#32 = pattern)
    (hop : pattern.extractLsb' 0 7 = op) : wordU op (fieldRd w) (fieldImmU w) = w := by
  rw [← hop, ← extract_of_match h 0 7 (by decide), wordU_of_fields]

theorem wordJ_of_match {w pattern : Word} {op : BitVec 7} (h : w &&& 0x0000007F#32 = pattern)
    (hop : pattern.extractLsb' 0 7 = op) (p : Word) : wordJ op (fieldRd w) (p + immJ w - p) = w := by
  rw [← hop, ← extract_of_match h 0 7 (by decide), add_sub_cancel_left, wordJ_of_fields]

/-- The record read from a word by a row it matches encodes to that word: its fields and the row's fixed bits are all
its bits. -/
theorem encode_recordOf {r : OpcodeRow} {w : Word} (hr : r ∈ opcodeTable) (h : w &&& r.mask = r.pattern) (p : Word) :
    encode p (recordOf r.mnemonic p w) = w := by
  simp only [opcodeTable, List.mem_append] at hr
  obtain (((((((hr | hr) | hr) | hr) | hr) | hr) | hr) | hr) := hr
  · fin_cases hr <;> exact wordR_of_match h rfl rfl rfl
  · fin_cases hr <;> exact wordI_of_match h rfl rfl
  · fin_cases hr <;> exact wordShift_of_match h rfl rfl rfl
  · fin_cases hr <;> exact wordU_of_match h rfl
  · fin_cases hr <;> exact wordI_of_match h rfl rfl
  · fin_cases hr <;> exact wordS_of_match h rfl rfl
  · fin_cases hr
    · exact wordJ_of_match h rfl p
    · exact wordI_of_match h rfl rfl
  · fin_cases hr <;> exact wordB_of_match h rfl rfl p

/-- Settles O53: the record comes from the row the word matches, and is written back field by field. -/
theorem decodedWordEncodesBack : Obligations.DecodedWordEncodesBack := by
  intro p w i h
  obtain ⟨r, hr, hmatch, rfl⟩ := decode_eq_ok_iff.mp h
  exact ⟨hasWord_recordOf .., encode_recordOf hr hmatch p⟩

/-! ### Illegal words (R107, 43_excluded.md R260 to R263) -/

/-- Every row fixes the opcode, and no row has the opcode of `fence` or of the system instructions. -/
theorem opcodeTable_opcode : ∀ r ∈ opcodeTable, r.mask.extractLsb' 0 7 = BitVec.allOnes 7 ∧
    r.pattern.extractLsb' 0 7 ≠ 0b0001111#7 ∧ r.pattern.extractLsb' 0 7 ≠ 0b1110011#7 := by
  decide

/-- Every row of the register-register opcode fixes funct7, and none has that of the M extension. -/
theorem opcodeTable_funct7 : ∀ r ∈ opcodeTable, r.pattern.extractLsb' 0 7 = 0b0110011#7 →
    r.mask.extractLsb' 25 7 = BitVec.allOnes 7 ∧ r.pattern.extractLsb' 25 7 ≠ 0b0000001#7 := by
  decide

/-- A word that matches a row has the row's opcode. -/
theorem opcode_of_match {r : OpcodeRow} {w : Word} (hr : r ∈ opcodeTable) (h : w &&& r.mask = r.pattern) :
    w.extractLsb' 0 7 = r.pattern.extractLsb' 0 7 :=
  extract_of_match h 0 7 (opcodeTable_opcode r hr).1

/-- Settles O55: a row such a word matched would have its opcode, and its funct7 where that is fixed. -/
theorem excludedWordsAreIllegal : Obligations.ExcludedWordsAreIllegal := by
  refine fun p w => ⟨fun hop => ?_, fun hop => ?_, fun hop hf7 => ?_⟩ <;>
    refine decode_illegal fun r hr h => ?_
  · exact (opcodeTable_opcode r hr).2.1 (opcode_of_match hr h ▸ hop)
  · exact (opcodeTable_opcode r hr).2.2 (opcode_of_match hr h ▸ hop)
  · obtain ⟨hmask, hne⟩ := opcodeTable_funct7 r hr (opcode_of_match hr h ▸ hop)
    exact hne (extract_of_match h 25 7 hmask ▸ hf7)

/-! ### The Programs a placed word gives (log entry 9) -/

/-- Replacing a slot leaves the addresses of a Program (R39). -/
theorem Program.contains_set (p : Program) (k : Nat) (slot : Slot) (a : Word) :
    Program.contains { p with instrs := p.instrs.set k slot } a = p.contains a := by
  simp [Program.contains, Program.endAddress, Program.count]

/-- A Program of one slot at an aligned entry contains its entry (R39). -/
theorem Program.contains_oneSlot {a : Word} (ha : a.toNat % 4 = 0) (slot : Slot) (labels : List (Text × Word)) :
    Program.contains { instrs := [slot], entry := a, labels := labels } a = true := by
  have := a.isLt
  rw [Program.contains_iff (by simp [Program.count]; omega)]
  simp [Program.count, ha]

namespace Machine

/-! ### A load of words (R107) -/

/-- Words of which one is illegal have no records. -/
theorem decodeWords_illegal {w : Word} (after : List Word) (h : ∀ p, decode p w = .error .illegalWord) :
    ∀ (before : List Word) (p : Word), decodeWords p (before ++ w :: after) = none
  | [], p => by simp [decodeWords, h]
  | v :: before, p => by
    rw [List.cons_append, decodeWords, decodeWords_illegal after h before]
    cases decode p v <;> rfl

/-- A load of words without records is refused (R107). -/
theorem State.loadWords_refused {s : State} {ws : List Word} (h : decodeWords s.prog.entry ws = none) :
    s.loadWords ws = { s.failedLoad with refused := some .illegalWord } := by
  rw [State.loadWords, h]

/-- Settles O54: the rows are pairwise disjoint, and an illegal word leaves the load without records. -/
theorem wordsMatchAtMostOneRow : Obligations.WordsMatchAtMostOneRow := by
  refine ⟨fun w r hr r' hr' => row_unique hr hr', fun p w => decode_illegal, fun s before w after h => ?_⟩
  rw [State.loadWords_refused (decodeWords_illegal after (fun _ => decode_illegal h) before _)]
  exact ⟨rfl, rfl⟩

/-! ### A word placed where the next step fetches (log entry 9) -/

theorem Status.orReady_runs (st : Status) : st.orReady.runs = true := by cases st <;> rfl

/-- A word placed where a slot stands replaces that slot. -/
theorem State.placeWord_of_canStep {s : State} {w : Word} {i : Instr} (hcan : s.canStep = true)
    (h : decode s.pc w = .ok i) :
    s.placeWord w =
      { s with
        prog := { s.prog with instrs := s.prog.instrs.set s.index (.instr i) }
        status := s.status.orReady
        refused := none } := by
  simp [State.placeWord, hcan, decodeBytes_bytesOfWord h]

/-- A word placed where no slot stands is the whole Program. -/
theorem State.placeWord_of_not_canStep {s : State} {w : Word} {i : Instr} (hcan : s.canStep = false)
    (h : decode (s.pc &&& 0xFFFFFFFC) w = .ok i) :
    s.placeWord w =
      { s with
        prog := { instrs := [.instr i], entry := s.pc &&& 0xFFFFFFFC, labels := [] }
        pc := s.pc &&& 0xFFFFFFFC
        status := s.status.orReady
        refused := none } := by
  simp only [State.placeWord, hcan, Bool.false_eq_true, if_false, decodeBytes_bytesOfWord h]

/-- A word that decodes at the address fetched from, placed there, is the record the next step fetches, in a state that
steps. -/
theorem State.placeWord_fetch {s : State} {w : Word} {i : Instr}
    (h : decode (if s.canStep then s.pc else s.pc &&& 0xFFFFFFFC) w = .ok i) :
    (s.placeWord w).refused = none ∧ (s.placeWord w).status.runs = true ∧ (s.placeWord w).canStep = true ∧
      (s.placeWord w).fetch = .instr i ∧ (s.placeWord w).x = s.x ∧ (s.placeWord w).mem = s.mem := by
  by_cases hcan : s.canStep = true
  · rw [if_pos hcan] at h
    rw [State.placeWord_of_canStep hcan h]
    refine ⟨rfl, s.status.orReady_runs, (Program.contains_set ..).trans hcan, ?_, rfl, rfl⟩
    show (s.prog.instrs.set s.index (.instr i)).getD s.index .pad = .instr i
    simp [List.getD_eq_getElem?_getD, State.index_lt hcan]
  · rw [if_neg hcan] at h
    rw [State.placeWord_of_not_canStep (Bool.not_eq_true _ ▸ hcan) h]
    have haligned : (s.pc &&& 0xFFFFFFFC).toNat % 4 = 0 := by
      have : (s.pc &&& 0xFFFFFFFC).toNat = s.pc.toNat / 4 * 4 := aligned_toNat s.pc
      omega
    refine ⟨rfl, s.status.orReady_runs, Program.contains_oneSlot haligned .., ?_, rfl, rfl⟩
    simp [State.fetch, State.index, Program.slotNumber]

/-- Settles O35: the state the placing gives steps, and fetches the decoded record. -/
theorem stepRunsTheDecodedWord : Obligations.StepRunsTheDecodedWord := by
  intro s w i hw h
  rw [State.withFetchWord, Nat.mod_eq_of_lt hw]
  obtain ⟨hmark, hruns, hcan, hfetch, hx, hmem⟩ := State.placeWord_fetch h
  obtain ⟨t, hexec⟩ := exec_next i (s.placeWord _)
  exact ⟨t, hexec, step_of_fetch_instr hmark hruns hcan hfetch hexec, hx, hmem⟩

end Machine

end Sys2Proof
end

section
/-! PROOFS. The statements about the assembler front-end (30_encoding.md section 4): what an assembled Program is, the
padding slot of a dangling label, a mnemonic that is not admitted, and the ranges of the immediates. -/

namespace Sys2Proof.Machine

/-! ### The Program a source assembles to (R102, R123, R124) -/

section assembled
variable {hex : Bool} {entry : Word} {src : Source} {p : Program}

theorem assemble_labels (h : assemble hex entry src = .ok p) : p.labels = labelTable entry (src.lines.map parseLine) := by
  obtain ⟨-, rfl⟩ := assemble_ok h
  rfl

theorem assemble_entry (h : assemble hex entry src = .ok p) : p.entry = entry := by
  obtain ⟨-, rfl⟩ := assemble_ok h
  rfl

/-- One slot for each line that holds an instruction, and one more for a label pending at end of input. -/
theorem assemble_count (h : assemble hex entry src = .ok p) :
    p.count = bodyCount (src.lines.map parseLine) + (labelPending false (src.lines.map parseLine)).toNat := by
  obtain ⟨hdiag, rfl⟩ := assemble_ok h
  obtain ⟨hlen, -, -⟩ := checkLines_ok _ _ _ _ _ _ hdiag
  cases hpend : labelPending false (src.lines.map parseLine) <;> simp [Program.count, hlen]

theorem assemble_padLast (h : assemble hex entry src = .ok p) : padLast p.instrs = true := by
  obtain ⟨-, rfl⟩ := assemble_ok h
  exact padLast_map_instr _ _ (by split <;> simp)

theorem labelTable_names (entry : Word) (ls : List SourceLine) :
    (labelTable entry ls).map Prod.fst = (labelDefs 0 ls).map Prod.fst := by
  simp [labelTable, Function.comp_def]

theorem assemble_labels_nodup (h : assemble hex entry src = .ok p) : (p.labels.map Prod.fst).Nodup := by
  rw [assemble_labels h, labelTable_names]
  obtain ⟨-, -, hdefs⟩ := checkLines_ok _ _ _ _ _ _ (assemble_ok h).1
  exact (hdefs 0).1

/-- Every label names a slot: an instruction's that follows it, or the padding slot. -/
theorem assemble_label_isSlotAddress (h : assemble hex entry src = .ok p) : ∀ l ∈ p.labels, p.isSlotAddress l.2 := by
  intro l hl
  rw [assemble_labels h] at hl
  obtain ⟨⟨name, k⟩, hd, rfl⟩ := List.mem_map.mp hl
  refine ⟨k, ?_, by rw [Program.slotAddress, assemble_entry h]⟩
  have hrange := labelDefs_range _ _ _ hd
  rw [assemble_count h]
  simp only [Nat.zero_add] at hrange
  obtain ⟨-, hk | ⟨hk, hpend⟩⟩ := hrange
  · omega
  · simp [hpend, hk]

theorem assemble_slotWf (h : assemble hex entry src = .ok p) : ∀ slot ∈ p.instrs, p.slotWf slot = true := by
  obtain ⟨hdiag, rfl⟩ := assemble_ok h
  obtain ⟨-, htarget, -⟩ := checkLines_ok _ _ _ _ _ _ hdiag
  intro slot hslot
  cases slot with
  | pad => rfl
  | instr i =>
    have hi : i ∈ (checkLines hex src.identifier (labelTable entry (src.lines.map parseLine)) [] 1
        (src.lines.map parseLine)).records := by
      rcases List.mem_append.mp hslot with hmem | hmem
      · simpa using hmem
      · split at hmem <;> simp at hmem
    cases ht : i.target with
    | none => simp [Program.slotWf, ht]
    | some t => simpa [Program.slotWf, ht] using htarget i hi t ht

end assembled

/-- Settles O48: each part of well-formedness is a fact about the lines' records and labels. -/
theorem assembledProgramIsWellFormed : Obligations.AssembledProgramIsWellFormed :=
  fun _ _ _ _ h halign hfits =>
    ⟨assemble_entry h ▸ halign, hfits, assemble_labels_nodup h, assemble_label_isSlotAddress h, assemble_slotWf h,
      assemble_padLast h⟩

/-! ### A label on the last line with no instruction (R124) -/

theorem bodyCount_append_of_no_body (ls : List SourceLine) {l : SourceLine} (h : l.body = none) :
    bodyCount (ls ++ [l]) = bodyCount ls := by
  simp [bodyCount, h]

/-- Settles O49: the label is pending at end of input, so the padding slot follows the last instruction, and it is
there that the label is bound. -/
theorem danglingLabelTakesPaddingSlot : Obligations.DanglingLabelTakesPaddingSlot := by
  intro hex entry id lines name line p hlabel hbody h
  have hls : (lines ++ [line]).map parseLine = lines.map parseLine ++ [parseLine line] := List.map_append
  have hpend : labelPending false (lines.map parseLine ++ [parseLine line]) = true :=
    labelPending_append _ _ hbody (by simp [hlabel]) _
  have hlast : p.instrs.getLast? = some .pad := by
    obtain ⟨-, rfl⟩ := assemble_ok h
    simp [hls, hpend]
  have hcount : p.count - 1 = bodyCount (lines.map parseLine) := by
    simp [assemble_count h, hls, hpend, bodyCount_append_of_no_body _ hbody]
  have hvalid : validLabel name = true :=
    validLabel_of_checkLines _ _ _ _ _ _ hlabel _ _ (hls ▸ (assemble_ok h).1)
  have hbound : (name, p.slotAddress (p.count - 1)) ∈ p.labels := by
    rw [hcount, Program.slotAddress, assemble_entry h, assemble_labels h, hls]
    exact List.mem_map.mpr ⟨_, labelDefs_append _ _ name hlabel hvalid 0, by simp⟩
  exact ⟨hlast, lookup_of_nodup (assemble_labels_nodup h) hbound⟩

/-! ### A mnemonic that is not admitted (R119, R126, R342) -/

/-- A source one of whose lines has a defect does not assemble, and the defect is reported (R126). -/
theorem assemble_error_of_mem {hex : Bool} {entry : Word} {src : Source} {d : Diagnostic}
    (h : d ∈ (checkLines hex src.identifier (labelTable entry (src.lines.map parseLine)) [] 1
      (src.lines.map parseLine)).diagnostics) :
    ∃ ds, assemble hex entry src = .error ds ∧ d ∈ ds :=
  ⟨_, if_neg (List.ne_nil_of_mem h), h⟩

/-- RELOAD of a source with defects is a failed load (R342, R353). -/
theorem State.handle_reload_of_error {s : State} {src : Source} {ds : List Diagnostic}
    (h : assemble s.params.acceptHexImm s.prog.entry src = .error ds) :
    (s.handle (.reload src)).state = s.failedLoad := by
  simp [State.handle_reload, State.reloadAction, State.loadSource, h]

/-- Settles O50: the line's diagnostic is among those of the source, so the load fails. -/
theorem unadmittedMnemonicFailsTheLoad : Obligations.UnadmittedMnemonicFailsTheLoad := by
  intro s id before after line m ops hbody hlookup
  have hdiag := mem_checkLines_unsupported s.params.acceptHexImm id
    (labelTable s.prog.entry ((before ++ line :: after).map parseLine)) (before.map parseLine) (parseLine line)
    (after.map parseLine) m ops hbody hlookup [] 1
  rw [List.length_map, ← List.map_cons, ← List.map_append] at hdiag
  obtain ⟨ds, herror, hmem⟩ := assemble_error_of_mem (src := ⟨id, before ++ line :: after⟩) hdiag
  rw [State.handle_reload_of_error herror]
  exact ⟨ds, herror, hmem, rfl, rfl⟩

/-! ### Immediate literals (R116, R117) -/

/-- A literal with a value is admitted exactly in the range of its position. -/
theorem rangedLiteral_of_value {hex : Bool} {t : Text} {v : Int} (h : integerLiteral hex t = some v) (lo hi : Int) :
    rangedLiteral hex lo hi t = if lo ≤ v ∧ v ≤ hi then .ok v else .error [.immediateOutOfRange] := by
  rw [rangedLiteral, h]

/-- A field filled from a literal holds it, where the field can hold every value of the range. -/
theorem rangedLiteral_field {n : Nat} {hex : Bool} {t : Text} {v lo hi : Int} (h : integerLiteral hex t = some v)
    {P : BitVec n → Prop} (hP : lo ≤ v → v ≤ hi → P (BitVec.ofInt n v)) :
    if lo ≤ v ∧ v ≤ hi then ∃ b, (rangedLiteral hex lo hi t).map (BitVec.ofInt n) = .ok b ∧ P b
      else (rangedLiteral hex lo hi t).map (BitVec.ofInt n) = .error [.immediateOutOfRange] := by
  rw [rangedLiteral_of_value h]
  split
  case isTrue hrange => exact ⟨_, rfl, hP hrange.1 hrange.2⟩
  case isFalse => rfl

/-- A non-negative integer below `2 ^ n` is held unsigned by `n` bits. -/
theorem toNat_ofInt_of_lt {n : Nat} {v : Int} (h0 : 0 ≤ v) (h : v < 2 ^ n) : ((BitVec.ofInt n v).toNat : Int) = v := by
  obtain ⟨k, rfl⟩ := Int.eq_ofNat_of_zero_le h0
  rw [BitVec.ofInt_natCast, BitVec.toNat_ofNat, Nat.mod_eq_of_lt (by exact_mod_cast h)]

/-- A hexadecimal literal begins with `0` and is no decimal one. -/
theorem hexValue_shape {t : Text} {n : Nat} (h : hexValue t = some n) :
    decimalValue t = none ∧ t.head? = some '0' := by
  unfold hexValue at h
  split at h
  next x ds =>
    split at h
    case isTrue hx =>
      obtain ⟨rfl | rfl, -⟩ := hx <;> exact ⟨by simp [decimalValue], rfl⟩
    case isFalse => cases h
  next => cases h

theorem naturalLiteral_of_hexValue {t : Text} {n : Nat} (h : hexValue t = some n) (hex : Bool) :
    naturalLiteral hex t = if hex then some n else none := by
  rw [naturalLiteral, (hexValue_shape h).1, h]

/-- After a minus sign the literal is negated. -/
theorem integerLiteral_neg (hex : Bool) (t : Text) :
    integerLiteral hex ('-' :: t) = (naturalLiteral hex t).map fun n => -(n : Int) := rfl

/-- Without a minus sign the literal is its unsigned part. -/
theorem integerLiteral_of_head_ne {t : Text} (h : t.head? ≠ some '-') (hex : Bool) :
    integerLiteral hex t = (naturalLiteral hex t).map fun n => (n : Int) := by
  unfold integerLiteral
  split
  · exact absurd rfl h
  · rfl

/-- Settles O51: the three positions are one range check each, and a hexadecimal literal is a literal only through the
parameter. -/
theorem immediatesAreAdmittedInRange : Obligations.ImmediatesAreAdmittedInRange := by
  refine ⟨fun hex t v h => ⟨rangedLiteral_field h fun hlo hhi => ?_, rangedLiteral_field h fun hlo hhi => ?_,
    rangedLiteral_field h fun hlo hhi => ?_⟩, fun t n h => ?_⟩
  · exact BitVec.toInt_ofInt_eq_self (by omega) (by omega) (by omega)
  · exact toNat_ofInt_of_lt hlo (by omega)
  · exact toNat_ofInt_of_lt hlo (by omega)
  · have hhead : t.head? ≠ some '-' := by simp [(hexValue_shape h).2]
    simp [integerLiteral_neg, integerLiteral_of_head_ne hhead, naturalLiteral_of_hexValue h]

end Sys2Proof.Machine
end

section
/-! PROOFS. The statements about the integer computational instructions (40_integer.md): each writes one result
(`State.writeResult_spec` says what that changes and keeps), and the result is read as an integer or bit by bit. -/

namespace Sys2Proof

/-- A record's word matches the one row of its mnemonic (R107). -/
theorem Instr.inRow_of_mem {i : Instr} {m : Mnemonic} {pattern mask : Word} (hi : i.mnemonic = m)
    (hrow : ⟨m, pattern, mask⟩ ∈ opcodeTable) : i.InRow pattern mask := by
  obtain ⟨r, hr, hm, hmatch⟩ := encode_inRow i
  have hmnemonics : (opcodeTable.map OpcodeRow.mnemonic).Nodup := by decide
  obtain rfl : r = ⟨m, pattern, mask⟩ := List.inj_on_of_nodup_map hmnemonics hr hrow (hm.trans hi)
  exact hmatch

namespace Machine

/-! ### Results as integers -/

/-- Subtraction is that of the integers, modulo 2^32 (R154). -/
theorem toNat_sub_eq_emod (a b : Word) : ((a - b).toNat : Int) = ((a.toNat : Int) - b.toNat) % 2 ^ 32 := by
  rw [BitVec.toNat_sub]
  omega

/-- The immediate is added as a signed integer, modulo 2^32 (R163). -/
theorem toNat_add_sext12 (a : Word) (imm : BitVec 12) :
    ((a + sext12 imm).toNat : Int) = ((a.toNat : Int) + imm.toInt) % 2 ^ 32 := by
  have himm := sext12_toNat imm
  rw [BitVec.toNat_add]
  omega

/-- A left shift multiplies, modulo 2^32 (R158, R169). -/
theorem toNat_shiftLeft_eq_mul (a : Word) (n : Nat) : (a <<< n).toNat = a.toNat * 2 ^ n % 2 ^ 32 := by
  rw [BitVec.toNat_shiftLeft, Nat.shiftLeft_eq]

/-- A logical right shift divides the unsigned reading (R159, R170). -/
theorem toNat_ushiftRight_eq_div (a : Word) (n : Nat) : (a >>> n).toNat = a.toNat / 2 ^ n := by
  rw [BitVec.toNat_ushiftRight, Nat.shiftRight_eq_div_pow]

/-- An arithmetic right shift divides the signed reading, rounding down (R160, R171). -/
theorem toInt_sshiftRight_eq_div (a : Word) (n : Nat) : (a.sshiftRight n).toInt = a.toInt / 2 ^ n := by
  rw [BitVec.toInt_sshiftRight, Int.shiftRight_eq_div_pow, Nat.cast_pow, Nat.cast_ofNat]

/-- The result of a signed comparison (R161). -/
theorem toNat_boolWord_ltSigned (a b : Word) :
    (boolWord (ltSigned a b)).toNat = if a.toInt < b.toInt then 1 else 0 := by
  by_cases h : a.toInt < b.toInt <;> simp [boolWord, ltSigned, BitVec.slt, h]

/-- The result of an unsigned comparison (R162). -/
theorem toNat_boolWord_ltUnsigned (a b : Word) :
    (boolWord (ltUnsigned a b)).toNat = if a.toNat < b.toNat then 1 else 0 := by
  by_cases h : a.toNat < b.toNat <;> simp [boolWord, ltUnsigned, BitVec.ult, h]

/-! ### Shifts (R158 to R160, R169 to R171) -/

/-- Settles O3: the shift laws at the amount in the low five bits. -/
theorem registerShiftsUseLowFiveBits : Obligations.RegisterShiftsUseLowFiveBits := by
  intro rd rs1 rs2 s
  simp only [← shiftAmount_eq]
  exact ⟨⟨_, _, rfl, State.writeResult_spec .., toNat_shiftLeft_eq_mul ..⟩,
    ⟨_, _, rfl, State.writeResult_spec .., toNat_ushiftRight_eq_div ..⟩,
    ⟨_, _, rfl, State.writeResult_spec .., toInt_sshiftRight_eq_div ..⟩,
    Instr.inRow_of_mem (m := .sll) rfl (by decide), Instr.inRow_of_mem (m := .srl) rfl (by decide),
    Instr.inRow_of_mem (m := .sra) rfl (by decide)⟩

/-- A literal above the range of a shift amount is refused (R116). -/
theorem shamtOperand_of_le {hex : Bool} {t : Text} {v : Int} (h : integerLiteral hex t = some v) (hv : 32 ≤ v) :
    shamtOperand hex t = .error [.immediateOutOfRange] := by
  rw [shamtOperand, rangedLiteral_of_value h, if_neg (by omega)]
  rfl

/-- Settles O8: the shift laws at the immediate amount. -/
theorem immediateShiftsAreArithmetic : Obligations.ImmediateShiftsAreArithmetic := by
  intro rd rs1 shamt s
  exact ⟨⟨_, _, rfl, State.writeResult_spec .., toNat_shiftLeft_eq_mul ..⟩,
    ⟨_, _, rfl, State.writeResult_spec .., toNat_ushiftRight_eq_div ..⟩,
    ⟨_, _, rfl, State.writeResult_spec .., toInt_sshiftRight_eq_div ..⟩,
    Instr.inRow_of_mem (m := .slli) rfl (by decide), Instr.inRow_of_mem (m := .srli) rfl (by decide),
    Instr.inRow_of_mem (m := .srai) rfl (by decide), fun _ _ _ => shamtOperand_of_le⟩

/-! ### Logical operations (R155 to R157, R164 to R166) -/

/-- Settles O6: bit by bit, the bits of the sign-extended immediate being `sext12_bit`. -/
theorem logicalImmediatesAreBitwise : Obligations.LogicalImmediatesAreBitwise := by
  intro rd rs1 imm s
  refine ⟨⟨_, _, rfl, State.writeResult_spec .., fun k hk => ?_⟩,
    ⟨_, _, rfl, State.writeResult_spec .., fun k hk => ?_⟩,
    ⟨_, _, rfl, State.writeResult_spec .., fun k hk => ?_⟩,
    Instr.inRow_of_mem (m := .andi) rfl (by decide), Instr.inRow_of_mem (m := .ori) rfl (by decide),
    Instr.inRow_of_mem (m := .xori) rfl (by decide)⟩
  · rw [BitVec.getLsbD_and, sext12_bit imm hk]
  · rw [BitVec.getLsbD_or, sext12_bit imm hk]
  · rw [BitVec.getLsbD_xor, sext12_bit imm hk]

/-- Settles O2: bit by bit. -/
theorem logicalOperationsAreBitwise : Obligations.LogicalOperationsAreBitwise := by
  intro rd rs1 rs2 s
  exact ⟨⟨_, _, rfl, State.writeResult_spec .., fun _ _ => BitVec.getLsbD_and⟩,
    ⟨_, _, rfl, State.writeResult_spec .., fun _ _ => BitVec.getLsbD_or⟩,
    ⟨_, _, rfl, State.writeResult_spec .., fun _ _ => BitVec.getLsbD_xor⟩,
    Instr.inRow_of_mem (m := .and) rfl (by decide), Instr.inRow_of_mem (m := .or) rfl (by decide),
    Instr.inRow_of_mem (m := .xor) rfl (by decide)⟩

/-! ### Sums and differences (R153, R154, R163) -/

/-- Settles O1: the sum of words, and their difference read as integers. -/
theorem addAndSubWrapModulo : Obligations.AddAndSubWrapModulo := by
  intro rd rs1 rs2 s
  exact ⟨⟨_, _, rfl, State.writeResult_spec .., BitVec.toNat_add ..⟩,
    ⟨_, _, rfl, State.writeResult_spec .., toNat_sub_eq_emod ..⟩,
    Instr.inRow_of_mem (m := .add) rfl (by decide), Instr.inRow_of_mem (m := .sub) rfl (by decide)⟩

/-- Settles O5: the sum with the immediate read as a signed integer. -/
theorem addImmediateWrapsModulo : Obligations.AddImmediateWrapsModulo := by
  intro rd rs1 imm s
  exact ⟨⟨_, _, rfl, State.writeResult_spec .., toNat_add_sext12 ..⟩,
    Instr.inRow_of_mem (m := .addi) rfl (by decide)⟩

/-! ### Comparisons (R161, R162, R167, R168) -/

/-- Settles O4: the comparison laws; no table sets the markers the source fixes for `sltu` (R55). -/
theorem registerComparesWriteZeroOrOne : Obligations.RegisterComparesWriteZeroOrOne := by
  intro rd rs1 rs2 s
  have hmarkers (v : Word) : EffectIs (s.writeResult .sltu rd (some rs1) (some rs2) v) fun e =>
      e.markers.rs1S = false ∧ e.markers.rs2S = false :=
    ⟨_, State.writeResult_lastEffect .., rfl, rfl⟩
  exact ⟨⟨_, _, rfl, State.writeResult_spec .., toNat_boolWord_ltSigned ..⟩,
    ⟨_, _, rfl, State.writeResult_spec .., toNat_boolWord_ltUnsigned .., hmarkers _⟩,
    Instr.inRow_of_mem (m := .slt) rfl (by decide), Instr.inRow_of_mem (m := .sltu) rfl (by decide)⟩

/-- Settles O7: the comparison laws, with the immediate's signed and unsigned readings. -/
theorem immediateComparesWriteZeroOrOne : Obligations.ImmediateComparesWriteZeroOrOne := by
  intro rd rs1 imm s
  refine ⟨⟨_, _, rfl, State.writeResult_spec .., ?_⟩, ⟨_, _, rfl, State.writeResult_spec .., ?_⟩,
    Instr.inRow_of_mem (m := .slti) rfl (by decide), Instr.inRow_of_mem (m := .sltiu) rfl (by decide)⟩
  · rw [toNat_boolWord_ltSigned, sext12_toInt]
  · simp only [toNat_boolWord_ltUnsigned, ← sext12_toNat, Nat.cast_lt]

/-! ### Upper immediates (R172, R173) -/

/-- Settles O9: the shifted immediate loses no bit. -/
theorem upperImmediatesShiftByTwelve : Obligations.UpperImmediatesShiftByTwelve := by
  intro rd imm s
  refine ⟨⟨_, _, rfl, State.writeResult_spec .., upper20_toNat imm⟩,
    ⟨_, _, rfl, State.writeResult_spec .., ?_⟩,
    Instr.inRow_of_mem (m := .lui) rfl (by decide), Instr.inRow_of_mem (m := .auipc) rfl (by decide)⟩
  rw [BitVec.toNat_add, upper20_toNat]

end Machine

end Sys2Proof
end

section
/-! PROOFS. The statements about the control transfer instructions (41_control_transfer.md): a jump is `jumpTo` and a
branch `branchIf`, whose specifications say what they change and keep; a target of a well-formed Program names
a slot. -/

namespace Sys2Proof

/-! ### Addresses that stay in the Program (R39, R44, R102, R201) -/

/-- Every slot of a well-formed Program stands where the continuation predicate holds. -/
theorem Program.contains_of_isSlotAddress {p : Program} (hp : p.wf) {a : Word} (ha : p.isSlotAddress a) :
    p.contains a = true := by
  obtain ⟨hentry, hend, -⟩ := hp
  obtain ⟨k, hk, rfl⟩ := ha
  have haddress : (p.slotAddress k).toNat = p.entry.toNat + 4 * k := by
    rw [Program.slotAddress, BitVec.toNat_add, BitVec.toNat_ofNat]
    omega
  rw [Program.contains_iff hend, haddress]
  omega

/-- The target of an instruction of a well-formed Program is a slot's address: it is a label's (R102), and labels name
slots (R44). -/
theorem Program.isSlotAddress_of_target {p : Program} (hp : p.wf) {i : Instr} (hi : .instr i ∈ p.instrs)
    {a : Word} (ha : i.target = some a) : p.isSlotAddress a := by
  obtain ⟨-, -, -, hlabels, hslots, -⟩ := hp
  have htarget : a ∈ p.labels.map Prod.snd := by
    simpa only [Program.slotWf, ha, List.contains_iff_mem] using hslots _ hi
  obtain ⟨l, hl, rfl⟩ := List.mem_map.mp htarget
  exact hlabels l hl

/-- Only after the last slot of a well-formed Program is the next address none of a slot. -/
theorem Program.last_of_not_contains_next {p : Program} (hp : p.wf) {a : Word} (ha : p.contains a = true)
    (hnext : p.contains (a + 4) = false) : a.toNat + 4 = p.entry.toNat + 4 * p.count := by
  obtain ⟨hentry, hend, -⟩ := hp
  obtain ⟨halign, hle, hlt⟩ := (Program.contains_iff hend a).mp ha
  by_contra hne
  have hadd : (a + 4).toNat = a.toNat + 4 := by
    rw [BitVec.toNat_add, show (4 : Word).toNat = 4 from rfl]
    omega
  have hin : p.contains (a + 4) = true := by
    rw [Program.contains_iff hend, hadd]
    omega
  exact Bool.false_ne_true (hnext.symm.trans hin)

namespace Machine

/-- The fetched instruction stands in the Program. -/
theorem State.mem_instrs_of_fetch {s : State} {i : Instr} (hcan : s.canStep = true) (hfetch : s.fetch = .instr i) :
    .instr i ∈ s.prog.instrs :=
  hfetch ▸ List.mem_of_getElem? (State.getElem?_index hcan)

/-- Settles O24: a target is a slot's address, and only the last slot has no next one; a run that ended otherwise ended
by `jalr` (`nextPcByClass`). -/
theorem onlyJalrAndTheLastSlotLeaveTheProgram : Obligations.OnlyJalrAndTheLastSlotLeaveTheProgram := by
  intro i s t hwf hcan hfetch hexec
  have hprog : t.prog = s.prog := (exec_controlKept hexec).1
  have hstays : i.target = some t.pc → t.canStep = true := fun htarget => by
    rw [State.canStep, hprog]
    exact Program.contains_of_isSlotAddress hwf
      (Program.isSlotAddress_of_target hwf (State.mem_instrs_of_fetch hcan hfetch) htarget)
  refine ⟨hstays, fun hended => ?_⟩
  obtain hnext | htarget | ⟨rd, rs1, imm, hjalr, -⟩ := (nextPcByClass i s t hexec).2
  · rw [State.canStep, hprog, hnext] at hended
    exact .inr ⟨Program.last_of_not_contains_next hwf hcan hended, hnext⟩
  · exact absurd (hstays htarget) (by simp [hended])
  · exact .inl ⟨rd, rs1, imm, hjalr⟩

/-! ### Jumps (R204, R205) -/

/-- The Effect of a jump names the slot of its target, where that is one (R56). -/
theorem State.jumpTo_effect (s : State) (m : Mnemonic) (rd : RegIdx) (rs1 : Option RegIdx) (target : Word) :
    EffectIs (s.jumpTo m rd rs1 target) fun e => e.jump = true ∧ e.jumpTarget =
      if s.prog.contains target then some ((target.toNat - s.prog.entry.toNat) / 4) else none :=
  ⟨_, State.jumpTo_lastEffect .., rfl, Program.jumpTarget_eq ..⟩

theorem State.jumpTo_canStep (s : State) (m : Mnemonic) (rd : RegIdx) (rs1 : Option RegIdx) (target : Word) :
    (s.jumpTo m rd rs1 target).canStep = s.prog.contains target := by
  rw [State.canStep, State.jumpTo_prog, State.jumpTo_pc]

/-- The engine step at the padding slot is a refusal (R304). -/
theorem State.engineStep_of_fetch_pad {s : State} (hcan : s.canStep = true) (hpad : s.fetch = .pad) :
    s.engineStep = .refused .paddingSlot := by
  obtain ⟨i, t, hinstr, -⟩ | ⟨-, hrefused⟩ := State.engineStep_cases hcan
  · rw [hpad] at hinstr; cases hinstr
  · exact hrefused

/-- The word of a `jal` carries the offset of its target, when that fits (R105, R106). -/
theorem immJ_encode_jal {p target : Word} (rd : RegIdx) (h : fitsJal p target = true) :
    immJ (encode p (.jal rd target)) = target - p := by
  obtain ⟨hrange, heven⟩ := fitsJal_iff.mp h
  rw [encode, wordJ_imm, sext_bits20 hrange heven]

/-- `jal label` links in `ra` (R115). -/
theorem assembleInstr_jal_label {hex : Bool} {labels : List (Text × Word)} {name : Text} {target : Word}
    (h : labels.lookup name = some target) : assembleInstr hex labels .jal [name] = .ok (.jal 1 target) := by
  simp only [assembleInstr, shapeJ, labelOperand, h]
  rfl

/-- `jalr offset(rs1)` links in `ra` (R115). -/
theorem assembleInstr_jalr_memory {hex : Bool} {operand : Text} {imm : BitVec 12} {rs1 : RegIdx}
    (labels : List (Text × Word)) (h : memoryOperand hex operand = .ok (imm, rs1)) :
    assembleInstr hex labels .jalr [operand] = .ok (.jalr 1 rs1 imm) := by
  simp only [assembleInstr, shapeJalr, h]
  rfl

/-- Settles O16: both instructions are one jump, to the record's target and to the effective address. -/
theorem jumpsLinkAndGoToTarget : Obligations.JumpsLinkAndGoToTarget := by
  intro rd rs1 target imm s
  exact ⟨⟨_, rfl, State.jumpTo_spec .., State.jumpTo_effect .., State.engineStep_of_fetch_pad⟩,
    ⟨_, _, rfl, toNat_add_sext12 .., State.jumpTo_spec .., State.jumpTo_effect .., (State.jumpTo_canStep ..).trans⟩,
    Instr.inRow_of_mem (m := .jal) rfl (by decide), Instr.inRow_of_mem (m := .jalr) rfl (by decide),
    fun _ => immJ_encode_jal rd, fun _ _ _ => assembleInstr_jal_label,
    fun _ labels _ => assembleInstr_jalr_memory labels⟩

/-! ### Branches (R206 to R211) -/

/-- A branch taken exactly when `c` holds goes to its target then, else to `pc + 4`, and its Effect says which. -/
theorem State.branchIf_of_taken_eq {taken : Bool} {c : Prop} [Decidable c] (h : taken = decide c) (s : State)
    (m : Mnemonic) (rs1 rs2 : RegIdx) (target : Word) :
    OnlyMovesPc s (s.branchIf m rs1 rs2 taken target) (if c then target else s.pc + 4) ∧
      EffectIs (s.branchIf m rs1 rs2 taken target) fun e => e.jump = decide c := by
  subst h
  refine ⟨?_, _, State.branchIf_lastEffect .., ?_⟩
  · simpa only [decide_eq_true_eq] using State.branchIf_spec s m rs1 rs2 (decide c) target
  · by_cases hc : c <;> simp [hc, State.jumpEffect, State.plainEffect]

theorem beq_eq_decide_toNat (a b : Word) : (a == b) = decide (a.toNat = b.toNat) :=
  Bool.eq_iff_iff.mpr (by simp [BitVec.toNat_inj])

theorem bne_eq_decide_toNat (a b : Word) : (a != b) = decide (a.toNat ≠ b.toNat) := by
  rw [bne, beq_eq_decide_toNat, decide_not]

theorem not_ltSigned_eq_decide (a b : Word) : (!ltSigned a b) = decide (a.toInt ≥ b.toInt) := by
  rw [ltSigned, BitVec.slt, ← decide_not, decide_eq_decide, not_lt, ge_iff_le]

theorem not_ltUnsigned_eq_decide (a b : Word) : (!ltUnsigned a b) = decide (a.toNat ≥ b.toNat) := by
  rw [ltUnsigned, BitVec.ult, ← decide_not, decide_eq_decide, not_lt, ge_iff_le]

/-- Settles O17: two words are equal when their unsigned readings are. -/
theorem equalityBranches : Obligations.EqualityBranches := by
  intro rs1 rs2 target s
  exact ⟨⟨_, rfl, State.branchIf_of_taken_eq (beq_eq_decide_toNat ..) ..⟩,
    ⟨_, rfl, State.branchIf_of_taken_eq (bne_eq_decide_toNat ..) ..⟩,
    Instr.inRow_of_mem (m := .beq) rfl (by decide), Instr.inRow_of_mem (m := .bne) rfl (by decide)⟩

/-- Settles O18: `blt` and `bltu` compare the readings by definition, `bge` and `bgeu` are their negations. -/
theorem orderingBranches : Obligations.OrderingBranches := by
  intro rs1 rs2 target s
  exact ⟨⟨_, rfl, State.branchIf_of_taken_eq rfl ..⟩,
    ⟨_, rfl, State.branchIf_of_taken_eq (not_ltSigned_eq_decide ..) ..⟩,
    ⟨_, rfl, State.branchIf_of_taken_eq rfl ..⟩,
    ⟨_, rfl, State.branchIf_of_taken_eq (not_ltUnsigned_eq_decide ..) ..⟩,
    Instr.inRow_of_mem (m := .blt) rfl (by decide), Instr.inRow_of_mem (m := .bge) rfl (by decide),
    Instr.inRow_of_mem (m := .bltu) rfl (by decide), Instr.inRow_of_mem (m := .bgeu) rfl (by decide)⟩

end Machine

end Sys2Proof
end

section
/-! PROOFS. The statements about the load and store instructions (42_load_store.md): each is one `State.load` or one
`State.store`, whose specifications say what it changes and keeps; the loaded value is read as an integer, byte by
byte. -/

namespace Sys2Proof.Machine

/-! ### Extensions as integers (R233, R234, R236, R237) -/

/-- The low byte, zero-extended (R236). -/
theorem toNat_zextByte (v : Word) : (zextByte v).toNat = v.toNat % 256 := by
  rw [zextByte, BitVec.toNat_setWidth_of_le (by decide), BitVec.toNat_setWidth]

/-- The low halfword, zero-extended (R237). -/
theorem toNat_zextHalf (v : Word) : (zextHalf v).toNat = v.toNat % 65536 := by
  rw [zextHalf, BitVec.toNat_setWidth_of_le (by decide), BitVec.toNat_setWidth]

/-- The low byte, read signed (R233). -/
theorem toInt_sextByte (v : Word) : (sextByte v).toInt = (v.setWidth 8).toInt :=
  BitVec.toInt_signExtend_of_le (by decide)

/-- A halfword, read signed (R234). -/
theorem toInt_sextHalf_of_lt {v : Word} (h : v.toNat < 65536) :
    (sextHalf v).toInt = if v.toNat < 32768 then (v.toNat : Int) else (v.toNat : Int) - 65536 := by
  rw [sextHalf, BitVec.toInt_signExtend_of_le (by decide), BitVec.toInt_eq_toNat_cond, BitVec.toNat_setWidth,
    Nat.mod_eq_of_lt h]
  split <;> split <;> omega

/-! ### Loads (R233 to R238) -/

/-- The low byte of a one-byte read is the byte read (R75). -/
theorem State.memRead_one_setWidth (s : State) (A : Word) : (s.memRead A 1).1.setWidth 8 = s.byteAt A := by
  apply BitVec.eq_of_toNat_eq
  rw [BitVec.toNat_setWidth, State.memRead_one, Nat.mod_eq_of_lt (s.byteAt A).isLt]

/-- A two-byte read is a halfword (R75). -/
theorem State.memRead_two_lt (s : State) (A : Word) : (s.memRead A 2).1.toNat < 65536 := by
  have hlow := (s.byteAt A).isLt
  have hhigh := (s.byteAt (A + 1)).isLt
  rw [State.memRead_two]
  omega

/-- Settles O10: the byte read, extended; no table sets the marker the source fixes for `lb` (R55). -/
theorem byteLoadsExtend : Obligations.ByteLoadsExtend := by
  intro rd rs1 imm s
  refine ⟨toNat_add_sext12 .., ⟨_, _, rfl, State.load_spec .., ?_, _, State.load_lastEffect .., rfl⟩,
    ⟨_, _, rfl, State.load_spec .., ?_⟩,
    Instr.inRow_of_mem (m := .lb) rfl (by decide), Instr.inRow_of_mem (m := .lbu) rfl (by decide)⟩
  · rw [toInt_sextByte, State.memRead_one_setWidth]
  · rw [toNat_zextByte, State.memRead_one, Nat.mod_eq_of_lt (s.byteAt _).isLt]

/-- Settles O11: the halfword read, extended. -/
theorem halfwordLoadsExtend : Obligations.HalfwordLoadsExtend := by
  intro rd rs1 imm s A h
  have hread : (s.memRead A 2).1.toNat = h := State.memRead_two s A
  have hlt := State.memRead_two_lt s A
  refine ⟨toNat_add_sext12 .., ⟨_, _, rfl, State.load_spec .., ?_⟩, ⟨_, _, rfl, State.load_spec .., ?_⟩,
    Instr.inRow_of_mem (m := .lh) rfl (by decide), Instr.inRow_of_mem (m := .lhu) rfl (by decide)⟩
  · rw [← hread]; exact toInt_sextHalf_of_lt hlt
  · rw [toNat_zextHalf, Nat.mod_eq_of_lt hlt, hread]

/-- Settles O12: the word read, as it is. -/
theorem wordLoadIsExact : Obligations.WordLoadIsExact := by
  intro rd rs1 imm s A
  exact ⟨toNat_add_sext12 .., ⟨_, _, rfl, State.load_spec .., State.memRead_four ..⟩,
    Instr.inRow_of_mem (m := .lw) rfl (by decide)⟩

/-- An instruction with a load access is one `load`. -/
theorem exec_of_loadAccess {i : Instr} {rs1 : RegIdx} {imm : BitVec 12} {n : Nat}
    (h : i.loadAccess = some (rs1, imm, n)) (s : State) :
    ∃ m extend rd, exec i s = .next (s.load m n extend rd rs1 imm) ∧ i.destination = some rd := by
  rcases exec_cases i s with ⟨_, _, _, _, _, -, -, -, -, hl, -⟩ | ⟨_, _, _, _, -, -, -, -, hl, -⟩ |
    ⟨_, _, _, _, _, -, -, -, -, hl, -⟩ | ⟨m, _, extend, rd, _, _, he, hd, -, -, hl, -⟩ |
    ⟨_, _, _, _, _, -, -, -, -, hl, -⟩ <;> (rw [h] at hl; cases hl)
  exact ⟨m, extend, rd, he, hd⟩

/-- Settles O13: a load whose write is discarded. -/
theorem loadIntoZeroStillReads : Obligations.LoadIntoZeroStillReads := by
  intro i rs1 imm n s hload hdest
  obtain ⟨m, extend, rd, he, hd⟩ := exec_of_loadAccess hload s
  obtain rfl : rd = 0 := Option.some.inj (hd.symm.trans hdest)
  obtain ⟨hregs, -, -, hpages, -⟩ := State.load_spec s m n extend 0 rs1 imm
  refine ⟨_, he, fun r => ?_, hpages, _, State.load_lastEffect .., rfl, byteAddresses_eq ..⟩
  rw [hregs r, if_neg fun hr => hr.2 hr.1]

/-! ### Stores (R239 to R241) -/

/-- Settles O14: each is one `store`, of the width of its mnemonic. -/
theorem storesWriteLowBytes : Obligations.StoresWriteLowBytes := by
  intro rs2 rs1 imm s hm
  have hstore (m : Mnemonic) {n : Nat} (hn : n ≤ 4) := State.store_spec s m n rs2 rs1 imm hm hn
  exact ⟨toNat_add_sext12 .., ⟨_, rfl, hstore .sb (by decide)⟩, ⟨_, rfl, hstore .sh (by decide)⟩,
    ⟨_, rfl, hstore .sw (by decide)⟩,
    Instr.inRow_of_mem (m := .sb) rfl (by decide), Instr.inRow_of_mem (m := .sh) rfl (by decide),
    Instr.inRow_of_mem (m := .sw) rfl (by decide)⟩

/-! ### A store followed by a load (R78, R235) -/

/-- A load at the operands of the store before it reads at the same address, for a store writes no register. -/
theorem State.reg_load_store (s : State) (m m' : Mnemonic) (n n' : Nat) (extend : Word → Word) {rd : RegIdx}
    (hrd : rd ≠ 0) (rs2 rs1 : RegIdx) (imm : BitVec 12) :
    ((s.store m n rs2 rs1 imm).load m' n' extend rd rs1 imm).reg rd =
      extend ((s.store m n rs2 rs1 imm).memRead (s.effectiveAddress rs1 imm) n').1 := by
  obtain ⟨hregs, -⟩ := State.load_spec (s.store m n rs2 rs1 imm) m' n' extend rd rs1 imm
  rw [hregs rd, if_pos ⟨rfl, hrd⟩, State.effectiveAddress, State.reg_congr (State.store_x ..),
    ← State.effectiveAddress]

/-- The four bytes a word store leaves, the lowest first (R76). -/
theorem State.store_word_bytes {s : State} (hm : Memory.wf s.mem) (m : Mnemonic) (rs2 rs1 : RegIdx) (imm : BitVec 12) :
    let A := s.effectiveAddress rs1 imm
    let t := s.store m 4 rs2 rs1 imm
    (t.byteAt A).toNat = (s.reg rs2).toNat % 256 ∧ (t.byteAt (A + 1)).toNat = (s.reg rs2).toNat / 256 % 256 ∧
      (t.byteAt (A + 2)).toNat = (s.reg rs2).toNat / 65536 % 256 ∧
      (t.byteAt (A + 3)).toNat = (s.reg rs2).toNat / 16777216 % 256 := by
  intro A t
  obtain ⟨hbytes, -⟩ := State.store_spec s m 4 rs2 rs1 imm hm (by decide)
  have hfirst := hbytes 0 (by decide)
  rw [BitVec.add_zero, Nat.pow_zero, Nat.div_one] at hfirst
  exact ⟨hfirst, hbytes 1 (by decide), hbytes 2 (by decide), hbytes 3 (by decide)⟩

/-- Settles O15: every part is put together from the four bytes the store left. -/
theorem storedWordLoadsBack : Obligations.StoredWordLoadsBack := by
  intro rd rs2 rs1 imm s t hm hrd hexec
  cases hexec
  have hword := (s.reg rs2).isLt
  obtain ⟨h0, h1, h2, h3⟩ := State.store_word_bytes hm .sw rs2 rs1 imm
  refine ⟨⟨_, rfl, ?_⟩, ⟨_, rfl, ?_⟩, ⟨_, rfl, ?_⟩, ?_, ?_⟩
  · rw [State.reg_load_store _ _ _ _ _ _ hrd]
    apply BitVec.eq_of_toNat_eq
    rw [id, State.memRead_four, h0, h1, h2, h3]
    omega
  · rw [State.reg_load_store _ _ _ _ _ _ hrd, toNat_zextHalf, State.memRead_two, h0, h1]
    omega
  · rw [State.reg_load_store _ _ _ _ _ _ hrd, toNat_zextByte, State.memRead_one, h0]
    omega
  · rw [State.memRead_two, BitVec.add_assoc, show (2 + 1 : Word) = 3 from rfl, h2, h3]
    omega
  · rw [State.memRead_one, h1]

end Sys2Proof.Machine
end

section
/-! PROOFS. The statements about exceptions (60_exceptions.md): every instruction completes; the padding slot is
refused, and the mark it leaves is returned by each later RUN and STEP until STOP or RELOAD clears it. -/

namespace Sys2Proof.Machine

/-! ### Every instruction completes (R300, R303) -/

/-- Settles O19: it answers a next state, and the Effect of its class carries the index. -/
theorem everyInstructionCompletes : Obligations.EveryInstructionCompletes := by
  intro i s
  obtain ⟨t, hexec⟩ := exec_next i s
  obtain ⟨e, he, hclass⟩ := exec_effect hexec
  exact ⟨t, hexec, e, he, hclass.index⟩

/-! ### A refused step and its mark (R304, R347) -/

/-- At the padding slot a step is the engine step's refusal (R304). -/
theorem step_of_fetch_pad {s : State} (hmark : s.refused = none) (hruns : s.status.runs = true)
    (hcan : s.canStep = true) (hpad : s.fetch = .pad) : step s = .refused .paddingSlot := by
  simp [step, State.stepOnce, hmark, hruns, State.engineStep_of_fetch_pad hcan hpad]

/-- A set mark is returned with no step (R347). -/
theorem step_of_refused {s : State} {r : Refusal} (hmark : s.refused = some r) : step s = .refused r := by
  simp [step, State.stepOnce, hmark]

/-- Setting a mark that is set changes nothing. -/
theorem State.refuse_of_refused {s : State} {r : Refusal} (hmark : s.refused = some r) : s.refuse r = s := by
  cases s
  cases hmark
  rfl

/-- STEP as an action, where the step is refused: the mark is set and nothing else (R304). -/
theorem State.handle_step_of_step_refused {s : State} {r : Refusal} (hruns : s.status.runs = true)
    (hstep : step s = .refused r) : s.handle .step = ⟨s.refuse r, .refusal r, none⟩ := by
  have henabled : enabled s.status .step = true := hruns
  have honce : s.stepOnce = .refused r := hstep
  simp [State.handle, Action.kind, henabled, State.stepAction, honce]

/-- STEP with the mark set returns the refusal and changes nothing (R347). -/
theorem State.handle_step_refused {s : State} {r : Refusal} (hmark : s.refused = some r)
    (hruns : s.status.runs = true) : s.handle .step = ⟨s, .refusal r, none⟩ := by
  rw [State.handle_step_of_step_refused hruns (step_of_refused hmark), State.refuse_of_refused hmark]

/-- RUN with time for a step, at the padding slot: `timedOut` is cleared, the mark set (R304, R348). -/
theorem State.handle_run_of_fetch_pad {s : State} (k : Nat) (hmark : s.refused = none) (hruns : s.status.runs = true)
    (hcan : s.canStep = true) (hpad : s.fetch = .pad) :
    s.handle (.run (k + 1)) = ⟨{ s with timedOut := false }.refuse .paddingSlot, .refusal .paddingSlot, none⟩ := by
  rw [State.handle_run _ hmark hruns]
  exact State.runLoop_pad k hcan hpad

/-! ### What clears the mark (R347, R352, R353) -/

/-- STOP is enabled in every status but Standby (R347). -/
theorem State.handle_stop {s : State} (hs : s.status ≠ .standby) : s.handle .stop = s.stopAction := by
  cases h : s.status
  case standby => exact absurd h hs
  all_goals simp [State.handle, Action.kind, h, enabled]

/-- A load from source clears the mark, whether it fails or not (R342). -/
theorem State.loadSource_refused (s : State) (src : Source) : (s.loadSource src).1.refused = none := by
  unfold State.loadSource
  split
  case h_1 => rfl
  case h_2 => split <;> rfl

/-- Where RUN and STEP are enabled the status is not Standby. -/
theorem Status.ne_standby_of_runs {st : Status} (h : st.runs = true) : st ≠ .standby := by
  rintro rfl
  exact Bool.false_ne_true h

/-! ### The padding slot (R304, R347) -/

/-- Settles O37: the refused STEP sets the mark and nothing else, so the run has not ended, and the marked state is one
of those whose every STEP and RUN returns the refusal. -/
theorem paddingSlotIsRefused : Obligations.PaddingSlotIsRefused := by
  intro s hmark hruns hcan hpad
  have hstep := step_of_fetch_pad hmark hruns hcan hpad
  have haction := State.handle_step_of_step_refused hruns hstep
  refine ⟨hstep, haction, fun k => ?_, fun u hu => ?_⟩
  · rw [State.handle_run_of_fetch_pad k hmark hruns hcan hpad]
    exact ⟨rfl, rfl⟩
  · obtain rfl : u = s.refuse .paddingSlot := hu.trans (congrArg Handled.state haction)
    have hmarked : (s.refuse .paddingSlot).refused = some .paddingSlot := rfl
    have hruns' : (s.refuse .paddingSlot).status.runs = true := hruns
    refine ⟨fun hended => Bool.false_ne_true (hended.symm.trans hcan), step_of_refused hmarked,
      State.handle_step_refused hmarked hruns', fun k => State.handle_run_refused k hmarked hruns', ?_, fun src => ?_⟩
    · rw [State.handle_stop (Status.ne_standby_of_runs hruns')]
      rfl
    · rw [State.handle_reload]
      exact State.loadSource_refused ..

end Sys2Proof.Machine
end

section
/-! PROOFS. The statements about reset, load and the sequencer's actions (70_reset_and_hazards.md): what each action
answers, the loop of RUN as one induction, and the invariant after every load and every action. -/

namespace Sys2Proof

/-! ### The empty Program, and the slots of a straight line (R41, R43, R341) -/

/-- A Program with no slot is well formed at any aligned entry. -/
theorem Program.wf_empty {entry : Word} (h : entry.toNat % 4 = 0) :
    Program.wf { instrs := [], entry := entry, labels := [] } :=
  ⟨h, entry.isLt.le, List.nodup_nil, by simp, by simp, rfl⟩

/-- The address after a slot is that of the next (R43). -/
theorem Program.slotAddress_succ (p : Program) (k : Nat) : p.slotAddress k + 4 = p.slotAddress (k + 1) := by
  rw [Program.slotAddress, Program.slotAddress, BitVec.add_assoc, Nat.mul_succ, BitVec.ofNat_add]
  rfl

/-- The address after the last slot is none of a slot, unless the Program fills the address space and it wraps onto the
entry (R39, R41). -/
theorem Program.not_contains_end {p : Program} (hp : p.wf) (hsmall : p.count < 2 ^ 30) :
    p.contains (p.slotAddress p.count) = false := by
  obtain ⟨-, hend, -⟩ := hp
  by_contra hin
  obtain ⟨-, hle, hlt⟩ := (Program.contains_iff hend _).mp (Bool.not_eq_false _ ▸ hin)
  rw [Program.slotAddress, BitVec.toNat_add, BitVec.toNat_ofNat] at hle hlt
  omega

namespace Machine

/-! ### An instruction does not read `timedOut` (R49) -/

/-- A page base inserted for each of the addresses, in order. -/
def Pages.insertAll (ps : List Nat) (as : List Word) : List Nat :=
  as.foldl (fun ps a => Pages.insert ps (pageBase a)) ps

theorem State.memRead_pages_eq (s : State) (A : Word) (n : Nat) :
    (s.memRead A n).2.pages = Pages.insertAll s.pages (byteAddresses A n) := by
  induction n generalizing s A with
  | zero => rfl
  | succ n ih => exact ih (s.touch A) (A + 1)

theorem State.memWrite_pages_eq (s : State) (A v : Word) (n : Nat) :
    (s.memWrite A n v).pages = Pages.insertAll s.pages (byteAddresses A n) := by
  induction n generalizing s A v with
  | zero => rfl
  | succ n ih => exact ih (s.writeByte A _) (A + 1) _

/-- The page set after an instruction, as the list it is: the pages of its accesses inserted in order (R72, R73). -/
theorem exec_pages_eq {i : Instr} {s t : State} (h : exec i s = .next t) :
    t.pages = Pages.insertAll s.pages (s.accessAddresses i.loadAccess ++ s.accessAddresses i.storeAccess) := by
  rcases exec_memory_cases h with ⟨hl, hs, -, hpages⟩ | ⟨rs1, imm, n, hl, hs, -, hpages⟩ |
    ⟨rs1, imm, n, v, hl, hs, -, hpages⟩ <;> rw [hpages, hl, hs]
  · rfl
  · rw [State.memRead_pages_eq, State.accessAddresses, State.accessAddresses, List.append_nil]
  · exact State.memWrite_pages_eq ..

/-- An instruction commutes with a change of `timedOut`: it reads none of the host's state, and keeps what it does not
read. -/
theorem exec_with_timedOut {i : Instr} {s t : State} (h : exec i s = .next t) (b : Bool) :
    exec i { s with timedOut := b } = .next { t with timedOut := b } := by
  obtain ⟨t', h'⟩ := exec_next i { s with timedOut := b }
  rw [h']
  obtain ⟨⟨hprog, hx, hpc, hmem⟩, heffect⟩ :=
    SameMachine.exec (s := { s with timedOut := b }) (s' := s) ⟨rfl, rfl, rfl, rfl⟩ h' h
  have hlast := heffect rfl
  have hpages : t'.pages = t.pages := (exec_pages_eq h').trans (exec_pages_eq h).symm
  obtain ⟨-, hstatus, -, hload, hmark, hparams⟩ := exec_controlKept h
  obtain ⟨-, hstatus', htimed', hload', hmark', hparams'⟩ := exec_controlKept h'
  cases t
  cases t'
  simp_all

/-! ### STEP (R351) -/

/-- STEP as an action, where the step is not refused: its state, and the Effect the state retains. -/
theorem State.handle_step_of_step_next {s t : State} (hruns : s.status.runs = true) (hstep : step s = .next t) :
    s.handle .step = ⟨t, .effect t.lastEffect, none⟩ := by
  have henabled : enabled s.status .step = true := hruns
  have honce : s.stepOnce = .next t := hstep
  simp [State.handle, Action.kind, henabled, State.stepAction, honce]

/-- What STEP as an action can be, where it is enabled: a step, or a refusal that sets the mark. -/
theorem State.handle_step_cases {s : State} (hruns : s.status.runs = true) :
    (∃ t, step s = .next t ∧ s.handle .step = ⟨t, .effect t.lastEffect, none⟩) ∨
    (∃ r, step s = .refused r ∧ s.handle .step = ⟨s.refuse r, .refusal r, none⟩) := by
  cases hstep : step s with
  | next t => exact .inl ⟨t, rfl, State.handle_step_of_step_next hruns hstep⟩
  | fault f => cases f
  | refused r => exact .inr ⟨r, rfl, State.handle_step_of_step_refused hruns hstep⟩

/-- Settles O36: the step is the fetched instruction and the settling of the status. -/
theorem stepActionExecutesOnce : Obligations.StepActionExecutesOnce := by
  intro s i hmark hruns hcan hfetch
  obtain ⟨t, hexec⟩ := exec_next i s
  have haction := State.handle_step_of_step_next hruns (step_of_fetch_instr hmark hruns hcan hfetch hexec)
  obtain ⟨-, -, htimed, -⟩ := exec_controlKept hexec
  exact ⟨t, hexec, haction, by rw [haction]; exact htimed⟩

/-! ### The enabled-action table (R347) -/

/-- A disabled action changes nothing. -/
theorem State.handle_disabled {s : State} {a : Action} (h : enabled s.status a.kind = false) :
    s.handle a = ⟨s, .rejected, none⟩ := by
  simp [State.handle, h]

/-- Settles O38: the table status by status, and the replies to a disabled action and with the mark set. -/
theorem enabledActionTable : Obligations.EnabledActionTable := by
  refine ⟨fun k => ?_, fun k => ?_, fun k => ?_, fun k => ?_, fun s a => State.handle_disabled,
    fun s r hmark hruns => ⟨State.handle_step_refused hmark hruns, fun k => State.handle_run_refused k hmark hruns⟩⟩
  all_goals cases k <;> decide

/-! ### The reset sequence (R344) -/

theorem State.resetSequence_reg (s : State) (r : RegIdx) : s.resetSequence.reg r = 0 := by
  simp [State.reg]

theorem State.resetSequence_byteAt (s : State) (a : Word) : s.resetSequence.byteAt a = 0 := rfl

/-- Settles O43: STOP is the reset sequence, which a second one repeats. -/
theorem stopResets : Obligations.StopResets := by
  intro s t hs ht
  rw [State.handle_stop hs] at ht ⊢
  subst ht
  refine ⟨rfl, s.resetSequence_reg, s.resetSequence_byteAt, rfl, rfl, rfl, rfl, rfl, rfl, rfl, rfl, ?_⟩
  rw [State.handle_stop (by simp [State.stopAction])]
  rfl

/-- The reset sequence establishes the invariant for a well-formed Program, with the status a load or STOP sets. -/
theorem Inv.of_resetSequence {s : State} (hprog : s.prog.wf) (failed : Bool) :
    Inv { s.resetSequence with
      status := if s.prog.count = 0 then .standby else .ready
      loadFailed := failed } where
  data := .of_cleared rfl rfl rfl
  prog := hprog
  standby := by by_cases h : s.prog.count = 0 <;> simp [h]
  runs := by
    by_cases h : s.prog.count = 0
    · simp [h, Status.runs]
    · exact fun _ => Program.contains_entry hprog h
  executed := by by_cases h : s.prog.count = 0 <;> simp [h]
  ready := fun _ => ⟨rfl, rfl⟩
  refused := by simp

/-- Settles O57: the state after reset is the reset sequence of an empty Program. -/
theorem invariantHoldsAtReset : Obligations.InvariantHoldsAtReset :=
  Inv.of_resetSequence (s := .reset) (Program.wf_empty rfl) false

/-! ### A load from source (R340 to R342, R353) -/

section loadSource
variable {s : State} {src : Source} {p : Program}

/-- A source with a defect fails the load (R126, R342). -/
theorem State.loadSource_of_error {ds : List Diagnostic}
    (h : assemble s.params.acceptHexImm s.prog.entry src = .error ds) :
    s.loadSource src = (s.failedLoad, some (.invalid ds)) := by
  simp [State.loadSource, h]

/-- A Program past the top of the address space fails the load (R341, R342). -/
theorem State.loadSource_of_large (h : assemble s.params.acceptHexImm s.prog.entry src = .ok p)
    (hlarge : p.entry.toNat + 4 * p.count > 2 ^ 32) : s.loadSource src = (s.failedLoad, some .programTooLarge) := by
  have : tooLarge p = true := decide_eq_true hlarge
  simp [State.loadSource, h, this]

/-- Any other Program is loaded (R342). -/
theorem State.loadSource_of_fits (h : assemble s.params.acceptHexImm s.prog.entry src = .ok p)
    (hfits : p.entry.toNat + 4 * p.count ≤ 2 ^ 32) : s.loadSource src = (s.goodLoad p, none) := by
  have : tooLarge p = false := decide_eq_false (not_lt.mpr hfits)
  simp [State.loadSource, h, this]

end loadSource

/-- The two states a load from source can leave. -/
theorem State.loadSource_cases (s : State) (src : Source) :
    (s.loadSource src).1 = s.failedLoad ∨
    ∃ p, assemble s.params.acceptHexImm s.prog.entry src = .ok p ∧ p.entry.toNat + 4 * p.count ≤ 2 ^ 32 ∧
      (s.loadSource src).1 = s.goodLoad p := by
  cases h : assemble s.params.acceptHexImm s.prog.entry src with
  | error ds => exact .inl (by rw [State.loadSource_of_error h])
  | ok p =>
    by_cases hfits : p.entry.toNat + 4 * p.count ≤ 2 ^ 32
    · exact .inr ⟨p, rfl, hfits, by rw [State.loadSource_of_fits h hfits]⟩
    · exact .inl (by rw [State.loadSource_of_large h (not_le.mp hfits)])

/-- What every load does, whether it fails or not: the reset sequence, at the same entry and with the same parameters
(R342, R344). -/
structure Reloaded (s t : State) : Prop where
  entry      : t.prog.entry = s.prog.entry
  pc         : t.pc = s.prog.entry
  reg        : ∀ r, t.reg r = 0
  byteAt     : ∀ a, t.byteAt a = 0
  pages      : t.pages = []
  lastEffect : t.lastEffect = none
  timedOut   : t.timedOut = false
  refused    : t.refused = none
  params     : t.params = s.params
  loadFailed : t.loadFailed = true → t.status = .standby

theorem State.reloaded_failedLoad (s : State) : Reloaded s s.failedLoad :=
  ⟨rfl, rfl, s.resetSequence_reg, s.resetSequence_byteAt, rfl, rfl, rfl, rfl, rfl, fun _ => rfl⟩

theorem State.reloaded_goodLoad (s : State) {p : Program} (h : p.entry = s.prog.entry) : Reloaded s (s.goodLoad p) :=
  ⟨h, h, s.resetSequence_reg, s.resetSequence_byteAt, rfl, rfl, rfl, rfl, rfl, nofun⟩

theorem State.reloaded_loadSource (s : State) (src : Source) : Reloaded s (s.loadSource src).1 := by
  obtain hload | ⟨p, hok, -, hload⟩ := s.loadSource_cases src <;> rw [hload]
  · exact s.reloaded_failedLoad
  · exact s.reloaded_goodLoad (assemble_entry hok)

/-- A load from any source at an aligned entry establishes the invariant: it leaves the empty Program, or an assembled
one that fits. -/
theorem State.inv_loadSource {s : State} (h : s.prog.entry.toNat % 4 = 0) (src : Source) :
    Inv (s.loadSource src).1 := by
  obtain hload | ⟨p, hok, hfits, hload⟩ := s.loadSource_cases src <;> rw [hload]
  · exact Inv.of_resetSequence (s := { s with prog := ⟨[], s.prog.entry, []⟩ }) (Program.wf_empty h) true
  · exact Inv.of_resetSequence (s := { s with prog := p }) (assembledProgramIsWellFormed _ _ _ _ hok h hfits) false

/-- Settles O46: the three outcomes of the load, between which the assembly and the size of the Program decide. -/
theorem reloadLoadsAllOrNothing : Obligations.ReloadLoadsAllOrNothing := by
  intro s t src ht
  rw [State.handle_reload] at ht ⊢
  obtain rfl : t = (s.loadSource src).1 := ht
  have hreset := s.reloaded_loadSource src
  refine ⟨⟨hreset.pc, hreset.entry, hreset.reg, hreset.byteAt, hreset.pages, hreset.lastEffect, hreset.timedOut,
    hreset.refused, hreset.params, rfl⟩, fun ds herror => ?_, fun p hok hlarge => ?_, fun p hok hfits => ?_⟩
  · rw [State.reloadAction, State.loadSource_of_error herror]
    exact ⟨rfl, rfl, rfl, rfl, rfl, assemble_error herror⟩
  · rw [State.reloadAction, State.loadSource_of_large hok hlarge]
    exact ⟨rfl, rfl, rfl, rfl, rfl⟩
  · rw [State.reloadAction, State.loadSource_of_fits hok hfits]
    exact ⟨rfl, rfl, rfl, rfl⟩

/-! ### `create` (R340, R341, R345) -/

/-- The normalised entry, as integers (R341). -/
theorem toNat_normaliseEntry (entryMax a : Word) :
    (normaliseEntry entryMax a).toNat =
      if a.toNat / 4 * 4 > entryMax.toNat then entryMax.toNat / 4 * 4 else a.toNat / 4 * 4 := by
  have haligned (w : Word) : (w &&& 0xFFFFFFFC).toNat = w.toNat / 4 * 4 := aligned_toNat w
  simp only [normaliseEntry, haligned, apply_ite BitVec.toNat]

theorem normaliseEntry_aligned (entryMax a : Word) : (normaliseEntry entryMax a).toNat % 4 = 0 := by
  rw [toNat_normaliseEntry]
  split <;> omega

/-- The state `create` loads into: the one after reset, with the given parameters and an empty Program at the normalised
entry (R340). -/
def blankState (params : Params) (entryAddress : Word) : State :=
  { State.reset with
    params := params
    prog := { instrs := [], entry := normaliseEntry Config.entryMax entryAddress, labels := [] } }

theorem create_eq (params : Params) (src : Source) (entryAddress : Word) :
    create params src entryAddress = (blankState params entryAddress).loadSource src := rfl

/-- Settles O47: the load keeps the normalised entry, and resets the pc to it. -/
theorem createNormalisesTheEntry : Obligations.CreateNormalisesTheEntry := by
  intro params src entryAddress
  have hreset := (blankState params entryAddress).reloaded_loadSource src
  rw [create_eq, hreset.entry, hreset.pc]
  exact ⟨toNat_normaliseEntry .., rfl⟩

/-- Settles O60: creating is a load at an aligned entry. -/
theorem createEstablishesTheInvariant : Obligations.CreateEstablishesTheInvariant := by
  intro params src entryAddress s hs
  rw [create_eq] at hs
  subst hs
  have hreset := (blankState params entryAddress).reloaded_loadSource src
  exact ⟨State.inv_loadSource (normaliseEntry_aligned ..) src, hreset.params, hreset.reg, hreset.byteAt,
    hreset.timedOut, hreset.loadFailed⟩

/-! ### RUN and its loop (R348, R350) -/

/-- RUN's loop when the deadline fires with a next instruction to run (R350). -/
theorem State.runLoop_zero {s : State} (hcan : s.canStep = true) :
    State.runLoop 0 s = ⟨{ s with timedOut := true }, .effect s.lastEffect, none⟩ := by
  simp [State.runLoop, hcan]

/-- Settles O39: each end of the loop, and one turn of it, in which the cleared `timedOut` is as good as cleared after
the instruction. -/
theorem runIsItsLoop : Obligations.RunIsItsLoop := by
  intro s k hmark hruns
  simp only [fun n => State.handle_run (s := s) n hmark hruns]
  refine ⟨fun hcan => State.runLoop_ended k hcan, fun hcan => State.runLoop_zero hcan,
    fun hcan hpad => State.runLoop_pad k hcan hpad, fun i t hcan hfetch hexec => ?_⟩
  obtain ⟨-, -, -, -, hmark', -⟩ := exec_controlKept hexec
  rw [State.handle_run (s := { t with status := .running }) k (hmark'.trans hmark) rfl]
  exact State.runLoop_succ (s := { s with timedOut := false }) k hcan hfetch (exec_with_timedOut hexec false)

/-- The induction over RUN's loop: what holds at its start and is kept by each turn holds where it ends, at the deadline,
at a state with no next instruction, or at the padding slot. -/
theorem State.runLoop_induction {P : State → Prop} {Q : Handled → Prop}
    (turn : ∀ {s i t}, P s → s.canStep = true → s.fetch = .instr i → exec i s = .next t →
      P { t with status := .running })
    (deadline : ∀ {s}, P s → s.canStep = true → Q ⟨{ s with timedOut := true }, .effect s.lastEffect, none⟩)
    (ended : ∀ {s}, P s → s.canStep = false → Q ⟨s.terminate, .effect s.terminate.lastEffect, none⟩)
    (pad : ∀ {s}, P s → s.canStep = true → s.fetch = .pad →
      Q ⟨s.refuse .paddingSlot, .refusal .paddingSlot, none⟩)
    (k : Nat) {s : State} (h : P s) : Q (State.runLoop k s) := by
  induction k generalizing s with
  | zero =>
    cases hcan : s.canStep
    · exact State.runLoop_ended 0 hcan ▸ ended h hcan
    · exact State.runLoop_zero hcan ▸ deadline h hcan
  | succ k ih =>
    cases hcan : s.canStep
    · exact State.runLoop_ended (k + 1) hcan ▸ ended h hcan
    · cases hfetch : s.fetch with
      | instr i =>
        obtain ⟨t, hexec⟩ := exec_next i s
        exact State.runLoop_succ k hcan hfetch hexec ▸ ih (turn h hcan hfetch hexec)
      | pad => exact State.runLoop_pad k hcan hfetch ▸ pad h hcan hfetch

/-- The control state of RUN's loop before it ends: neither refused nor timed out, in a status that runs. -/
structure InRun (s : State) : Prop where
  refused  : s.refused = none
  timedOut : s.timedOut = false
  runs     : s.status.runs = true

/-- RUN, where no refusal mark is set, enters its loop in that state. -/
theorem InRun.start {s : State} (hmark : s.refused = none) (hruns : s.status.runs = true) :
    InRun { s with timedOut := false } :=
  ⟨hmark, rfl, hruns⟩

theorem InRun.turn {i : Instr} {s t : State} (h : InRun s) (hexec : exec i s = .next t) :
    InRun { t with status := .running } := by
  obtain ⟨-, -, htimed, -, hmark, -⟩ := exec_controlKept hexec
  exact ⟨hmark.trans h.refused, htimed.trans h.timedOut, rfl⟩

/-- The three ways a RUN ends: the refusal at the padding slot, the deadline, the natural end (R304, R348, R350). -/
inductive RunEnd (o : Handled) : Prop where
  | refused (reply : o.reply = .refusal .paddingSlot) (mark : o.state.refused = some .paddingSlot)
      (fetch : o.state.fetch = .pad)
  | deadline (timedOut : o.state.timedOut = true) (canStep : o.state.canStep = true)
      (runs : o.state.status.runs = true) (reply : o.reply = .effect o.state.lastEffect)
  | ended (timedOut : o.state.timedOut = false) (ended : o.state.ended) (status : o.state.status = .executed)
      (reply : o.reply = .effect o.state.lastEffect)
      (cleared : ∃ e : Option Effect, o.state.lastEffect = e.map Effect.cleared)

theorem InRun.runEnd {s : State} (h : InRun s) (k : Nat) : RunEnd (State.runLoop k s) :=
  State.runLoop_induction (Q := RunEnd) (turn := fun h _ _ hexec => h.turn hexec)
    (deadline := fun h hcan => .deadline rfl hcan h.runs rfl)
    (ended := fun h hcan => .ended h.timedOut hcan rfl rfl ⟨_, rfl⟩)
    (pad := fun _ _ hpad => .refused rfl rfl hpad) k h

/-- What the terminal Effect has cleared (R58). -/
theorem Effect.eq_cleared {e : Effect} {o : Option Effect} (h : o.map Effect.cleared = some e) :
    e.rd = none ∧ e.rs1 = none ∧ e.rs2 = none ∧ e.markers = Markers.none ∧ e.reads = [] ∧ e.writes = [] := by
  obtain ⟨e', -, rfl⟩ := Option.map_eq_some_iff.mp h
  exact ⟨rfl, rfl, rfl, rfl, rfl, rfl⟩

/-- Settles O40: the three ends of the loop. -/
theorem runEndsOrTimesOut : Obligations.RunEndsOrTimesOut := by
  intro s k hmark hruns
  rw [State.handle_run k hmark hruns]
  cases (InRun.start hmark hruns).runEnd k with
  | refused hreply hmark' hpad => exact .inl ⟨hreply, hmark', hpad⟩
  | deadline htimed hcan hruns' hreply => exact .inr (.inl ⟨htimed, hcan, hruns', hreply⟩)
  | ended htimed hended hstatus hreply hcleared =>
    obtain ⟨o, ho⟩ := hcleared
    exact .inr (.inr ⟨htimed, hended, hstatus, hreply, fun e he => Effect.eq_cleared (ho.symm.trans he)⟩)

/-- The loop goes on from the state its deadline left, as if the deadline had not fired. -/
theorem State.runLoop_resume {s : State} (h : InRun s) (j k : Nat)
    (htimed : (State.runLoop j s).state.timedOut = true) :
    State.runLoop k { (State.runLoop j s).state with timedOut := false } = State.runLoop (j + k) s := by
  induction j generalizing s with
  | zero =>
    cases hcan : s.canStep
    · rw [State.runLoop_ended 0 hcan] at htimed
      exact absurd (h.timedOut.symm.trans htimed) Bool.false_ne_true
    · rw [State.runLoop_zero hcan, Nat.zero_add, ← h.timedOut]
  | succ j ih =>
    cases hcan : s.canStep
    · rw [State.runLoop_ended _ hcan] at htimed
      exact absurd (h.timedOut.symm.trans htimed) Bool.false_ne_true
    · cases hfetch : s.fetch with
      | instr i =>
        obtain ⟨t, hexec⟩ := exec_next i s
        rw [Nat.succ_add, State.runLoop_succ (j + k) hcan hfetch hexec]
        rw [State.runLoop_succ j hcan hfetch hexec] at htimed ⊢
        exact ih (h.turn hexec) htimed
      | pad =>
        rw [State.runLoop_pad j hcan hfetch] at htimed
        exact absurd (h.timedOut.symm.trans htimed) Bool.false_ne_true

/-- Settles O41: of the three ends only the deadline leaves `timedOut` set, in a state where RUN is enabled. -/
theorem timedOutRunIsResumed : Obligations.TimedOutRunIsResumed := by
  intro s j k hmark hruns htimed hmark'
  rw [State.handle_run j hmark hruns] at htimed hmark' ⊢
  have hrun := InRun.start hmark hruns
  cases hrun.runEnd j with
  | refused _ hset _ => exact absurd (hmark'.symm.trans hset) nofun
  | ended hclear _ _ _ _ => exact absurd (hclear.symm.trans htimed) Bool.false_ne_true
  | deadline _ _ hruns' _ =>
    rw [State.handle_run k hmark' hruns', State.handle_run _ hmark hruns]
    exact State.runLoop_resume hrun j k htimed

/-! ### A RUN of a straight line (R349) -/

/-- A well-formed Program of instructions that transfer no control, too short to fill the address space. -/
structure StraightLine (p : Program) : Prop where
  wf       : p.wf
  small    : p.count < 2 ^ 30
  straight : ∀ slot ∈ p.instrs, ∃ i, slot = .instr i ∧ i.transfersControl = false

/-- A RUN of `p` stands at slot `m`, or, where `m` is the number of slots, after the last. -/
structure AtSlot (p : Program) (m : Nat) (s : State) : Prop where
  prog     : s.prog = p
  pc       : s.pc = p.slotAddress m
  timedOut : s.timedOut = false

section straight
variable {p : Program} {m : Nat} {s : State}

theorem AtSlot.canStep (h : AtSlot p m s) (hp : p.wf) (hm : m < p.count) : s.canStep = true := by
  rw [State.canStep, h.prog, h.pc]
  exact Program.contains_of_isSlotAddress hp ⟨m, hm, rfl⟩

/-- One turn of RUN's loop moves to the next slot. -/
theorem AtSlot.turn (h : AtSlot p m s) (hp : StraightLine p) (hm : m < p.count) :
    ∃ t, AtSlot p (m + 1) t ∧ ∀ k, State.runLoop (k + 1) s = State.runLoop k t := by
  have hcan := h.canStep hp.wf hm
  obtain ⟨i, hfetch, hi⟩ := hp.straight s.fetch (h.prog ▸ List.mem_of_getElem? (State.getElem?_index hcan))
  obtain ⟨t, hexec⟩ := exec_next i s
  obtain ⟨hprog, -, htimed, -⟩ := exec_controlKept hexec
  refine ⟨{ t with status := .running }, ⟨hprog.trans h.prog, ?_, htimed.trans h.timedOut⟩,
    fun k => State.runLoop_succ k hcan hfetch hexec⟩
  calc t.pc = s.pc + 4 := exec_pc_of_not_transfersControl hexec hi
    _ = p.slotAddress (m + 1) := by rw [h.pc, Program.slotAddress_succ]

/-- A RUN with time for `k` of the slots left stops `k` slots on. -/
theorem AtSlot.runLoop_deadline (hp : StraightLine p) (k : Nat) (h : AtSlot p m s) (hk : m + k < p.count) :
    (State.runLoop k s).state.pc = p.slotAddress (m + k) ∧ (State.runLoop k s).state.timedOut = true := by
  induction k generalizing m s with
  | zero =>
    rw [State.runLoop_zero (h.canStep hp.wf hk)]
    exact ⟨h.pc, rfl⟩
  | succ k ih =>
    obtain ⟨t, ht, hturn⟩ := h.turn hp (by omega)
    rw [hturn, Nat.add_comm k 1, ← Nat.add_assoc]
    exact ih ht (by omega)

/-- After the last slot a RUN ends. -/
theorem AtSlot.runLoop_last (hp : StraightLine p) (k : Nat) (h : AtSlot p p.count s) :
    (State.runLoop k s).state.pc = p.slotAddress p.count ∧ (State.runLoop k s).state.status = .executed ∧
      (State.runLoop k s).state.timedOut = false := by
  have hend : s.canStep = false := by
    rw [State.canStep, h.prog, h.pc]
    exact Program.not_contains_end hp.wf hp.small
  rw [State.runLoop_ended k hend]
  exact ⟨h.pc, rfl, h.timedOut⟩

/-- A RUN with time for all the slots left ends after the last. -/
theorem AtSlot.runLoop_end (hp : StraightLine p) (k : Nat) (h : AtSlot p m s) (hm : m ≤ p.count)
    (hk : p.count ≤ m + k) :
    (State.runLoop k s).state.pc = p.slotAddress p.count ∧ (State.runLoop k s).state.status = .executed ∧
      (State.runLoop k s).state.timedOut = false := by
  induction k generalizing m s with
  | zero =>
    obtain rfl : m = p.count := Nat.le_antisymm hm hk
    exact h.runLoop_last hp 0
  | succ k ih =>
    obtain hlt | rfl := Nat.lt_or_eq_of_le hm
    · obtain ⟨t, ht, hturn⟩ := h.turn hp hlt
      rw [hturn]
      exact ih ht hlt (by omega)
    · exact h.runLoop_last hp (k + 1)

end straight

/-- Settles O42: a RUN from `Ready` stands at slot 0. -/
theorem straightLineRunEnds : Obligations.StraightLineRunEnds := by
  intro s hs hready hmark hsmall hstraight
  have hp : StraightLine s.prog := ⟨hs.prog, hsmall, hstraight⟩
  have hstart : AtSlot s.prog 0 { s with timedOut := false } :=
    ⟨rfl, (hs.ready hready).1.trans (BitVec.add_zero _).symm, rfl⟩
  have hrun (k : Nat) : s.handle (.run k) = State.runLoop k { s with timedOut := false } :=
    State.handle_run k hmark (hready ▸ rfl)
  refine ⟨fun j hj => ?_, fun k hk => ?_⟩
  · rw [hrun]
    have hmid := hstart.runLoop_deadline hp j (by omega)
    rwa [Nat.zero_add] at hmid
  · rw [hrun]
    exact hstart.runLoop_end hp k (Nat.zero_le _) (by omega)

/-! ### What every action can do (R347, R355) -/

/-- A step is refused where the mark is set, or at the padding slot (R304, R347). -/
theorem step_refused_cases {s : State} {r : Refusal} (h : step s = .refused r) :
    s.refused = some r ∨ (s.canStep = true ∧ s.fetch = .pad ∧ r = .paddingSlot) := by
  unfold step State.stepOnce at h
  cases hmark : s.refused with
  | some r' =>
    rw [hmark] at h
    cases h
    exact .inl rfl
  | none =>
    cases hruns : s.status.runs
    · simp [hmark, hruns] at h
    · cases hcan : s.canStep
      · simp [hmark, hruns, State.engineStep, hcan] at h
      · obtain ⟨i, t, -, -, hnext⟩ | ⟨hpad, hrefused⟩ := State.engineStep_cases hcan
        · simp [hmark, hruns, hnext] at h
        · simp only [hmark, hruns, hrefused, if_true] at h
          cases h
          exact .inr ⟨rfl, hpad, rfl⟩

/-- What an action can answer in state `s`. -/
inductive Answers (s : State) : Handled → Prop where
  | rejected : Answers s ⟨s, .rejected, none⟩
  | run (k : Nat) (mark : s.refused = none) (runs : s.status.runs = true) :
      Answers s (State.runLoop k { s with timedOut := false })
  | runMarked (r : Refusal) : Answers s ⟨{ s with timedOut := false }, .refusal r, none⟩
  | step {t : State} (next : step s = .next t) : Answers s ⟨t, .effect t.lastEffect, none⟩
  | stepRefused {r : Refusal} (runs : s.status.runs = true) (refused : step s = .refused r) :
      Answers s ⟨s.refuse r, .refusal r, none⟩
  | stop (status : s.status ≠ .standby) : Answers s ⟨{ s.resetSequence with status := .ready }, .nothing, none⟩
  | reload (src : Source) : Answers s ⟨(s.loadSource src).1, .nothing, (s.loadSource src).2⟩
  | refresh : Answers s ⟨s, .effect s.lastEffect, none⟩

theorem State.handle_answers (s : State) (a : Action) : Answers s (s.handle a) := by
  cases henabled : enabled s.status a.kind
  · exact State.handle_disabled henabled ▸ .rejected
  · cases a with
    | run k =>
      cases hmark : s.refused with
      | none => exact State.handle_run k hmark henabled ▸ .run k hmark henabled
      | some r => exact State.handle_run_refused k hmark henabled ▸ .runMarked r
    | step =>
      obtain ⟨t, hnext, haction⟩ | ⟨r, hrefused, haction⟩ := State.handle_step_cases henabled
      · exact haction ▸ .step hnext
      · exact haction ▸ .stepRefused henabled hrefused
    | stop =>
      have hstatus : s.status ≠ .standby := fun h => by simp [h, Action.kind, enabled] at henabled
      exact State.handle_stop hstatus ▸ .stop hstatus
    | reload src => exact State.handle_reload s src ▸ .reload src
    | refresh => exact State.handle_refresh s ▸ .refresh

/-! ### The Effect an action returns (R354, R355) -/

/-- The Effect an action returns is the one the state after it retains, none after STOP and RELOAD. -/
theorem Answers.effect {s : State} {o : Handled} (h : Answers s o) :
    (∀ e, o.reply = .effect e → o.state.lastEffect = e) ∧ (o.reply = .nothing → o.state.lastEffect = none) := by
  cases h with
  | rejected | runMarked | stepRefused | step | refresh | stop => simp
  | reload src => simp [(s.reloaded_loadSource src).lastEffect]
  | run k hmark hruns =>
    cases (InRun.start hmark hruns).runEnd k with
    | refused hreply _ _ => simp [hreply]
    | deadline _ _ _ hreply => simp [hreply]
    | ended _ _ _ hreply _ => simp [hreply]

/-- Settles O44: REFRESH returns the retained Effect, which is the one the action before it returned. -/
theorem refreshReplaysTheEffect : Obligations.RefreshReplaysTheEffect := by
  intro s a
  obtain ⟨heffect, hnothing⟩ := (s.handle_answers a).effect
  simp only [State.handle_refresh]
  exact ⟨rfl, rfl, fun e he => congrArg Reply.effect (heffect e he), fun he => congrArg Reply.effect (hnothing he)⟩

/-! ### The parameters (R7) -/

theorem step_params {s t : State} (h : step s = .next t) : t.params = s.params := by
  obtain ⟨-, ⟨-, -, i, u, -, hexec, rfl⟩ | ⟨-, -, rfl⟩ | ⟨-, rfl⟩⟩ := step_cases h
  · obtain ⟨-, -, -, -, -, hparams⟩ := exec_controlKept hexec
    exact hparams
  · rfl
  · rfl

theorem State.runLoop_params (s : State) (k : Nat) : (State.runLoop k s).state.params = s.params := by
  refine State.runLoop_induction (P := fun t => t.params = s.params) (Q := fun o => o.state.params = s.params)
    (fun h _ _ hexec => ?_) (fun h _ => h) (fun h _ => h) (fun h _ _ => h) k rfl
  obtain ⟨-, -, -, -, -, hparams⟩ := exec_controlKept hexec
  exact hparams.trans h

theorem Answers.params {s : State} {o : Handled} (h : Answers s o) : o.state.params = s.params := by
  cases h with
  | rejected | runMarked | stepRefused | stop | refresh => rfl
  | step hnext => exact step_params hnext
  | reload src => exact (s.reloaded_loadSource src).params
  | run k => exact State.runLoop_params _ k

/-! ### The invariant (R347, R348, R352, R353) -/

/-- The invariant says nothing of `timedOut`. -/
theorem Inv.with_timedOut {s : State} (h : Inv s) (b : Bool) : Inv { s with timedOut := b } :=
  ⟨h.data.congr rfl rfl rfl, h.prog, h.standby, h.runs, h.executed, h.ready, h.refused⟩

/-- The mark set at the padding slot keeps the invariant (R304). -/
theorem Inv.refuse {s : State} (h : Inv s) (hruns : s.status.runs = true) (hpad : s.fetch = .pad) :
    Inv (s.refuse .paddingSlot) := by
  refine ⟨h.data.congr rfl rfl rfl, h.prog, h.standby, h.runs, h.executed, h.ready, fun r hr => ?_⟩
  cases hr
  exact ⟨rfl, hpad, hruns⟩

/-- The invariant of RUN's loop. Between two turns the status is `Running` whether a next instruction exists or not, so
`Inv` itself holds again only where the loop ends. -/
structure LoopInv (s : State) : Prop extends InRun s where
  data  : DataInv s
  prog  : s.prog.wf
  slots : s.prog.count ≠ 0
  ready : s.status = .ready → s.pc = s.prog.entry ∧ s.lastEffect = none

theorem Inv.loopInv {s : State} (h : Inv s) (hmark : s.refused = none) (hruns : s.status.runs = true) :
    LoopInv { s with timedOut := false } where
  toInRun := .start hmark hruns
  data := h.data.congr rfl rfl rfl
  prog := h.prog
  slots := fun hcount => Status.ne_standby_of_runs hruns (h.standby.mpr hcount)
  ready := h.ready

theorem LoopInv.turn {i : Instr} {s t : State} (h : LoopInv s) (hexec : exec i s = .next t) :
    LoopInv { t with status := .running } := by
  obtain ⟨hprog, -⟩ := exec_controlKept hexec
  exact ⟨h.toInRun.turn hexec, (exec_dataInv h.data hexec).congr rfl rfl rfl, hprog ▸ h.prog, hprog ▸ h.slots, nofun⟩

/-- Where a next instruction exists the loop's invariant is the block's. -/
theorem LoopInv.inv {s : State} (h : LoopInv s) (hcan : s.canStep = true) : Inv s where
  data := h.data
  prog := h.prog
  standby := ⟨fun hs => absurd hs (Status.ne_standby_of_runs h.runs), fun hc => absurd hc h.slots⟩
  runs := fun _ => hcan
  executed := fun hs => absurd (hs ▸ h.runs) nofun
  ready := h.ready
  refused := fun _ hr => absurd (h.refused.symm.trans hr) nofun

/-- The natural end of a RUN establishes the invariant (R348). -/
theorem LoopInv.inv_terminate {s : State} (h : LoopInv s) (hcan : s.canStep = false) : Inv s.terminate where
  data := h.data.congr rfl rfl rfl
  prog := h.prog
  standby := ⟨nofun, fun hc => absurd hc h.slots⟩
  runs := nofun
  executed := fun _ => hcan
  ready := nofun
  refused := fun _ hr => absurd (h.refused.symm.trans hr) nofun

theorem LoopInv.inv_runLoop {s : State} (h : LoopInv s) (k : Nat) : Inv (State.runLoop k s).state :=
  State.runLoop_induction (P := LoopInv) (Q := fun o => Inv o.state)
    (turn := fun h _ _ hexec => h.turn hexec)
    (deadline := fun h hcan => (h.inv hcan).with_timedOut true)
    (ended := fun h hcan => h.inv_terminate hcan)
    (pad := fun h hcan hpad => (h.inv hcan).refuse h.runs hpad) k h

/-- STOP keeps the invariant: it is enabled only where the Program has a slot to be `Ready` at (R347, R352). -/
theorem Inv.stop {s : State} (h : Inv s) (hstatus : s.status ≠ .standby) :
    Inv { s.resetSequence with status := .ready } := by
  have hreset := Inv.of_resetSequence h.prog s.loadFailed
  rwa [if_neg (mt h.standby.mpr hstatus)] at hreset

theorem Answers.inv {s : State} {o : Handled} (h : Answers s o) (hs : Inv s) : Inv o.state := by
  cases h with
  | rejected | refresh => exact hs
  | runMarked => exact hs.with_timedOut false
  | run k hmark hruns => exact (hs.loopInv hmark hruns).inv_runLoop k
  | step hnext => exact stepKeepsTheInvariant _ _ hs hnext
  | stepRefused hruns hrefused =>
    obtain hmark | ⟨-, hpad, rfl⟩ := step_refused_cases hrefused
    · exact State.refuse_of_refused hmark ▸ hs
    · exact hs.refuse hruns hpad
  | stop hstatus => exact hs.stop hstatus
  | reload src =>
    obtain ⟨halign, -⟩ := hs.prog
    exact State.inv_loadSource halign src

/-- Settles O59: whatever the action answers keeps both. -/
theorem everyActionKeepsTheInvariant : Obligations.EveryActionKeepsTheInvariant :=
  fun s a hs => ⟨(s.handle_answers a).inv hs, (s.handle_answers a).params⟩

end Machine

end Sys2Proof
end

section
/-! PROOFS. The statement about the listed words of the spec's small programs (95_test_vectors.md section 3). -/

namespace Sys2Proof

/-- The word of a record with a word form decodes to the record at its address (R103 to R106). -/
theorem decode_eq_ok_of_encode_eq {p w : Word} {i : Instr} (hword : i.hasWord p = true) (henc : encode p i = w) :
    decode p w = .ok i :=
  henc ▸ encodedRecordDecodesBack p i hword

/-- Settles O56: each listed word is the encoding, at its address, of the record beside it. -/
theorem sampleWordsDecode : Obligations.SampleWordsDecode := by
  refine ⟨?add, ?addi, ?srai, ?lui, ?lh, ?sb, ?jal, ?jalr, ?blt⟩
  case jal | blt => exact decode_eq_ok_of_encode_eq (by decide) (by decide)
  all_goals exact decode_eq_ok_of_encode_eq rfl (by decide)

end Sys2Proof
end
